-- ==== Sys2Proof/Word.lean ====
section
/-! DEFINITION. The two sizes of value HF-CORE handles (00_scope.md rule R9). -/

namespace Sys2Proof

/-- A 32-bit unsigned word. `+` on it is addition modulo 2^32 (R11). -/
abbrev Word := BitVec 32

/-- An 8-bit unsigned byte (R9). -/
abbrev Byte := BitVec 8

end Sys2Proof
end

