-- ==== Sys2Proof/Syntax.lean ====
section
/-! DEFINITION. The eight commands of HF-CORE, one constructor for each row of the opcode table
(30_encoding.md rule R84). -/

namespace Sys2Proof

/-- A command. The operand of formats A and B is the 8-bit field ARG exactly as it stands (R83). -/
inductive Instr where
  /-- NOP (R102). -/
  | nop
  /-- INIT: open a plain digest call with algorithm code `a` (R103). -/
  | init (a : Byte)
  /-- KINIT: open an HMAC call with algorithm code `a` (R241). -/
  | kinit (a : Byte)
  /-- KBYTE: one byte of the key (R242). -/
  | kbyte (b : Byte)
  /-- KDONE: end of the key (R243). -/
  | kdone
  /-- MBYTE: one byte of the message (R105). -/
  | mbyte (b : Byte)
  /-- FINAL: end of the message (R106). -/
  | final
  /-- CLEAR: back to the reset state (R107). -/
  | clear
  deriving DecidableEq, Repr

end Sys2Proof
end

