-- ==== Sys2Proof/WellFormed.lean ====
section
/-! DEFINITION. Well-formed commands and well-formed command words (30_encoding.md rules R81, R86).
The checks on words are written on numbers, apart from the decoder, so that the two can be compared. -/

namespace Sys2Proof

/-- How a command reads its ARG field (R81). -/
inductive Format where
  /-- N: ARG must be 0. -/
  | n
  /-- A: ARG is an algorithm code. -/
  | a
  /-- B: ARG is a data byte. -/
  | b
  deriving DecidableEq, Repr

/-- The format of each command (R81, R84). -/
def Instr.format : Instr → Format
  | .nop => .n
  | .init _ => .a
  | .kinit _ => .a
  | .kbyte _ => .b
  | .kdone => .n
  | .mbyte _ => .b
  | .final => .n
  | .clear => .n

/-- A command is well-formed when its operand is an 8-bit value (R83). The operand's type carries that
check: each of the 256 values is legal in formats A and B, the codes 4 to 255 included (R85), so every
term of the type passes. -/
def Instr.wellFormed : Instr → Bool
  | .nop => true
  | .init a => decide (a.toNat < 256)
  | .kinit a => decide (a.toNat < 256)
  | .kbyte b => decide (b.toNat < 256)
  | .kdone => true
  | .mbyte b => decide (b.toNat < 256)
  | .final => true
  | .clear => true

/-- Check (a) of R86: the field RSV (bits 31:16) is 0. -/
def reservedIsZero (w : Word) : Bool := decide (w.toNat / 65536 = 0)

/-- Check (b) of R86: the opcode (bits 7:0) is one of 00 to 07. -/
def opcodeIsKnown (w : Word) : Bool := decide (w.toNat % 256 < 8)

/-- Check (c) of R86: where the opcode is of format N (00, 04, 06, 07), ARG (bits 15:8) is 0. -/
def argumentIsAllowed (w : Word) : Bool :=
  !([0, 4, 6, 7].contains (w.toNat % 256)) || decide (w.toNat / 256 % 256 = 0)

/-- A command word is well-formed when none of R86's three conditions makes it illegal. -/
def wordWellFormed (w : Word) : Bool :=
  reservedIsZero w && opcodeIsKnown w && argumentIsAllowed w

end Sys2Proof
end

