-- ==== Sys2Proof/Decode.lean ====
section
/-! DEFINITION. The decoder of command words (30_encoding.md rule R91) and the encoder (R81, R84). -/

namespace Sys2Proof

/-- Why a word is an illegal encoding: the three conditions of R86. -/
inductive Illegal where
  /-- R86 (a): RSV is not 0. -/
  | reservedBits
  /-- R86 (b): the opcode is 08 or more. -/
  | opcode
  /-- R86 (c): a format N command with ARG not 0. -/
  | argument
  deriving DecidableEq, Repr

/-- What a word decodes to: one of the eight commands, or illegal (R86: the decode function is total). -/
inductive Decoded where
  | instr (i : Instr)
  | illegal (why : Illegal)
  deriving DecidableEq, Repr

/-- OPC = w[7:0] (R82). -/
def opcOf (w : Word) : Byte := w.extractLsb' 0 8

/-- ARG = w[15:8] (R82). -/
def argOf (w : Word) : Byte := w.extractLsb' 8 8

/-- RSV = w[31:16] (R82). -/
def rsvOf (w : Word) : BitVec 16 := w.extractLsb' 16 16

/-- A format N command: illegal unless ARG is 0 (R81, R86). -/
def formatN (w : Word) (i : Instr) : Decoded :=
  if argOf w = 0 then .instr i else .illegal .argument

/-- Decode(w) of R91, over the opcodes of R84. -/
def decode (w : Word) : Decoded :=
  if rsvOf w ≠ 0 then .illegal .reservedBits
  else if opcOf w = 0x00 then formatN w .nop
  else if opcOf w = 0x01 then .instr (.init (argOf w))
  else if opcOf w = 0x02 then .instr (.kinit (argOf w))
  else if opcOf w = 0x03 then .instr (.kbyte (argOf w))
  else if opcOf w = 0x04 then formatN w .kdone
  else if opcOf w = 0x05 then .instr (.mbyte (argOf w))
  else if opcOf w = 0x06 then formatN w .final
  else if opcOf w = 0x07 then formatN w .clear
  else .illegal .opcode

/-- The opcode of each command (R84). -/
def Instr.opcode : Instr → Byte
  | .nop => 0x00
  | .init _ => 0x01
  | .kinit _ => 0x02
  | .kbyte _ => 0x03
  | .kdone => 0x04
  | .mbyte _ => 0x05
  | .final => 0x06
  | .clear => 0x07

/-- The ARG field of each command (R81): 0 in format N. -/
def Instr.argument : Instr → Byte
  | .nop => 0
  | .init a => a
  | .kinit a => a
  | .kbyte b => b
  | .kdone => 0
  | .mbyte b => b
  | .final => 0
  | .clear => 0

/-- The one layout of R81: `zext_32(OPC) | (zext_32(ARG) << 8)`, RSV 0. -/
def commandWord (opc arg : Byte) : Word := opc.setWidth 32 ||| (arg.setWidth 32 <<< 8)

/-- Encode of R91: the word of a command. -/
def encode (i : Instr) : Word := commandWord i.opcode i.argument

/-- The command read from an instruction whose bits, numbered as the opcode table numbers them, are the
low `nbits` bits of `w`; none where the decoder finds the word illegal or the number has more than 32 bits. -/
def decodeTableWord (nbits w : Nat) : Option Instr :=
  if w % 2 ^ nbits < 2 ^ 32 then
    match decode (BitVec.ofNat 32 (w % 2 ^ nbits)) with
    | .instr i => some i
    | .illegal _ => none
  else none

end Sys2Proof
end

