-- ==== Sys2Proof/Config.lean ====
section
/-! DEFINITION. The fixed parameters of 00_scope.md rule R9 and the two parameters the spec leaves OPEN.
HF-CORE has no free value: every result is fixed by a rule. -/

namespace Sys2Proof

/-- Bytes in a block, for all four algorithms (R9). -/
def Config.blockBytes : Nat := 64

/-- The byte HMAC's inner pad repeats (R9). -/
def Config.ipadByte : Byte := 0x36

/-- The byte HMAC's outer pad repeats (R9). -/
def Config.opadByte : Byte := 0x5c

/-- The OPEN parameter `N_INSTANCES` (R9, 20_memory.md rule R77): the number of engine instances on a platform, at least 1. It is an
argument of the platform's reset. -/
abbrev InstanceCount := { n : Nat // 1 ≤ n }

/-- The four checks the driver's `hmac` makes before its first command (92_eei_decisions.md D27). -/
inductive HostCheck where
  /-- Look the algorithm's name up (R136). -/
  | algorithm
  /-- Decode the key (R130, R131). -/
  | keyFormat
  /-- The key is not empty (R135). -/
  | keyPresent
  /-- Decode the message (R130, R131). -/
  | messageFormat
  deriving DecidableEq, Repr

/-- The OPEN parameter `HOST_ERR_ORDER` (41_preprocessor_host.md rule R139): the order of the four checks. It is an
argument of the driver. -/
abbrev HostErrOrder := List HostCheck

/-- A value of `HOST_ERR_ORDER` is a permutation of the four checks (R139). -/
def HostErrOrder.legal (o : HostErrOrder) : Bool :=
  decide (o.length = 4) && o.contains .algorithm && o.contains .keyFormat &&
    o.contains .keyPresent && o.contains .messageFormat

/-- The order written in R135. -/
def HostErrOrder.ofR135 : HostErrOrder := [.algorithm, .keyFormat, .keyPresent, .messageFormat]

end Sys2Proof
end

