-- ==== Sys2Proof/Machine/State.lean ====
section
/-! DEFINITION. The state of HF-CORE, complete by 10_state.md rule R20, its reset value (R43), the host's side of the
interface, and the ways a step of the model can stop. -/

namespace Sys2Proof.Machine

/-- The controller state STATE (R31). The 3-bit encodings 5 to 7 are never produced and have no constructor. -/
inductive Ctl where
  /-- 0: no call open, no digest available. -/
  | idle
  /-- 1: an HMAC call is open and its key is being received. -/
  | key
  /-- 2: a call is open and its message is being received. -/
  | msg
  /-- 3: the call ended and the digest can be read. -/
  | done
  /-- 4: an error was raised; only CLEAR or reset leaves. -/
  | error
  deriving DecidableEq, Repr

/-- The sticky error code ERR (60_exceptions.md rule R261). The reserved codes 6 to 15 are never produced and have no
constructor. -/
inductive Err where
  /-- 0: no error since reset or CLEAR. -/
  | none
  /-- 1, ERR_KEY: KDONE with no key byte received (R262). -/
  | key
  /-- 2, ERR_ALG: INIT or KINIT with ARG of 4 or more (R263). -/
  | alg
  /-- 3, ERR_SIZE: reserved, raised by no rule (R264). -/
  | size
  /-- 4, ERR_CMD: an illegal command word (R265). -/
  | cmd
  /-- 5, ERR_SEQ: a command not legal in the current STATE (R265). -/
  | seq
  deriving DecidableEq, Repr

/-- The algorithm ALG (R35). -/
inductive Alg where
  | md4
  | md5
  | sha1
  | sha256
  deriving DecidableEq, Repr

/-- The engine: exactly the state of R20. -/
structure Engine where
  /-- STATE (R31). -/
  state : Ctl
  /-- ERR (R33). -/
  err : Err
  /-- HMAC (R34): the current or last call is an HMAC call. -/
  hmac : Bool
  /-- ALG (R35). -/
  alg : Alg
  /-- H[0..7], the HashState registers (R22). -/
  h : Vector Word 8
  /-- W[0..79], block buffer and message schedule (R26). -/
  w : Vector Word 80
  /-- POS, byte offset of the next byte in the block buffer (R27). -/
  pos : BitVec 6
  /-- MLEN, length in bits of the bytes hashed so far, modulo 2^64 (R28). -/
  mlen : BitVec 64
  /-- KB[0..63], the HMAC key block (R36). -/
  kb : Vector Byte 64
  /-- KCNT, number of key bytes received, saturating at 65 (R37). -/
  kcnt : BitVec 7
  /-- ID[0..31], the HMAC inner digest (R38). -/
  idb : Vector Byte 32
  /-- SV[0..7], the registers at the start of the block (R25). -/
  sv : Vector Word 8
  /-- J, the round counter, 0 at every command boundary (R30). -/
  j : BitVec 7
  deriving DecidableEq, Repr

/-- Every item at the reset value of R43. -/
def Engine.reset : Engine where
  state := .idle
  err := .none
  hmac := false
  alg := .md4
  h := Vector.replicate 8 0
  w := Vector.replicate 80 0
  pos := 0
  mlen := 0
  kb := Vector.replicate 64 0
  kcnt := 0
  idb := Vector.replicate 32 0
  sv := Vector.replicate 8 0
  j := 0

/-- One thing the host does to the engine (70_reset_and_hazards.md rule R300). -/
inductive Access where
  /-- MemRead(addr, n): a read of `n` bytes at byte offset `addr` of the register space (R60). -/
  | read (addr n : Nat)
  /-- MemWrite(addr, n, v): a write of `n` bytes (R60). Only 4-byte writes exist (R62), so `v` is one word. -/
  | write (addr n : Nat) (v : Word)
  /-- The platform's reset (R290). -/
  | reset
  deriving DecidableEq, Repr

/-- The machine: the engine, and the host's side of the interface. HF-CORE fetches no commands (R29), so the accesses
that drive it stand in the state as a list. DESIGN CHOICE (log entries 1 and 2), safe: `host` and `replies` are the model's own
fields, not the spec's; no rule of the engine reads them. -/
structure State where
  /-- The engine (R20). -/
  eng : Engine
  /-- The accesses the host has still to issue, oldest first (R69). -/
  host : List Access
  /-- The values the host's reads have returned, oldest first (R65). -/
  replies : List Word
  deriving DecidableEq, Repr

/-- The machine right after reset (R43, R290), with nothing issued by the host and nothing read. -/
def State.reset : State where
  eng := Engine.reset
  host := []
  replies := []

/-- The reasons the machine can get stuck. No command raises one: HF-CORE's errors are next states (R266). -/
inductive Fault where
  /-- Raised by `step` alone, when the host has no access left to issue: the engine never steps by itself
  (R14) and the run has ended (R118). Safe: the model stops where the hardware stays as it is. -/
  | noHostAccess
  deriving DecidableEq, Repr

/-- The moves that do not exist. -/
inductive Refusal where
  /-- An instruction with no meaning yet: raised by no arm, since all eight commands have theirs. Safe. -/
  | notModelled (mnemonic : String)
  /-- Raised by `perform` for an access that is not a 32-bit access at a multiple of 4 within the 64 bytes: it is no
  HF-CORE access, and a model refuses it (20_memory.md rule R62). Safe: the spec gives it no value and no effect. -/
  | noSuchAccess
  /-- Raised by `Platform.stepAt` for an instance the platform does not have (R77). Safe. -/
  | noSuchInstance
  deriving DecidableEq, Repr

end Sys2Proof.Machine
end

