-- ==== Sys2Proof/Machine/Ops.lean ====
section
/-! DEFINITION. The shared operations: word arithmetic (00_scope.md rule R11), access to the register files (R12), the entry
into an error (60_exceptions.md rule R266) and the exit from it (40_commands.md rule R107). -/

namespace Sys2Proof.Machine

/-- What a step of the machine answers. -/
abbrev Result := Host.Outcome State Fault Refusal

/-- rotl(a, n) (R11). -/
def rotl (a : Word) (n : Nat) : Word := (a <<< n) ||| (a >>> (32 - n))

/-- rotr(a, n) (R11). -/
def rotr (a : Word) (n : Nat) : Word := (a >>> n) ||| (a <<< (32 - n))

/-- shr(a, n), zero filled (R11). -/
def shr (a : Word) (n : Nat) : Word := a >>> n

/-- Byte `k` of a word by significance: bits 8k+7 : 8k (R10). -/
def byteAt (a : Word) (k : Nat) : Byte := a.extractLsb' (8 * k) 8

/-- The word whose bytes from the most significant down are `b3 b2 b1 b0` (the concatenation of R10). -/
def wordOf (b3 b2 b1 b0 : Byte) : Word :=
  (b3.setWidth 32 <<< 24) ||| (b2.setWidth 32 <<< 16) ||| (b1.setWidth 32 <<< 8) ||| b0.setWidth 32

/-- bswap32(a) (R11). -/
def bswap32 (a : Word) : Word := wordOf (byteAt a 0) (byteAt a 1) (byteAt a 2) (byteAt a 3)

/-- The four bytes of a word, most significant first (R117). -/
def bytesOf (a : Word) : List Byte := [byteAt a 3, byteAt a 2, byteAt a 1, byteAt a 0]

/-- `x[i]` of a register file (R12); no rule reads outside the file. -/
def getAt {α : Type} {n : Nat} (v : Vector α n) (i : Nat) (dflt : α) : α := v[i]?.getD dflt

/-- `x[i] <- v` of a register file (R12); no rule writes outside the file. -/
def setAt {α : Type} {n : Nat} (v : Vector α n) (i : Nat) (x : α) : Vector α n := v.setIfInBounds i x

/-- H[i]. -/
def Engine.hAt (e : Engine) (i : Nat) : Word := getAt e.h i 0

/-- W[i]. -/
def Engine.wAt (e : Engine) (i : Nat) : Word := getAt e.w i 0

/-- Bytes stored one after the other from index `i` on. -/
def storeFrom {n : Nat} (v : Vector Byte n) (i : Nat) : List Byte → Vector Byte n
  | [] => v
  | b :: bs => storeFrom (setAt v i b) (i + 1) bs

/-- ResetCallState() (10_state.md rule R21): all the call state is zero. -/
def Engine.resetCallState (e : Engine) : Engine :=
  { e with
    h := Vector.replicate 8 0
    sv := Vector.replicate 8 0
    w := Vector.replicate 80 0
    kb := Vector.replicate 64 0
    idb := Vector.replicate 32 0
    pos := 0
    mlen := 0
    kcnt := 0
    j := 0 }

/-- Error entry, Err(code) of R266: ERR and STATE change, nothing else. -/
def Engine.enterError (c : Err) (e : Engine) : Engine := { e with err := c, state := .error }

/-- The exit from an error, Reset() of R107: the state after CLEAR is the state after reset in every item. -/
def Engine.clear (e : Engine) : Engine :=
  Engine.resetCallState { e with state := .idle, err := .none, hmac := false, alg := .md4 }

/-- The engine changed by `f`, the host's side left alone. -/
def State.mapEng (s : State) (f : Engine → Engine) : State := { s with eng := f s.eng }

/-- The command ends with the engine changed by `f`. -/
def complete (s : State) (f : Engine → Engine) : Result := .next (s.mapEng f)

/-- raise Err(code) (R266): the command ends here. -/
def raise (c : Err) (s : State) : Result := complete s (Engine.enterError c)

/-- The first test of R100: in state ERROR the word is ignored (R267). -/
def unlessError (s : State) (k : Result) : Result :=
  if s.eng.state = .error then .next s else k

/-- The test of R100 for a command legal in one STATE only: any other raises ERR_SEQ (R265). -/
def requireState (c : Ctl) (s : State) (k : Result) : Result :=
  if s.eng.state = c then k else raise .seq s

/-- An illegal word: ERR_CMD, ignored in ERROR (R100, R265, R267). -/
def takeIllegal (s : State) : Result := unlessError s (raise .cmd s)

end Sys2Proof.Machine
end

