-- ==== Sys2Proof/Machine/Operands.lean ====
section
/-! DEFINITION. The two operand forms of a command, an algorithm code and a data byte (30_encoding.md rules R83, R85), and
what follows from the algorithm (10_state.md rule R35). -/

namespace Sys2Proof.Machine

/-- The operand of format A (R85): codes 0 to 3 name an algorithm, 4 to 255 name none. -/
def Alg.ofCode (a : Byte) : Option Alg :=
  if a = 0 then some .md4
  else if a = 1 then some .md5
  else if a = 2 then some .sha1
  else if a = 3 then some .sha256
  else none

/-- Arity(): how many of the registers H the algorithm uses (R35). -/
def Alg.arity : Alg → Nat
  | .md4 => 4
  | .md5 => 4
  | .sha1 => 5
  | .sha256 => 8

/-- Little(): the byte order of packing (R35). -/
def Alg.little : Alg → Bool
  | .md4 => true
  | .md5 => true
  | .sha1 => false
  | .sha256 => false

/-- Rounds in a block (R35). -/
def Alg.rounds : Alg → Nat
  | .md4 => 48
  | .md5 => 64
  | .sha1 => 80
  | .sha256 => 64

/-- Digest bytes, 4*Arity() (R35). -/
def Alg.digestBytes (a : Alg) : Nat := 4 * a.arity

/-- The operand of an opening command (R103, R241): a code that names no algorithm raises ERR_ALG (R263). -/
def withAlg (a : Byte) (s : State) (k : Alg → Result) : Result :=
  match Alg.ofCode a with
  | some alg => k alg
  | none => raise .alg s

end Sys2Proof.Machine
end

