-- ==== Sys2Proof/Machine/Block.lean ====
section
/-! DEFINITION. What the four compression cores share: saving the registers and the feed-forward of "caching the incoming register
values, running its round schedule, then adding the cached values back" (42_word_packer.md rule R147). -/

namespace Sys2Proof.Machine

/-- Entry `j` of a constant table written in rows of four, as the tables of 44_md5.md rule R183 and 46_sha256.md rule R222
are: row `j / 4`, column `j mod 4`. -/
def rowsAt (rows : List (List Word)) (j : Nat) : Word := (rows.getD (j / 4) []).getD (j % 4) 0

/-- `for i in 0..n-1: SV[i] <- H[i]` on the registers (R25). -/
def saveFirst (h sv : Vector Word 8) (n : Nat) : Vector Word 8 :=
  (List.range n).foldl (fun v i => setAt v i (getAt h i 0)) sv

/-- SV[i] <- H[i] for the `n` registers of the algorithm (R25). -/
def Engine.saveRegisters (n : Nat) (e : Engine) : Engine := { e with sv := saveFirst e.h e.sv n }

/-- `H[i] <- SV[i] + r` for the working registers `rs`, from register `i` on. -/
def feedForward (sv h : Vector Word 8) (i : Nat) : List Word → Vector Word 8
  | [] => h
  | r :: rs => feedForward sv (setAt h i (getAt sv i 0 + r)) (i + 1) rs

/-- The end of every core's compress rule: the feed-forward, and J <- 0 (R30). -/
def Engine.addBack (rs : List Word) (e : Engine) : Engine :=
  { e with h := feedForward e.sv e.h 0 rs, j := 0 }

end Sys2Proof.Machine
end

