-- ==== Sys2Proof/Machine/Md4.lean ====
section
/-! DEFINITION. The MD4 compression core (43_md4.md). -/

namespace Sys2Proof.Machine

/-- The working registers (a, b, c, d) of MD4 and MD5. -/
structure Regs4 where
  a : Word
  b : Word
  c : Word
  d : Word
  deriving DecidableEq, Repr

/-- (H[0], H[1], H[2], H[3]). -/
def Regs4.load (h : Vector Word 8) : Regs4 := ⟨getAt h 0 0, getAt h 1 0, getAt h 2 0, getAt h 3 0⟩

/-- The registers in order. -/
def Regs4.list (r : Regs4) : List Word := [r.a, r.b, r.c, r.d]

/-- IV_MD4 (R161). -/
def md4IV : List Word := [0x67452301, 0xefcdab89, 0x98badcfe, 0x10325476]

/-- F(x,y,z) (R162, and R182 for MD5). -/
def fnF (x y z : Word) : Word := (x &&& y) ||| (~~~x &&& z)

/-- MD4's G(x,y,z), bitwise majority (R162). -/
def fnG (x y z : Word) : Word := (x &&& y) ||| (x &&& z) ||| (y &&& z)

/-- Hx(x,y,z), bitwise parity (R162, R182). -/
def fnHx (x y z : Word) : Word := x ^^^ y ^^^ z

/-- f_p, the function of phase `p` (R162). -/
def md4Fn (p : Nat) (x y z : Word) : Word :=
  match p with
  | 0 => fnF x y z
  | 1 => fnG x y z
  | _ => fnHx x y z

/-- K_MD4[p] (R163). -/
def md4K (p : Nat) : Word :=
  match p with
  | 0 => 0x00000000
  | 1 => 0x5a827999
  | _ => 0x6ed9eba1

/-- The four bits of `r` in reverse (R164). -/
def bitrev4 (r : Nat) : Nat := r % 2 * 8 + r / 2 % 2 * 4 + r / 4 % 2 * 2 + r / 8 % 2

/-- idx(j): which block word round `j` reads (R164). -/
def md4Idx (j : Nat) : Nat :=
  match j / 16 with
  | 0 => j % 16
  | 1 => 4 * (j % 16 % 4) + j % 16 / 4
  | _ => bitrev4 (j % 16)

/-- S_MD4, one row a phase (R165). -/
def md4S : List (List Nat) := [[3, 7, 11, 19], [3, 5, 9, 13], [3, 9, 11, 15]]

/-- The rotation amount of round `j` (R165). -/
def md4Rot (j : Nat) : Nat := (md4S.getD (j / 16) []).getD (j % 16 % 4) 0

/-- RoundMD4(j, (a, b, c, d), X) (R166). -/
def md4Round (j : Nat) (r : Regs4) (x : Vector Word 80) : Regs4 :=
  ⟨r.d, rotl (r.a + md4Fn (j / 16) r.b r.c r.d + getAt x (md4Idx j) 0 + md4K (j / 16)) (md4Rot j), r.b, r.c⟩

/-- The 48 rounds (R167). -/
@[irreducible] def md4Rounds (r : Regs4) (x : Vector Word 80) : Regs4 :=
  (List.range Alg.md4.rounds).foldl (fun r j => md4Round j r x) r

/-- Compress_MD4(h, X) as a pure function (R167). -/
def md4Block (h : Vector Word 8) (x : Vector Word 80) : Vector Word 8 :=
  feedForward h h 0 (md4Rounds (Regs4.load h) x).list

/-- CompressMD4() (R167). -/
def Engine.compressMd4 (e : Engine) : Engine :=
  (e.saveRegisters 4).addBack (md4Rounds (Regs4.load e.h) e.w).list

end Sys2Proof.Machine
end

