-- ==== Sys2Proof/Machine/Md5.lean ====
section
/-! DEFINITION. The MD5 compression core (44_md5.md). -/

namespace Sys2Proof.Machine

/-- IV_MD5 (R181). -/
def md5IV : List Word := [0x67452301, 0xefcdab89, 0x98badcfe, 0x10325476]

/-- G5(x,y,z) (R182). -/
def fnG5 (x y z : Word) : Word := (x &&& z) ||| (y &&& ~~~z)

/-- I(x,y,z) (R182). -/
def fnI (x y z : Word) : Word := y ^^^ (x ||| ~~~z)

/-- f_p, the function of phase `p` (R182). -/
def md5Fn (p : Nat) (x y z : Word) : Word :=
  match p with
  | 0 => fnF x y z
  | 1 => fnG5 x y z
  | 2 => fnHx x y z
  | _ => fnI x y z

/-- T (R183), row by row as the rule's table has it: literal data, no sine is computed. -/
def md5TRows : List (List Word) :=
  [[0xd76aa478, 0xe8c7b756, 0x242070db, 0xc1bdceee],
   [0xf57c0faf, 0x4787c62a, 0xa8304613, 0xfd469501],
   [0x698098d8, 0x8b44f7af, 0xffff5bb1, 0x895cd7be],
   [0x6b901122, 0xfd987193, 0xa679438e, 0x49b40821],
   [0xf61e2562, 0xc040b340, 0x265e5a51, 0xe9b6c7aa],
   [0xd62f105d, 0x02441453, 0xd8a1e681, 0xe7d3fbc8],
   [0x21e1cde6, 0xc33707d6, 0xf4d50d87, 0x455a14ed],
   [0xa9e3e905, 0xfcefa3f8, 0x676f02d9, 0x8d2a4c8a],
   [0xfffa3942, 0x8771f681, 0x6d9d6122, 0xfde5380c],
   [0xa4beea44, 0x4bdecfa9, 0xf6bb4b60, 0xbebfbc70],
   [0x289b7ec6, 0xeaa127fa, 0xd4ef3085, 0x04881d05],
   [0xd9d4d039, 0xe6db99e5, 0x1fa27cf8, 0xc4ac5665],
   [0xf4292244, 0x432aff97, 0xab9423a7, 0xfc93a039],
   [0x655b59c3, 0x8f0ccc92, 0xffeff47d, 0x85845dd1],
   [0x6fa87e4f, 0xfe2ce6e0, 0xa3014314, 0x4e0811a1],
   [0xf7537e82, 0xbd3af235, 0x2ad7d2bb, 0xeb86d391]]

/-- T[j] (R183). -/
def md5T (j : Nat) : Word := rowsAt md5TRows j

/-- g(j): which block word round `j` reads (R184). -/
def md5Idx (j : Nat) : Nat :=
  match j / 16 with
  | 0 => j % 16
  | 1 => (5 * (j % 16) + 1) % 16
  | 2 => (3 * (j % 16) + 5) % 16
  | _ => 7 * (j % 16) % 16

/-- S_MD5, one row a phase (R185). -/
def md5S : List (List Nat) := [[7, 12, 17, 22], [5, 9, 14, 20], [4, 11, 16, 23], [6, 10, 15, 21]]

/-- The rotation amount of round `j` (R185). -/
def md5Rot (j : Nat) : Nat := (md5S.getD (j / 16) []).getD (j % 16 % 4) 0

/-- RoundMD5(j, (a, b, c, d), X) (R186). -/
def md5Round (j : Nat) (r : Regs4) (x : Vector Word 80) : Regs4 :=
  ⟨r.d, r.b + rotl (r.a + md5Fn (j / 16) r.b r.c r.d + md5T j + getAt x (md5Idx j) 0) (md5Rot j), r.b, r.c⟩

/-- The 64 rounds (R187). -/
@[irreducible] def md5Rounds (r : Regs4) (x : Vector Word 80) : Regs4 :=
  (List.range Alg.md5.rounds).foldl (fun r j => md5Round j r x) r

/-- The MD5 block function on registers and block (R187). -/
def md5Block (h : Vector Word 8) (x : Vector Word 80) : Vector Word 8 :=
  feedForward h h 0 (md5Rounds (Regs4.load h) x).list

/-- CompressMD5() (R187). -/
def Engine.compressMd5 (e : Engine) : Engine :=
  (e.saveRegisters 4).addBack (md5Rounds (Regs4.load e.h) e.w).list

end Sys2Proof.Machine
end

