-- ==== Sys2Proof/Machine/Sha1.lean ====
section
/-! DEFINITION. The SHA-1 compression core (45_sha1.md). -/

namespace Sys2Proof.Machine

/-- The working registers (a, b, c, d, e) of SHA-1. -/
structure Regs5 where
  a : Word
  b : Word
  c : Word
  d : Word
  e : Word
  deriving DecidableEq, Repr

/-- (H[0], ..., H[4]). -/
def Regs5.load (h : Vector Word 8) : Regs5 :=
  ⟨getAt h 0 0, getAt h 1 0, getAt h 2 0, getAt h 3 0, getAt h 4 0⟩

/-- The registers in order. -/
def Regs5.list (r : Regs5) : List Word := [r.a, r.b, r.c, r.d, r.e]

/-- IV_SHA1 (R201). -/
def sha1IV : List Word := [0x67452301, 0xefcdab89, 0x98badcfe, 0x10325476, 0xc3d2e1f0]

/-- One step of the message schedule (R202): W[i] from earlier words. -/
def sha1Expand (w : Vector Word 80) (i : Nat) : Vector Word 80 :=
  setAt w i (rotl (getAt w (i - 3) 0 ^^^ getAt w (i - 8) 0 ^^^ getAt w (i - 14) 0 ^^^ getAt w (i - 16) 0) 1)

/-- ScheduleSHA1() (R202): W[16..79], in increasing order. -/
@[irreducible] def sha1Schedule (w : Vector Word 80) : Vector Word 80 := (List.range' 16 64).foldl sha1Expand w

/-- f_0 of R203, choose. -/
def sha1Choose (b c d : Word) : Word := (b &&& c) ||| (~~~b &&& d)

/-- f_1 and f_3 of R203, parity. -/
def sha1Parity (b c d : Word) : Word := b ^^^ c ^^^ d

/-- f_2 of R203, majority. -/
def sha1Majority (b c d : Word) : Word := (b &&& c) ||| (b &&& d) ||| (c &&& d)

/-- f_q, the function of quarter `q` (R203). -/
def sha1Fn (q : Nat) (b c d : Word) : Word :=
  match q with
  | 0 => sha1Choose b c d
  | 1 => sha1Parity b c d
  | 2 => sha1Majority b c d
  | _ => sha1Parity b c d

/-- K_SHA1[q] (R204). -/
def sha1K (q : Nat) : Word :=
  match q with
  | 0 => 0x5a827999
  | 1 => 0x6ed9eba1
  | 2 => 0x8f1bbcdc
  | _ => 0xca62c1d6

/-- RoundSHA1(j, (a, b, c, d, e), W) (R205). -/
def sha1Round (j : Nat) (r : Regs5) (w : Vector Word 80) : Regs5 :=
  ⟨rotl r.a 5 + sha1Fn (j / 20) r.b r.c r.d + r.e + sha1K (j / 20) + getAt w j 0, r.a, rotl r.b 30, r.c, r.d⟩

/-- The 80 rounds (R206). -/
@[irreducible] def sha1Rounds (r : Regs5) (w : Vector Word 80) : Regs5 :=
  (List.range Alg.sha1.rounds).foldl (fun r j => sha1Round j r w) r

/-- The SHA-1 block function on registers and block (R206). -/
def sha1Block (h : Vector Word 8) (x : Vector Word 80) : Vector Word 8 :=
  feedForward h h 0 (sha1Rounds (Regs5.load h) (sha1Schedule x)).list

/-- CompressSHA1() (R206). -/
def Engine.compressSha1 (e : Engine) : Engine :=
  (Engine.saveRegisters 5 { e with w := sha1Schedule e.w }).addBack
    (sha1Rounds (Regs5.load e.h) (sha1Schedule e.w)).list

end Sys2Proof.Machine
end

