-- ==== Sys2Proof/Machine/Sha256.lean ====
section
/-! DEFINITION. The SHA-256 compression core (46_sha256.md). -/

namespace Sys2Proof.Machine

/-- The working registers (a, ..., h) of SHA-256. -/
structure Regs8 where
  a : Word
  b : Word
  c : Word
  d : Word
  e : Word
  f : Word
  g : Word
  h : Word
  deriving DecidableEq, Repr

/-- (H[0], ..., H[7]). -/
def Regs8.load (h : Vector Word 8) : Regs8 :=
  ⟨getAt h 0 0, getAt h 1 0, getAt h 2 0, getAt h 3 0, getAt h 4 0, getAt h 5 0, getAt h 6 0, getAt h 7 0⟩

/-- The registers in order. -/
def Regs8.list (r : Regs8) : List Word := [r.a, r.b, r.c, r.d, r.e, r.f, r.g, r.h]

/-- IV_SHA256 (R221). -/
def sha256IV : List Word :=
  [0x6a09e667, 0xbb67ae85, 0x3c6ef372, 0xa54ff53a, 0x510e527f, 0x9b05688c, 0x1f83d9ab, 0x5be0cd19]

/-- K (R222), row by row as the rule's table has it. -/
def sha256KRows : List (List Word) :=
  [[0x428a2f98, 0x71374491, 0xb5c0fbcf, 0xe9b5dba5],
   [0x3956c25b, 0x59f111f1, 0x923f82a4, 0xab1c5ed5],
   [0xd807aa98, 0x12835b01, 0x243185be, 0x550c7dc3],
   [0x72be5d74, 0x80deb1fe, 0x9bdc06a7, 0xc19bf174],
   [0xe49b69c1, 0xefbe4786, 0x0fc19dc6, 0x240ca1cc],
   [0x2de92c6f, 0x4a7484aa, 0x5cb0a9dc, 0x76f988da],
   [0x983e5152, 0xa831c66d, 0xb00327c8, 0xbf597fc7],
   [0xc6e00bf3, 0xd5a79147, 0x06ca6351, 0x14292967],
   [0x27b70a85, 0x2e1b2138, 0x4d2c6dfc, 0x53380d13],
   [0x650a7354, 0x766a0abb, 0x81c2c92e, 0x92722c85],
   [0xa2bfe8a1, 0xa81a664b, 0xc24b8b70, 0xc76c51a3],
   [0xd192e819, 0xd6990624, 0xf40e3585, 0x106aa070],
   [0x19a4c116, 0x1e376c08, 0x2748774c, 0x34b0bcb5],
   [0x391c0cb3, 0x4ed8aa4a, 0x5b9cca4f, 0x682e6ff3],
   [0x748f82ee, 0x78a5636f, 0x84c87814, 0x8cc70208],
   [0x90befffa, 0xa4506ceb, 0xbef9a3f7, 0xc67178f2]]

/-- K[j] (R222). -/
def sha256K (j : Nat) : Word := rowsAt sha256KRows j

/-- sigma0(x) (R223). -/
def sigma0 (x : Word) : Word := rotr x 7 ^^^ rotr x 18 ^^^ shr x 3

/-- sigma1(x) (R223). -/
def sigma1 (x : Word) : Word := rotr x 17 ^^^ rotr x 19 ^^^ shr x 10

/-- One step of the message schedule (R223): W[i] from earlier words. -/
def sha256Expand (w : Vector Word 80) (i : Nat) : Vector Word 80 :=
  setAt w i (getAt w (i - 16) 0 + sigma0 (getAt w (i - 15) 0) + getAt w (i - 7) 0 + sigma1 (getAt w (i - 2) 0))

/-- ScheduleSHA256() (R223): W[16..63], in increasing order. -/
@[irreducible] def sha256Schedule (w : Vector Word 80) : Vector Word 80 := (List.range' 16 48).foldl sha256Expand w

/-- Sigma1(x) (R224). -/
def bigSigma1 (x : Word) : Word := rotr x 6 ^^^ rotr x 11 ^^^ rotr x 25

/-- Sigma0(x) (R224). -/
def bigSigma0 (x : Word) : Word := rotr x 2 ^^^ rotr x 13 ^^^ rotr x 22

/-- Ch(x,y,z) (R224). -/
def fnCh (x y z : Word) : Word := (x &&& y) ^^^ (~~~x &&& z)

/-- Maj(x,y,z) (R224). -/
def fnMaj (x y z : Word) : Word := (x &&& y) ^^^ (x &&& z) ^^^ (y &&& z)

/-- T1 of R225. -/
def sha256T1 (j : Nat) (r : Regs8) (w : Vector Word 80) : Word :=
  r.h + bigSigma1 r.e + fnCh r.e r.f r.g + sha256K j + getAt w j 0

/-- T2 of R225. -/
def sha256T2 (r : Regs8) : Word := bigSigma0 r.a + fnMaj r.a r.b r.c

/-- RoundSHA256(j, (a, ..., h), W) (R225). -/
def sha256Round (j : Nat) (r : Regs8) (w : Vector Word 80) : Regs8 :=
  ⟨sha256T1 j r w + sha256T2 r, r.a, r.b, r.c, r.d + sha256T1 j r w, r.e, r.f, r.g⟩

/-- The 64 rounds (R226). -/
@[irreducible] def sha256Rounds (r : Regs8) (w : Vector Word 80) : Regs8 :=
  (List.range Alg.sha256.rounds).foldl (fun r j => sha256Round j r w) r

/-- The SHA-256 block function on registers and block (R226). -/
def sha256Block (h : Vector Word 8) (x : Vector Word 80) : Vector Word 8 :=
  feedForward h h 0 (sha256Rounds (Regs8.load h) (sha256Schedule x)).list

/-- CompressSHA256() (R226). -/
def Engine.compressSha256 (e : Engine) : Engine :=
  (Engine.saveRegisters 8 { e with w := sha256Schedule e.w }).addBack
    (sha256Rounds (Regs8.load e.h) (sha256Schedule e.w)).list

end Sys2Proof.Machine
end

