-- ==== Sys2Proof/Machine/Packer.lean ====
section
/-! DEFINITION. The Word Packer (42_word_packer.md) and the loading of the IV (10_state.md rule R47). -/

namespace Sys2Proof.Machine

/-- IV_ALG (R47). -/
def Alg.iv : Alg → List Word
  | .md4 => md4IV
  | .md5 => md5IV
  | .sha1 => sha1IV
  | .sha256 => sha256IV

/-- The register file with `rs` in its first registers and 0 in the rest. -/
def hashState (rs : List Word) : Vector Word 8 :=
  (List.range 8).foldl (fun v i => setAt v i (rs.getD i 0)) (Vector.replicate 8 0)

/-- LoadIV() (R47). -/
def Engine.loadIV (e : Engine) : Engine := { e with h := hashState e.alg.iv }

/-- Compress() (R147): the core ALG selects. -/
def Engine.compress (e : Engine) : Engine :=
  match e.alg with
  | .md4 => e.compressMd4
  | .md5 => e.compressMd5
  | .sha1 => e.compressSha1
  | .sha256 => e.compressSha256

/-- The lowest bit of byte lane `k` of a word: lane `k` is bits 8k+7 : 8k for little-endian packing and bits
31-8k : 24-8k for big-endian packing (R141). -/
def laneShift (little : Bool) (k : Nat) : Nat := if little then 8 * k else 24 - 8 * k

/-- The word with byte `b` in lane `k` and its other 24 bits kept (R141). -/
def setLane (little : Bool) (k : Nat) (b : Byte) (x : Word) : Word :=
  (x &&& ~~~((0xff : Word) <<< laneShift little k)) ||| (b.setWidth 32 <<< laneShift little k)

/-- p[5:2], the word a byte offset falls in (R141). -/
def wordIndex (p : BitVec 6) : Nat := (p.extractLsb' 2 4).toNat

/-- p[1:0], the byte lane of an offset (R141). -/
def laneIndex (p : BitVec 6) : Nat := (p.extractLsb' 0 2).toNat

/-- PutByte(p, b) (R141). -/
def Engine.putByte (p : BitVec 6) (b : Byte) (e : Engine) : Engine :=
  { e with w := setAt e.w (wordIndex p) (setLane e.alg.little (laneIndex p) b (e.wAt (wordIndex p))) }

/-- POS <- (POS + 1) mod 64 (R142). -/
def Engine.advance (e : Engine) : Engine := { e with pos := e.pos + 1 }

/-- `if POS == 0: Compress()` (R142). -/
def Engine.compressIfFull (e : Engine) : Engine := if e.pos = 0 then e.compress else e

/-- Absorb(b) (R142). -/
def Engine.absorb (b : Byte) (e : Engine) : Engine := (e.putByte e.pos b).advance.compressIfFull

/-- MLEN <- MLEN +64 8 (R143). -/
def Engine.countByte (e : Engine) : Engine := { e with mlen := e.mlen + 8 }

/-- AbsorbMsg(b) (R143). -/
def Engine.absorbMsg (b : Byte) (e : Engine) : Engine := (e.absorb b).countByte

/-- AbsorbMsg of each byte in order. -/
def Engine.absorbAll (bs : List Byte) (e : Engine) : Engine := bs.foldl (fun e b => e.absorbMsg b) e

/-- `while POS != 56: Absorb(0x00)` (R146), bounded: it ends after at most 63 rounds. -/
def Engine.padZeros : Nat → Engine → Engine
  | 0, e => e
  | n + 1, e => if e.pos = 56 then e else Engine.padZeros n (e.absorb 0x00)

/-- The two length words of block words 14 and 15 (R145): low word first for little-endian, high word first for
big-endian. -/
def lengthWords (little : Bool) (n : BitVec 64) : Word × Word :=
  if little then (n.extractLsb' 0 32, n.extractLsb' 32 32) else (n.extractLsb' 32 32, n.extractLsb' 0 32)

/-- W[14] and W[15] <- the length, POS <- 0 (R146). -/
def Engine.placeLength (e : Engine) : Engine :=
  { e with
    w := setAt (setAt e.w 14 (lengthWords e.alg.little e.mlen).1) 15 (lengthWords e.alg.little e.mlen).2
    pos := 0 }

/-- Finish() (R146). -/
def Engine.finish (e : Engine) : Engine :=
  (Engine.padZeros 63 (e.absorb 0x80)).placeLength.compress

end Sys2Proof.Machine
end

