-- ==== Sys2Proof/Machine/Digest.lean ====
section
/-! DEFINITION. The digest as words and as bytes, and the reads of DOUT (40_commands.md rules R111, R116, R117). -/

namespace Sys2Proof.Machine

/-- The rendered word of a register: the final swap of MD4 and MD5 (R116). -/
def renderWord (a : Alg) (x : Word) : Word := if a.little then bswap32 x else x

/-- OutWord(i) (R116). -/
def Engine.outWord (e : Engine) (i : Nat) : Word := renderWord e.alg (e.hAt i)

/-- The digest of a register file as bytes (R117). -/
def digestBytesOf (a : Alg) (h : Vector Word 8) : List Byte :=
  (List.range a.arity).flatMap (fun i => bytesOf (renderWord a (getAt h i 0)))

/-- DigestBytes() (R117). -/
def Engine.digestBytes (e : Engine) : List Byte := digestBytesOf e.alg e.h

/-- ReadDOUT(i) (R111). -/
def Engine.dout (e : Engine) (i : Nat) : Word :=
  if e.state = .done ∧ i < e.alg.arity then e.outWord i else 0

end Sys2Proof.Machine
end

