-- ==== Sys2Proof/Machine/Flags.lean ====
section
/-! DEFINITION. The status flags and the STATUS word (10_state.md rules R31 to R35, R40). HF-CORE has no arithmetic condition
codes (R32). -/

namespace Sys2Proof.Machine

/-- The 3-bit encoding of STATE (R31). -/
def Ctl.code : Ctl → BitVec 3
  | .idle => 0
  | .key => 1
  | .msg => 2
  | .done => 3
  | .error => 4

/-- The 4-bit encoding of ERR (60_exceptions.md rule R261). -/
def Err.code : Err → BitVec 4
  | .none => 0
  | .key => 1
  | .alg => 2
  | .size => 3
  | .cmd => 4
  | .seq => 5

/-- The 2-bit encoding of ALG (R35). -/
def Alg.code : Alg → BitVec 2
  | .md4 => 0
  | .md5 => 1
  | .sha1 => 2
  | .sha256 => 3

/-- The word a read of STATUS returns (R40): `zext_32(STATE) | (HMAC << 3) | (ALG << 4) | (ERR << 8)`. -/
def Engine.status (e : Engine) : Word :=
  e.state.code.setWidth 32 ||| ((BitVec.ofBool e.hmac).setWidth 32 <<< 3) ||| (e.alg.code.setWidth 32 <<< 4) |||
    (e.err.code.setWidth 32 <<< 8)

end Sys2Proof.Machine
end

