-- ==== Sys2Proof/Machine/Hmac.lean ====
section
/-! DEFINITION. The HMAC controller (47_hmac.md): KINIT, KBYTE, KDONE and the outer hash of FINAL. -/

namespace Sys2Proof.Machine

/-- The start of a hash inside a call: `LoadIV() ; MLEN <- 0 ; POS <- 0` (R243, R244). -/
def Engine.restartHash (e : Engine) : Engine := Engine.loadIV { e with mlen := 0, pos := 0 }

/-- The 64 bytes of a pad block: each key byte xor the pad byte (R243, R244). -/
def padBlock (x : Byte) (kb : Vector Byte 64) : List Byte := kb.toList.map (fun k => k ^^^ x)

/-- Opening a call, common to INIT and KINIT (R103, R241). -/
def Engine.openCall (hmac : Bool) (a : Alg) (c : Ctl) (e : Engine) : Engine :=
  { Engine.loadIV { e.resetCallState with hmac := hmac, alg := a } with state := c }

/-- `if KCNT < 64: KB[KCNT] <- b` (R242). -/
def Engine.keepKeyByte (b : Byte) (e : Engine) : Engine :=
  if e.kcnt < 64 then { e with kb := setAt e.kb e.kcnt.toNat b } else e

/-- `if KCNT < 65: KCNT <- KCNT + 1` (R242). -/
def Engine.countKeyByte (e : Engine) : Engine :=
  if e.kcnt < 65 then { e with kcnt := e.kcnt + 1 } else e

/-- ExecKBYTE(b) (R242). -/
def Engine.takeKeyByte (b : Byte) (e : Engine) : Engine := ((e.keepKeyByte b).absorbMsg b).countKeyByte

/-- KB <- the digest bytes, then zeros (R243). -/
def Engine.keyFromDigest (e : Engine) : Engine :=
  { e with kb := storeFrom (Vector.replicate 64 0) 0 e.digestBytes }

/-- The key normalised (R243): a key longer than a block is replaced by its digest. -/
def Engine.normaliseKey (e : Engine) : Engine := if e.kcnt = 65 then e.finish.keyFromDigest else e

/-- The inner hash started: the ipad block absorbed from the IV (R243). -/
def Engine.startInner (e : Engine) : Engine := e.restartHash.absorbAll (padBlock Config.ipadByte e.kb)

/-- ExecKDONE() after its checks (R243). -/
def Engine.endKey (e : Engine) : Engine := { e.normaliseKey.startInner with state := .msg }

/-- ID <- the inner digest, then zeros (R244). -/
def Engine.keepInner (e : Engine) : Engine :=
  { e with idb := storeFrom (Vector.replicate 32 0) 0 e.digestBytes }

/-- The outer hash's message absorbed: the opad block, then the inner digest out of ID (R244). -/
def Engine.absorbOuter (e : Engine) : Engine :=
  (e.restartHash.absorbAll (padBlock Config.opadByte e.kb)).absorbAll (e.idb.toList.take e.alg.digestBytes)

/-- HmacOuter() (R244). -/
def Engine.hmacOuter (e : Engine) : Engine := e.keepInner.absorbOuter.finish

/-- KINIT alg (R241). -/
def execKinit (a : Byte) (s : State) : Result :=
  unlessError s (withAlg a s (fun alg => complete s (Engine.openCall true alg .key)))

/-- KBYTE b (R242). -/
def execKbyte (b : Byte) (s : State) : Result :=
  unlessError s (requireState .key s (complete s (Engine.takeKeyByte b)))

/-- KDONE (R243): ERR_KEY when no key byte was received (R262). -/
def execKdone (s : State) : Result :=
  unlessError s (requireState .key s
    (if s.eng.kcnt = 0 then raise .key s else complete s Engine.endKey))

end Sys2Proof.Machine
end

