-- ==== Sys2Proof/Machine/Plain.lean ====
section
/-! DEFINITION. The plain-digest commands NOP, INIT, MBYTE, FINAL and CLEAR (40_commands.md). -/

namespace Sys2Proof.Machine

/-- ExecFINAL() (R106): in an HMAC call the outer hash follows (R244). -/
def Engine.endMessage (e : Engine) : Engine :=
  { (if e.hmac then e.finish.hmacOuter else e.finish) with state := .done }

/-- NOP (R102): nothing changes; in ERROR it is ignored, with the same effect. -/
def execNop (s : State) : Result := unlessError s (.next s)

/-- INIT alg (R103). -/
def execInit (a : Byte) (s : State) : Result :=
  unlessError s (withAlg a s (fun alg => complete s (Engine.openCall false alg .msg)))

/-- MBYTE b (R105). -/
def execMbyte (b : Byte) (s : State) : Result :=
  unlessError s (requireState .msg s (complete s (Engine.absorbMsg b)))

/-- FINAL (R106). -/
def execFinal (s : State) : Result :=
  unlessError s (requireState .msg s (complete s Engine.endMessage))

/-- CLEAR (R107): the one command with an effect in ERROR (R267). -/
def execClear (s : State) : Result := complete s Engine.clear

end Sys2Proof.Machine
end

