-- ==== Sys2Proof/Machine/Dispatch.lean ====
section
/-! DEFINITION. One arm for each command (40_commands.md rule R100). -/

namespace Sys2Proof.Machine

def exec (i : Instr) (s : State) : Host.Outcome State Fault Refusal :=
  match i with
  | .nop => Sys2Proof.Machine.execNop s
  | .init a => Sys2Proof.Machine.execInit a s
  | .kinit a => Sys2Proof.Machine.execKinit a s
  | .kbyte b => Sys2Proof.Machine.execKbyte b s
  | .kdone => Sys2Proof.Machine.execKdone s
  | .mbyte b => Sys2Proof.Machine.execMbyte b s
  | .final => Sys2Proof.Machine.execFinal s
  | .clear => Sys2Proof.Machine.execClear s

end Sys2Proof.Machine
end

