-- ==== Sys2Proof/Machine/Bus.lean ====
section
/-! DEFINITION. The register space (20_memory.md) and the three things a host does: read, write, reset (70_reset_and_hazards.md
rule R300). -/

namespace Sys2Proof.Machine

/-- The accesses that exist (R62): 32 bits wide, at a multiple of 4 within 00 to 3C. -/
def accessExists (addr n : Nat) : Bool := decide (n = 4) && decide (addr % 4 = 0) && decide (addr < 64)

/-- The register map for reads (R61): CMD reads 0 (R63), STATUS (R40), reserved offsets 0 (R64), DOUTi (R111). -/
def Engine.readRegister (addr : Nat) (e : Engine) : Word :=
  if addr = 0x04 then e.status
  else if 0x20 ≤ addr then e.dout ((addr - 0x20) / 4)
  else 0

/-- A command word written to CMD: Exec(w) of R100. -/
def command (w : Word) (s : State) : Result :=
  match decode w with
  | .instr i => exec i s
  | .illegal _ => takeIllegal s

/-- MemRead(addr, n) (R60): the value goes to the host, the engine does not change (R65). -/
def busRead (addr n : Nat) (s : State) : Result :=
  if accessExists addr n then .next { s with replies := s.replies ++ [s.eng.readRegister addr] }
  else .refused .noSuchAccess

/-- MemWrite(addr, n, v) (R60): CMD executes the word (R39), any other write is ignored (R63, R64). -/
def busWrite (addr n : Nat) (v : Word) (s : State) : Result :=
  if accessExists addr n then (if addr = 0x00 then command v s else .next s)
  else .refused .noSuchAccess

/-- One access of the host, performed completely (R69). -/
def perform (a : Access) (s : State) : Result :=
  match a with
  | .read addr n => busRead addr n s
  | .write addr n v => busWrite addr n v s
  | .reset => complete s (fun _ => Engine.reset)

/-- The host's accesses in order, each complete before the next (R69); it stops where one is refused. -/
def performAll : List Access → State → Result
  | [], s => .next s
  | a :: as, s =>
    match perform a s with
    | .next t => performAll as t
    | .fault r => .fault r
    | .refused r => .refused r

/-- The access that gives the engine a command: `MemWrite(0x00, 4, Encode(c))` (R134). -/
def commandAccess (i : Instr) : Access := .write 0x00 4 (encode i)

/-- The host's next access performed: the machine's step. With none left it is stuck (R14, R118). -/
def stepHost (s : State) : Result :=
  match s.host with
  | [] => .fault .noHostAccess
  | a :: rest => perform a { s with host := rest }

/-- The state whose host writes the word `w` to CMD next, before all it had still to issue. -/
def State.withCommand (s : State) (w : Word) : State := { s with host := .write 0x00 4 w :: s.host }

end Sys2Proof.Machine
end

