-- ==== Sys2Proof/Machine/Step.lean ====
section
/-! DEFINITION. One step of the machine: the host's next access. HF-CORE fetches no commands (10_state.md rule R29); log entry 1
says how a program comes to run. -/

namespace Sys2Proof.Machine

/-- One step: the next access of the host, performed completely (R14, R69). -/
def step (s : State) : Host.Outcome State Fault Refusal := stepHost s

/-- The state whose very next step executes the command word given by the low `nbits` bits of `w`. -/
def State.withFetchWord (s : State) (nbits w : Nat) : State := s.withCommand (BitVec.ofNat 32 (w % 2 ^ nbits))

end Sys2Proof.Machine
end

