-- ==== Sys2Proof/Machine/Message.lean ====
section
/-! DEFINITION. The whole-message functions of the source: `Pack_a` (42_word_packer.md rule R148), `Digest_a` (40_commands.md rule
R120) and `Hmac_a` (47_hmac.md rule R245), as pure functions on byte sequences. -/

namespace Sys2Proof.Machine

/-- Four bytes `b0 b1 b2 b3`, in message order, packed into a word (20_memory.md rule R67). -/
def packWord (little : Bool) (b0 b1 b2 b3 : Byte) : Word :=
  if little then wordOf b3 b2 b1 b0 else wordOf b0 b1 b2 b3

/-- Consecutive groups of four bytes as words. -/
def packWords (little : Bool) : List Byte → List Word
  | b0 :: b1 :: b2 :: b3 :: rest => packWord little b0 b1 b2 b3 :: packWords little rest
  | _ => []

/-- The number of 00 bytes of padding: `z = (55 - L) mod 64` (R144). -/
def padCount (len : Nat) : Nat := (119 - len % 64) % 64

/-- The message with its 80 byte and its zeros (R148): a length congruent to 56 modulo 64. -/
def padMessage (m : List Byte) : List Byte := m ++ [0x80] ++ List.replicate (padCount m.length) 0

/-- The message length in bits, modulo 2^64 (R145). -/
def messageBits (m : List Byte) : BitVec 64 := BitVec.ofNat 64 (8 * m.length)

/-- The first `16 n` words cut into consecutive groups of 16. -/
def cutBlocks : Nat → List Word → List (List Word)
  | 0, _ => []
  | n + 1, ws => ws.take 16 :: cutBlocks n (ws.drop 16)

/-- All the words of the padded message, the two length words last (R148). -/
def messageWords (a : Alg) (m : List Byte) : List Word :=
  packWords a.little (padMessage m) ++
    [(lengthWords a.little (messageBits m)).1, (lengthWords a.little (messageBits m)).2]

/-- Pack_a(m) (R148). -/
def packMessage (a : Alg) (m : List Byte) : List (List Word) :=
  cutBlocks ((messageWords a m).length / 16) (messageWords a m)

/-- A block of 16 words as block buffer, the rest of W zero. -/
def blockBuffer (x : List Word) : Vector Word 80 :=
  (List.range 16).foldl (fun v i => setAt v i (x.getD i 0)) (Vector.replicate 80 0)

/-- The block function of the selected core on registers and block buffer (R147). -/
def blockFn (a : Alg) (h : Vector Word 8) (w : Vector Word 80) : Vector Word 8 :=
  match a with
  | .md4 => md4Block h w
  | .md5 => md5Block h w
  | .sha1 => sha1Block h w
  | .sha256 => sha256Block h w

/-- Compress_a folded over blocks (R120). -/
def foldBlocks (a : Alg) (h : Vector Word 8) (xs : List (List Word)) : Vector Word 8 :=
  xs.foldl (fun h x => blockFn a h (blockBuffer x)) h

/-- Digest_a(m) as bytes (R120). -/
def digest (a : Alg) (m : List Byte) : List Byte :=
  digestBytesOf a (foldBlocks a (hashState a.iv) (packMessage a m))

/-- The key at block length (R245): hashed first when it is longer than 64 bytes, then zeros on the right. -/
def blockKey (a : Alg) (k : List Byte) : List Byte :=
  if Config.blockBytes < k.length then digest a k ++ List.replicate (Config.blockBytes - (digest a k).length) 0
  else k ++ List.replicate (Config.blockBytes - k.length) 0

/-- A byte sequence with every byte xored with `x` (R245). -/
def xorAll (x : Byte) (k : List Byte) : List Byte := k.map (fun b => b ^^^ x)

/-- Hmac_a(k, m) for a key of at least one byte (R245); it has no value for the empty key. -/
def hmac (a : Alg) (k m : List Byte) : Option (List Byte) :=
  if k = [] then none
  else some (digest a (xorAll Config.opadByte (blockKey a k) ++
    digest a (xorAll Config.ipadByte (blockKey a k) ++ m)))

end Sys2Proof.Machine
end

