-- ==== Sys2Proof/Machine/Driver.lean ====
section
/-! DEFINITION. The host driver (41_preprocessor_host.md): software beside the machine, through which the source states its
operations. Text is a list of code points. -/

namespace Sys2Proof.Machine

/-- A string, as its code points. -/
abbrev Text := List Nat

/-- What the driver returns instead of a digest (60_exceptions.md rule R269). -/
inductive DriverError where
  /-- InputFormatError (R132). -/
  | inputFormat
  /-- KeyError, ERR 1. -/
  | key
  /-- UnsupportedAlgorithmError, ERR 2 or a failed name lookup. -/
  | unsupportedAlgorithm
  /-- SizeError, ERR 3; cannot happen. -/
  | size
  /-- An internal driver fault, ERR 4 or 5, or a STATUS no correct sequence leaves. -/
  | internal
  /-- Text that is no sequence of Unicode scalar values: `toBytes` has no result (91_not_in_source.md N14). -/
  | notText
  deriving DecidableEq, Repr

/-- The UTF-8 bytes of a code point (R130, 93_implementation_defined.md G9); none for a surrogate or a number above 10FFFF. -/
def utf8Bytes (c : Nat) : Option (List Byte) :=
  if c < 0x80 then some [BitVec.ofNat 8 c]
  else if c < 0x800 then some [BitVec.ofNat 8 (0xc0 + c / 64), BitVec.ofNat 8 (0x80 + c % 64)]
  else if 0xd800 ≤ c ∧ c < 0xe000 then none
  else if c < 0x10000 then
    some [BitVec.ofNat 8 (0xe0 + c / 4096), BitVec.ofNat 8 (0x80 + c / 64 % 64), BitVec.ofNat 8 (0x80 + c % 64)]
  else if c < 0x110000 then
    some [BitVec.ofNat 8 (0xf0 + c / 262144), BitVec.ofNat 8 (0x80 + c / 4096 % 64),
      BitVec.ofNat 8 (0x80 + c / 64 % 64), BitVec.ofNat 8 (0x80 + c % 64)]
  else none

/-- toBytes(input, isHex = false) (R130). -/
def textBytes : Text → Except DriverError (List Byte)
  | [] => .ok []
  | c :: cs =>
    match utf8Bytes c, textBytes cs with
    | some bs, .ok rest => .ok (bs ++ rest)
    | _, _ => .error .notText

/-- The value of a hex digit, both cases (R131, R138). -/
def hexValue (c : Nat) : Option Nat :=
  if 0x30 ≤ c ∧ c ≤ 0x39 then some (c - 0x30)
  else if 0x61 ≤ c ∧ c ≤ 0x66 then some (c - 0x61 + 10)
  else if 0x41 ≤ c ∧ c ≤ 0x46 then some (c - 0x41 + 10)
  else none

/-- toBytes(input, isHex = true) (R131): InputFormatError on any non-hex character or an odd digit count (R132). -/
def hexBytes : Text → Except DriverError (List Byte)
  | [] => .ok []
  | [_] => .error .inputFormat
  | c :: d :: rest =>
    match hexValue c, hexValue d, hexBytes rest with
    | some x, some y, .ok bs => .ok (BitVec.ofNat 8 (16 * x + y) :: bs)
    | _, _, _ => .error .inputFormat

/-- toBytes(input, isHex) (R130, R131). -/
def toBytes (input : Text) (isHex : Bool) : Except DriverError (List Byte) :=
  if isHex then hexBytes input else textBytes input

/-- A lower-case hex digit (R133). -/
def hexDigit (n : Nat) : Nat := if n < 10 then 0x30 + n else 0x61 + (n - 10)

/-- A byte as two lower-case hex digits. -/
def hexOfByte (b : Byte) : Text := [hexDigit (b.toNat / 16), hexDigit (b.toNat % 16)]

/-- A word as eight lower-case hex digits, most significant first, leading zeros kept (R133). -/
def hexOfWord (x : Word) : Text := (bytesOf x).flatMap hexOfByte

/-- render() of the DOUT words read (R133). -/
def render (ws : List Word) : Text := ws.flatMap hexOfWord

/-- AlgCode(name) (R136): exact comparison with "MD4", "MD5", "SHA-1" and "SHA-256". -/
def algCode (name : Text) : Except DriverError Alg :=
  if name = [0x4d, 0x44, 0x34] then .ok .md4
  else if name = [0x4d, 0x44, 0x35] then .ok .md5
  else if name = [0x53, 0x48, 0x41, 0x2d, 0x31] then .ok .sha1
  else if name = [0x53, 0x48, 0x41, 0x2d, 0x32, 0x35, 0x36] then .ok .sha256
  else .error .unsupportedAlgorithm

/-- The operand that opens a call of an algorithm (30_encoding.md rule R85). -/
def Alg.operand (a : Alg) : Byte := a.code.setWidth 8

/-- The error the driver returns for a STATUS read in ERROR (R269). -/
def errorOfStatus (v : Word) : DriverError :=
  if v.extractLsb' 8 4 = 1 then .key
  else if v.extractLsb' 8 4 = 2 then .unsupportedAlgorithm
  else if v.extractLsb' 8 4 = 3 then .size
  else .internal

/-- The accesses of a plain call (R134). -/
def digestAccesses (a : Alg) (m : List Byte) : List Access :=
  commandAccess (.init a.operand) :: m.map (fun b => commandAccess (.mbyte b)) ++ [commandAccess .final]

/-- The accesses of an HMAC call (R135). -/
def hmacAccesses (a : Alg) (k m : List Byte) : List Access :=
  commandAccess (.kinit a.operand) :: k.map (fun b => commandAccess (.kbyte b)) ++ [commandAccess .kdone] ++
    m.map (fun b => commandAccess (.mbyte b)) ++ [commandAccess .final]

/-- The reads of DOUT0 to DOUT(n-1) (30_encoding.md rule R90). -/
def doutReads (n : Nat) : List Access := (List.range n).map (fun i => .read (0x20 + 4 * i) 4)

/-- A result of the driver and the machine it leaves. -/
abbrev DriverResult := Except DriverError Text × State

/-- The digest read and rendered in DONE (R133). -/
def readDigest (a : Alg) (s : State) : DriverResult :=
  match performAll (doutReads a.arity) s with
  | .next t => (.ok (render (t.replies.drop s.replies.length)), t)
  | _ => (.error .internal, s)

/-- An error returned: it is mapped and CLEAR is issued (R137). -/
def reportError (v : Word) (s : State) : DriverResult :=
  match perform (commandAccess .clear) s with
  | .next t => (.error (errorOfStatus v), t)
  | _ => (.error .internal, s)

/-- The STATE field of a STATUS word (R40). -/
def stateOfStatus (v : Word) : BitVec 3 := v.extractLsb' 0 3

/-- The end of a call (R137): STATUS is read; in ERROR the error is reported, in DONE the digest is rendered. Only the STATE field is
looked at: R295 has the driver also compare ALG and HMAC with the call it made, for its own sanity, and no rule says what a mismatch
returns. DESIGN CHOICE (log entry 17), safe: after the accesses of R134 and R135 the two fields are those of the call. -/
def endCall (a : Alg) (s : State) : DriverResult :=
  match perform (.read 0x04 4) s with
  | .next t =>
    if stateOfStatus (t.replies.getLastD 0) = Ctl.code .error then reportError (t.replies.getLastD 0) t
    else if stateOfStatus (t.replies.getLastD 0) = Ctl.code .done then readDigest a t
    else (.error .internal, t)
  | _ => (.error .internal, s)

/-- Before a call the driver brings an engine in ERROR to a known state (R134): it reads STATUS and issues CLEAR where that shows
ERROR, the second of the two ways of 70_reset_and_hazards.md rule R292. DESIGN CHOICE (log entry 14), safe. -/
def clearIfError (s : State) : Result :=
  match perform (.read 0x04 4) s with
  | .next t =>
    if stateOfStatus (t.replies.getLastD 0) = Ctl.code .error then perform (commandAccess .clear) t else .next t
  | .fault r => .fault r
  | .refused r => .refused r

/-- A call: the engine out of ERROR, then the call's accesses, then its end. -/
def runCall (a : Alg) (as : List Access) (s : State) : DriverResult :=
  match clearIfError s with
  | .next t =>
    match performAll as t with
    | .next u => endCall a u
    | _ => (.error .internal, s)
  | _ => (.error .internal, s)

/-- digest_a(input, isHex) of R134. -/
def driverDigest (a : Alg) (input : Text) (isHex : Bool) (s : State) : DriverResult :=
  match toBytes input isHex with
  | .ok m => runCall a (digestAccesses a m) s
  | .error r => (.error r, s)

/-- One of the checks before the first command of `hmac`: the error it fails with, if it does (R135, R139). -/
def hostCheck (c : HostCheck) (input name key : Text) (isHexInput isHexKey : Bool) : Option DriverError :=
  match c with
  | .algorithm => match algCode name with | .ok _ => none | .error r => some r
  | .keyFormat => match toBytes key isHexKey with | .ok _ => none | .error r => some r
  | .keyPresent => if key = [] then some .key else none
  | .messageFormat => match toBytes input isHexInput with | .ok _ => none | .error r => some r

/-- The first check that fails, in the order `HOST_ERR_ORDER` gives (R139). -/
def firstFailure (order : HostErrOrder) (input name key : Text) (isHexInput isHexKey : Bool) : Option DriverError :=
  order.findSome? (fun c => hostCheck c input name key isHexInput isHexKey)

/-- hmac(input, algorithmName, key, isHexInput, isHexKey) of R135. An absent key (`none`) is the empty key. -/
def driverHmac (order : HostErrOrder) (input name : Text) (key : Option Text) (isHexInput isHexKey : Bool)
    (s : State) : DriverResult :=
  match firstFailure order input name (key.getD []) isHexInput isHexKey with
  | some r => (.error r, s)
  | none =>
    match algCode name, toBytes (key.getD []) isHexKey, toBytes input isHexInput with
    | .ok a, .ok k, .ok m => runCall a (hmacAccesses a k m) s
    | _, _, _ => (.error .internal, s)

end Sys2Proof.Machine
end

