-- ==== Sys2Proof/Machine/Asm.lean ====
section
/-! DEFINITION. The assembler lines and pseudo-instructions in which command sequences are written down (30_encoding.md rules R89,
R90), their expansion into accesses, and the reading of a line's text. -/

namespace Sys2Proof.Machine

/-- What stands after MSG and KEY: a text or a string of hex digits (R90). -/
inductive Data where
  | text (t : Text)
  | hex (t : Text)
  deriving DecidableEq, Repr

/-- bytes(x) of R90: the driver's `toBytes`. -/
def Data.bytes : Data → Except DriverError (List Byte)
  | .text t => toBytes t false
  | .hex t => toBytes t true

/-- A line (R89) or a pseudo-instruction (R90), its numbers as written. -/
inductive Line where
  | nop
  | init (a : Nat)
  | kinit (a : Nat)
  | kbyte (b : Nat)
  | kdone
  | mbyte (b : Nat)
  | final
  | clear
  /-- `.word`: any 32-bit word as it stands. -/
  | rawWord (w : Nat)
  /-- `RD STATUS`. -/
  | rdStatus
  /-- `RD DOUTi`. -/
  | rdDout (i : Nat)
  | msg (x : Data)
  | key (x : Data)
  | digest (a : Nat) (x : Data)
  | hmac (a : Nat) (k x : Data)
  /-- `RD DIGEST`. -/
  | rdDigest
  deriving DecidableEq, Repr

/-- A line's numbers are in range (R89): operands 0 to 255, a raw word below 2^32, DOUT0 to DOUT7. -/
def Line.wellFormed : Line → Bool
  | .nop => true
  | .init a => decide (a < 256)
  | .kinit a => decide (a < 256)
  | .kbyte b => decide (b < 256)
  | .kdone => true
  | .mbyte b => decide (b < 256)
  | .final => true
  | .clear => true
  | .rawWord w => decide (w < 2 ^ 32)
  | .rdStatus => true
  | .rdDout i => decide (i < 8)
  | .msg _ => true
  | .key _ => true
  | .digest a _ => decide (a < 256)
  | .hmac a _ _ => decide (a < 256)
  | .rdDigest => true

/-- `one` for each byte of the data, in order (R90); none where the data has no bytes. -/
def dataAccesses (one : Byte → Instr) (x : Data) : Option (List Access) :=
  match x.bytes with
  | .ok bs => some (bs.map (fun b => commandAccess (one b)))
  | .error _ => none

/-- The accesses a line in range stands for, `alg` being the current ALG (R89, R90). -/
def Line.expand (alg : Alg) : Line → Option (List Access)
  | .nop => some [commandAccess .nop]
  | .init a => some [commandAccess (.init (BitVec.ofNat 8 a))]
  | .kinit a => some [commandAccess (.kinit (BitVec.ofNat 8 a))]
  | .kbyte b => some [commandAccess (.kbyte (BitVec.ofNat 8 b))]
  | .kdone => some [commandAccess .kdone]
  | .mbyte b => some [commandAccess (.mbyte (BitVec.ofNat 8 b))]
  | .final => some [commandAccess .final]
  | .clear => some [commandAccess .clear]
  | .rawWord w => some [.write 0x00 4 (BitVec.ofNat 32 w)]
  | .rdStatus => some [.read 0x04 4]
  | .rdDout i => some [.read (0x20 + 4 * i) 4]
  | .msg x => dataAccesses .mbyte x
  | .key x => dataAccesses .kbyte x
  | .digest a x =>
    (dataAccesses .mbyte x).map (fun ms =>
      commandAccess (.init (BitVec.ofNat 8 a)) :: ms ++ [commandAccess .final])
  | .hmac a k x =>
    match dataAccesses .kbyte k, dataAccesses .mbyte x with
    | some ks, some ms =>
      some (commandAccess (.kinit (BitVec.ofNat 8 a)) :: ks ++ [commandAccess .kdone] ++ ms ++ [commandAccess .final])
    | _, _ => none
  | .rdDigest => some (doutReads alg.arity)

/-- A line assembled: none where a number is out of range. -/
def Line.assemble (alg : Alg) (l : Line) : Option (List Access) := if l.wellFormed then l.expand alg else none

/-- A script run line by line from a state; none where a line does not assemble. -/
def runScript : List Line → State → Option Result
  | [], s => some (.next s)
  | l :: ls, s =>
    match l.assemble s.eng.alg with
    | none => none
    | some as =>
      match performAll as s with
      | .next t => runScript ls t
      | .fault r => some (.fault r)
      | .refused r => some (.refused r)

/-- The code points of characters. -/
def codePoints (cs : List Char) : Text := cs.map Char.toNat

/-- A token of a line. -/
inductive Token where
  | word (t : Text)
  | quoted (t : Text)
  | comma
  deriving DecidableEq, Repr

/-- The word read so far as a token, if there is one. -/
def flushWord (cur : Text) (out : List Token) : List Token := if cur = [] then out else out ++ [.word cur]

/-- The tokens of a line: words apart at spaces and tabs, a comma on its own, a text in double quotes, and nothing after
a `;` outside quotes (R89, R90). None for a quote left open. -/
def lexLine : Text → Option Text → Text → List Token → Option (List Token)
  | [], none, cur, out => some (flushWord cur out)
  | [], some _, _, _ => none
  | c :: cs, some q, cur, out =>
    if c = 0x22 then lexLine cs none cur (out ++ [.quoted q]) else lexLine cs (some (q ++ [c])) cur out
  | c :: cs, none, cur, out =>
    if c = 0x3b then some (flushWord cur out)
    else if c = 0x20 ∨ c = 0x09 then lexLine cs none [] (flushWord cur out)
    else if c = 0x2c then lexLine cs none [] (flushWord cur out ++ [.comma])
    else if c = 0x22 then lexLine cs (some []) [] (flushWord cur out)
    else lexLine cs none (cur ++ [c]) out

/-- Digits of base `base` read as a number. -/
def digitsValue (base : Nat) : Nat → Text → Option Nat
  | acc, [] => some acc
  | acc, c :: cs =>
    match hexValue c with
    | some d => if d < base then digitsValue base (base * acc + d) cs else none
    | none => none

/-- A number, decimal or 0x-prefixed hex: R89 writes a `<byte>` so. The number of an `<alg>` and the index of a DOUT are read the same
way: DESIGN CHOICE (log entry 16). -/
def readNumber : Text → Option Nat
  | [] => none
  | 0x30 :: 0x78 :: d :: ds => digitsValue 16 0 (d :: ds)
  | c :: cs => digitsValue 10 0 (c :: cs)

/-- The operand of `.word` (R89): eight hex digits stand for a word as 95_test_vectors.md writes words, anything else is a number as
above. R89 does not say how it is written: DESIGN CHOICE (log entry 16), unsafe. -/
def readRawWord (t : Text) : Option Nat :=
  match if t.length = 8 then digitsValue 16 0 t else none with
  | some n => some n
  | none => readNumber t

/-- The operand `<alg>` (R89). -/
def readAlg (t : Text) : Option Nat :=
  if t = codePoints ['M', 'D', '4'] then some 0
  else if t = codePoints ['M', 'D', '5'] then some 1
  else if t = codePoints ['S', 'H', 'A', '1'] then some 2
  else if t = codePoints ['S', 'H', 'A', '2', '5', '6'] then some 3
  else readNumber t

/-- The operand `"text"` or `hex:digits` (R90). -/
def readData : Token → Option Data
  | .quoted t => some (.text t)
  | .word t =>
    if t.take 4 = codePoints ['h', 'e', 'x', ':'] then some (.hex (t.drop 4)) else none
  | .comma => none

/-- A line with a mnemonic alone. -/
def readBare (m : Text) : Option Line :=
  if m = codePoints ['N', 'O', 'P'] then some .nop
  else if m = codePoints ['K', 'D', 'O', 'N', 'E'] then some .kdone
  else if m = codePoints ['F', 'I', 'N', 'A', 'L'] then some .final
  else if m = codePoints ['C', 'L', 'E', 'A', 'R'] then some .clear
  else none

/-- The line after RD. -/
def readRd (t : Text) : Option Line :=
  if t = codePoints ['S', 'T', 'A', 'T', 'U', 'S'] then some .rdStatus
  else if t = codePoints ['D', 'I', 'G', 'E', 'S', 'T'] then some .rdDigest
  else if t.take 4 = codePoints ['D', 'O', 'U', 'T'] then (readNumber (t.drop 4)).map .rdDout
  else none

/-- A line with a mnemonic and one operand. -/
def readUnary (m : Text) (x : Token) : Option Line :=
  if m = codePoints ['M', 'S', 'G'] then (readData x).map .msg
  else if m = codePoints ['K', 'E', 'Y'] then (readData x).map .key
  else
    match x with
    | .word t =>
      if m = codePoints ['I', 'N', 'I', 'T'] then (readAlg t).map .init
      else if m = codePoints ['K', 'I', 'N', 'I', 'T'] then (readAlg t).map .kinit
      else if m = codePoints ['K', 'B', 'Y', 'T', 'E'] then (readNumber t).map .kbyte
      else if m = codePoints ['M', 'B', 'Y', 'T', 'E'] then (readNumber t).map .mbyte
      else if m = codePoints ['.', 'w', 'o', 'r', 'd'] then (readRawWord t).map .rawWord
      else if m = codePoints ['R', 'D'] then readRd t
      else none
    | .quoted _ => none
    | .comma => none

/-- The line a list of tokens is; none where it is no line of R89 and R90. -/
def readTokens : List Token → Option Line
  | [.word m] => readBare m
  | [.word m, x] => readUnary m x
  | [.word m, .word a, .comma, x] =>
    if m = codePoints ['D', 'I', 'G', 'E', 'S', 'T'] then
      match readAlg a, readData x with
      | some n, some d => some (.digest n d)
      | _, _ => none
    else none
  | [.word m, .word a, .comma, k, .comma, x] =>
    if m = codePoints ['H', 'M', 'A', 'C'] then
      match readAlg a, readData k, readData x with
      | some n, some c, some d => some (.hmac n c d)
      | _, _, _ => none
    else none
  | _ => none

/-- The line a text is (R89, R90): one command a line, mnemonic in capitals, an optional comment after `;`. -/
def readLine (t : Text) : Option Line := (lexLine t none [] []).bind readTokens

end Sys2Proof.Machine
end

