-- ==== Sys2Proof/Machine/Platform.lean ====
section
/-! DEFINITION. Several instances (20_memory.md rule R77): each has its own complete copy of the state, and they share nothing. -/

namespace Sys2Proof.Machine

/-- A platform: one machine for each instance. It has a first one, because `N_INSTANCES` is at least 1 (00_scope.md rule R9). -/
structure Platform where
  /-- Instance 0. -/
  first : State
  /-- The instances from 1 on. -/
  rest : List State
  deriving DecidableEq, Repr

/-- The machines of a platform, instance 0 first. -/
def Platform.instances (p : Platform) : List State := p.first :: p.rest

/-- The platform with another state for instance `k`. -/
def Platform.setInstance (p : Platform) (k : Nat) (s : State) : Platform :=
  match k with
  | 0 => { p with first := s }
  | j + 1 => { p with rest := p.rest.set j s }

/-- The platform out of reset, `n` being the OPEN parameter `N_INSTANCES` (R77, 60_exceptions.md rule R276). -/
def Platform.reset (n : InstanceCount) : Platform :=
  { first := State.reset, rest := List.replicate (n.val - 1) State.reset }

/-- A step of instance `k`; no other instance changes (R77). -/
def Platform.stepAt (p : Platform) (k : Nat) : Host.Outcome Platform Fault Refusal :=
  match p.instances[k]? with
  | none => .refused .noSuchInstance
  | some s =>
    match stepHost s with
    | .next t => .next (p.setInstance k t)
    | .fault r => .fault r
    | .refused r => .refused r

end Sys2Proof.Machine
end

