-- ==== Sys2Proof/Safety.lean ====
section
/-! DEFINITION. The terms claims are stated in: the bytes of the block buffer, the transition table of 40_commands.md rule R101,
and the invariants of the engine. -/

namespace Sys2Proof.Machine

/-- The byte at offset `q` of the block buffer: lane `q mod 4` of word `q / 4`, in the byte order of the algorithm
(42_word_packer.md rule R141). -/
def Engine.bufferByte (e : Engine) (q : Nat) : Byte :=
  if e.alg.little then byteAt (e.wAt (q / 4)) (q % 4) else byteAt (e.wAt (q / 4)) (3 - q % 4)

/-- The bytes put into the open block so far: offsets 0 to POS-1. -/
def Engine.bufferedBytes (e : Engine) : List Byte := (List.range e.pos.toNat).map e.bufferByte

/-- The words that end a hash: the buffered bytes, the 80 byte and the zeros of R144, and the two length words of R145. -/
def Engine.tailWords (e : Engine) : List Word :=
  packWords e.alg.little (e.bufferedBytes ++ [0x80] ++ List.replicate (padCount e.pos.toNat) 0) ++
    [(lengthWords e.alg.little e.mlen).1, (lengthWords e.alg.little e.mlen).2]

/-- The one or two blocks Finish() compresses (R146). -/
def Engine.tailBlocks (e : Engine) : List (List Word) := cutBlocks (e.tailWords.length / 16) e.tailWords

/-- The words of W past the block buffer that a compression does not write are the same: all of them for MD4 and MD5, W[64..79]
for SHA-256, none for SHA-1 (10_state.md rule R26). -/
def sameRestOfW (e f : Engine) : Prop :=
  ∀ i, 16 ≤ i → (e.alg.little = true ∨ (e.alg = .sha256 ∧ 64 ≤ i)) → f.wAt i = e.wAt i

/-- `f` is `e` with the one byte `b` absorbed as part of the message (42_word_packer.md rules R142, R143): the byte stands at offset
POS of the block buffer, POS and MLEN count it, and the block is compressed when the byte is its 64th. The control fields and the
HMAC registers are not mentioned here. -/
def absorbedByte (b : Byte) (e f : Engine) : Prop :=
  f.pos = e.pos + 1 ∧ f.mlen = e.mlen + 8 ∧
    (∀ q, q < 64 → f.bufferByte q = if q = e.pos.toNat then b else e.bufferByte q) ∧
    (e.pos ≠ 63 → f.h = e.h ∧ f.sv = e.sv ∧ f.j = e.j ∧ ∀ i, 16 ≤ i → f.wAt i = e.wAt i) ∧
    (e.pos = 63 → f.h = blockFn e.alg e.h (blockBuffer ((List.range 16).map f.wAt)) ∧ f.j = 0 ∧
      (∀ i, i < 8 → getAt f.sv i 0 = if i < e.alg.arity then e.hAt i else getAt e.sv i 0) ∧
      sameRestOfW e f)

/-- The fields no packer operation touches are the same: STATE, ERR, HMAC, ALG, KB, KCNT and ID. -/
def sameControlAndKey (e f : Engine) : Prop :=
  f.state = e.state ∧ f.err = e.err ∧ f.hmac = e.hmac ∧ f.alg = e.alg ∧ f.kb = e.kb ∧ f.kcnt = e.kcnt ∧ f.idb = e.idb

/-- `t` is `s` with another engine: the host's side is as it was. -/
def sameHostSide (s t : State) : Prop := t.host = s.host ∧ t.replies = s.replies

/-- `s` with only ERR and STATE changed (60_exceptions.md rule R266). -/
def State.inError (s : State) (c : Err) : State := { s with eng := { s.eng with err := c, state := .error } }

/-- A cell of the transition table: the next STATE, or the error raised. -/
inductive Cell where
  | goes (c : Ctl)
  | raises (c : Err)
  | ignored
  deriving DecidableEq, Repr

/-- The transition table of R101: row `i`, column `c`; `noKey` says that KCNT is 0. -/
def transitionCell (i : Instr) (c : Ctl) (noKey : Bool) : Cell :=
  match i, c with
  | .clear, _ => .goes .idle
  | _, .error => .ignored
  | .nop, c => .goes c
  | .init a, _ => if a.toNat ≤ 3 then .goes .msg else .raises .alg
  | .kinit a, _ => if a.toNat ≤ 3 then .goes .key else .raises .alg
  | .kbyte _, .key => .goes .key
  | .kbyte _, _ => .raises .seq
  | .kdone, .key => if noKey then .raises .key else .goes .msg
  | .kdone, _ => .raises .seq
  | .mbyte _, .msg => .goes .msg
  | .mbyte _, _ => .raises .seq
  | .final, .msg => .goes .done
  | .final, _ => .raises .seq

/-- The control fields agree with one another: ERR is set exactly in ERROR (R33), ERR_SIZE is never raised (R264), an idle
engine is a reset engine (R43), and a key is received only in an HMAC call (R31, R34). -/
abbrev Engine.controlInv (e : Engine) : Prop :=
  (e.err = .none ↔ e.state ≠ .error) ∧ e.err ≠ .size ∧ (e.state = .idle → e = Engine.reset) ∧
    (e.state = .key → e.hmac = true)

/-- The counters agree with one another: J is 0 between commands (R30), KCNT is at most 65 (R37), in an open call POS is the
number of bytes hashed modulo 64 (R27, R28), in the key phase MLEN counts the key bytes until KCNT saturates (R37), and a
finished call leaves POS at 0 (R146). -/
abbrev Engine.counterInv (e : Engine) : Prop :=
  e.j = 0 ∧ e.kcnt.toNat ≤ 65 ∧
    (e.state = .key ∨ e.state = .msg → e.mlen.toNat % 8 = 0 ∧ e.pos.toNat = e.mlen.toNat / 8 % 64) ∧
    (e.state = .key → e.kcnt.toNat ≤ 64 → e.mlen.toNat = 8 * e.kcnt.toNat) ∧
    (e.state = .done → e.pos = 0)

/-- What the register files hold at every command boundary: the registers an algorithm does not use are 0 (R22), bytes
of ID beyond the digest are 0 (R38), the key collected so far stands over zeros (R36), and a plain call has no key
material (R103). -/
abbrev Engine.registerInv (e : Engine) : Prop :=
  (∀ i, i < 8 → e.alg.arity ≤ i → e.hAt i = 0) ∧
    (∀ i, i < 32 → e.alg.digestBytes ≤ i → getAt e.idb i 0 = 0) ∧
    (e.state = .key → ∀ i, i < 64 → e.kcnt.toNat ≤ i → getAt e.kb i 0 = 0) ∧
    (e.state = .key → e.hmac = true) ∧
    (e.hmac = false → e.kb = Vector.replicate 64 0 ∧ e.kcnt = 0 ∧ e.idb = Vector.replicate 32 0)

/-- The host can tell two engines apart only by what its reads return (70_reset_and_hazards.md rule R300). -/
def sameReads (e f : Engine) : Prop := ∀ addr, e.readRegister addr = f.readRegister addr

end Sys2Proof.Machine
end

