-- ==== Sys2Proof/Certificates/Slice0/Obligations.lean ====
section
/-! DEFINITION. The statements about HF-CORE for the provers. Each docstring names the rule of spec/ the statement formalises. -/

open Sys2Proof Sys2Proof.Machine

/-- R91: decoding an encoded command gives it back with every operand, every word that decodes to a command is the word that
command encodes to, and the words of the eight commands are those of R91's Decode, written out as numbers. -/
def Obligations.DecodeAndEncodeAgree : Prop :=
  (∀ i : Instr, decode (encode i) = .instr i) ∧
    (∀ (w : Word) (i : Instr), decode w = .instr i → encode i = w) ∧
    ∀ (w : Word) (i : Instr), decode w = .instr i ↔ w.toNat =
      match i with
      | .nop => 0x00
      | .init a => 256 * a.toNat + 0x01
      | .kinit a => 256 * a.toNat + 0x02
      | .kbyte b => 256 * b.toNat + 0x03
      | .kdone => 0x04
      | .mbyte b => 256 * b.toNat + 0x05
      | .final => 0x06
      | .clear => 0x07

/-- R86: a word is a command exactly when RSV is 0, the opcode is below 8, and ARG is 0 where the opcode is of format N; any
other word raises ERR_CMD, and is ignored in ERROR. -/
def Obligations.IllegalWordsRaiseErrCmd : Prop :=
  ∀ w : Word,
    ((∃ i, decode w = .instr i) ↔
      w.toNat / 65536 = 0 ∧ w.toNat % 256 < 8 ∧
        (w.toNat % 256 ∈ [0x00, 0x04, 0x06, 0x07] → w.toNat / 256 % 256 = 0)) ∧
    ∀ s : State, (∀ i, decode w ≠ .instr i) →
      command w s = if s.eng.state = .error then .next s else .next (s.inError .cmd)

/-- R88: the words that pass the three checks of R86 are those that decode to a command, and there are 1028 of them. -/
def Obligations.WellFormedWordsNumber1028 : Prop :=
  (∀ w : Word, wordWellFormed w = true ↔ ∃ i, decode w = .instr i) ∧
  ((Finset.range (2 ^ 32)).filter (fun n => wordWellFormed (BitVec.ofNat 32 n) = true)).card = 1028

/-- R84: words written out from the opcode table decode to the commands they stand for. -/
def Obligations.TableWordsDecode : Prop :=
  decode 0x00000000 = .instr .nop ∧ decode 0x00000301 = .instr (.init 3) ∧ decode 0x0000ff01 = .instr (.init 255) ∧
    decode 0x00000102 = .instr (.kinit 1) ∧ decode 0x0000ab03 = .instr (.kbyte 0xab) ∧
    decode 0x00000004 = .instr .kdone ∧ decode 0x00006105 = .instr (.mbyte 0x61) ∧
    decode 0x00000006 = .instr .final ∧ decode 0x00000007 = .instr .clear

/-- R39, R100: a word written to CMD that decodes to a command is executed by that command's meaning. That a step takes the oldest
access off the list `host`, and that `withFetchWord` puts such a write before it, is log entry 1 (DESIGN CHOICE), the model's and
not a rule's. -/
def Obligations.StepRunsTheDecodedCommand : Prop :=
  (∀ (s : State) (w : Word) (i : Instr) (rest : List Access),
    s.host = .write 0x00 4 w :: rest → decode w = .instr i → step s = exec i { s with host := rest }) ∧
  ∀ (s : State) (i : Instr), step (s.withFetchWord 32 (encode i).toNat) = exec i s

/-- R69, R118 and log entries 1 and 3 (the model's choice of a list of accesses): a step performs the host's oldest access and takes
it off the list, a host with nothing left to issue leaves the machine stuck, and performing a list of accesses is performing them
one after the other. -/
def Obligations.StepPerformsAccessesInOrder : Prop :=
  (∀ (s : State) (a : Access) (rest : List Access),
    s.host = a :: rest → step s = perform a { s with host := rest }) ∧
  (∀ s : State, s.host = [] → step s = .fault .noHostAccess) ∧
  ∀ (xs ys : List Access) (s t : State),
    performAll xs s = .next t → performAll (xs ++ ys) s = performAll ys t

/-- R63, R64: a read of CMD or of a reserved offset returns 0, a write to any register but CMD is ignored, and neither changes
the engine or raises an error. -/
def Obligations.MismatchedAccessesAreHarmless : Prop :=
  ∀ s : State,
    perform (.read 0x00 4) s = .next { s with replies := s.replies ++ [0] } ∧
    (∀ k, k < 6 → perform (.read (0x08 + 4 * k) 4) s = .next { s with replies := s.replies ++ [0] }) ∧
    (∀ v, perform (.write 0x04 4 v) s = .next s) ∧
    (∀ k v, k < 6 → perform (.write (0x08 + 4 * k) 4 v) s = .next s) ∧
    ∀ i v, i < 8 → perform (.write (0x20 + 4 * i) 4 v) s = .next s

/-- R62: an access of another width, misaligned, or outside the 64 bytes is refused; every other access is admitted. -/
def Obligations.OnlyAlignedWordAccessesExist : Prop :=
  ∀ (s : State) (addr n : Nat) (v : Word),
    (¬ (n = 4 ∧ addr % 4 = 0 ∧ addr ≤ 0x3c) →
      perform (.read addr n) s = .refused .noSuchAccess ∧ perform (.write addr n v) s = .refused .noSuchAccess) ∧
    (n = 4 ∧ addr % 4 = 0 ∧ addr ≤ 0x3c →
      ∃ t u, perform (.read addr n) s = .next t ∧ t.eng = s.eng ∧ perform (.write addr n v) s = .next u)

/-- R43, R107: CLEAR is the word 00000007; after reset and after CLEAR, from every state, every item of state is zero, STATUS reads 0 and every DOUT reads 0.
That the platform's reset is an access is log entry 11. -/
def Obligations.ClearAndResetZeroEveryItem : Prop :=
  encode .clear = 0x00000007 ∧ ∀ s : State, ∃ e : Engine,
    exec .clear s = .next { s with eng := e } ∧ perform .reset s = .next { s with eng := e } ∧ State.reset.eng = e ∧
    e.state = .idle ∧ e.err = .none ∧ e.hmac = false ∧ e.alg = .md4 ∧ e.pos = 0 ∧ e.mlen = 0 ∧ e.kcnt = 0 ∧ e.j = 0 ∧
    (∀ i, i < 8 → getAt e.h i 1 = 0 ∧ getAt e.sv i 1 = 0) ∧ (∀ i, i < 80 → getAt e.w i 1 = 0) ∧
    (∀ i, i < 64 → getAt e.kb i 1 = 0) ∧ (∀ i, i < 32 → getAt e.idb i 1 = 0) ∧
    e.status = 0x00000000 ∧ ∀ i, e.dout i = 0x00000000

/-- R40: the fields of STATUS, its reserved bits, its read without effect on the engine and its ignored write. That the value a read
returns is put behind `replies` is log entry 2, the model's and not a rule's. -/
def Obligations.StatusLayout : Prop :=
  (∀ e : Engine,
    e.status.extractLsb' 0 3 = e.state.code ∧ e.status.getLsbD 3 = e.hmac ∧ e.status.extractLsb' 4 2 = e.alg.code ∧
    e.status.extractLsb' 6 2 = 0 ∧ e.status.extractLsb' 8 4 = e.err.code ∧ e.status.extractLsb' 12 20 = 0) ∧
  (Ctl.code .idle = 0 ∧ Ctl.code .key = 1 ∧ Ctl.code .msg = 2 ∧ Ctl.code .done = 3 ∧ Ctl.code .error = 4) ∧
  (Err.code .none = 0 ∧ Err.code .key = 1 ∧ Err.code .alg = 2 ∧ Err.code .size = 3 ∧ Err.code .cmd = 4 ∧
    Err.code .seq = 5) ∧
  (Alg.code .md4 = 0 ∧ Alg.code .md5 = 1 ∧ Alg.code .sha1 = 2 ∧ Alg.code .sha256 = 3) ∧
  ∀ (s : State) (v : Word),
    s.eng.readRegister 0x04 = s.eng.status ∧
    perform (.read 0x04 4) s = .next { s with replies := s.replies ++ [s.eng.status] } ∧
    perform (.write 0x04 4 v) s = .next s

/-- R41, R111: a read of DOUTi returns the rendered word of register i in DONE for i below the arity, the register with its bytes
swapped for MD4 and MD5 and as it stands for SHA-1 and SHA-256, and 0 otherwise; reading leaves the engine alone and a write is ignored.
That the value is put behind `replies` is log entry 2, the model's and not a rule's. -/
def Obligations.DoutReadsTheDigestOnlyInDone : Prop :=
  ∀ (s : State) (i : Nat), i < 8 →
    (∀ x, perform (.write (0x20 + 4 * i) 4 x) s = .next s) ∧
    ∃ v : Word, s.eng.readRegister (0x20 + 4 * i) = v ∧
      perform (.read (0x20 + 4 * i) 4) s = .next { s with replies := s.replies ++ [v] } ∧
      (s.eng.state = .done → i < s.eng.alg.arity →
        ∀ k, k < 4 → byteAt v (3 - k) =
          if s.eng.alg = .md4 ∨ s.eng.alg = .md5 then byteAt (s.eng.hAt i) k else byteAt (s.eng.hAt i) (3 - k)) ∧
      (¬ (s.eng.state = .done ∧ i < s.eng.alg.arity) → v = 0)

/-- R101, the whole table: every command from every STATE goes to the state, raises the error or is ignored as its cell says, and
an illegal word raises ERR_CMD or is ignored. -/
def Obligations.TransitionTable : Prop :=
  (∀ (i : Instr) (s : State), ∃ t, exec i s = .next t ∧
    match transitionCell i s.eng.state (s.eng.kcnt == 0) with
    | .goes c => t.eng.state = c
    | .raises c => t = s.inError c
    | .ignored => t = s) ∧
  ∀ (w : Word) (s : State), (∀ i, decode w ≠ .instr i) →
    command w s = if s.eng.state = .error then .next s else .next (s.inError .cmd)

/-- R266: a command that enters ERROR changes ERR and STATE and nothing else, and in ERROR every DOUT reads 0. -/
def Obligations.ErrorsArePrecise : Prop :=
  (∀ (i : Instr) (s t : State), exec i s = .next t → s.eng.state ≠ .error → t.eng.state = .error →
    t = s.inError .key ∨ t = s.inError .alg ∨ t = s.inError .seq) ∧
  (∀ (w : Word) (s t : State), command w s = .next t → s.eng.state ≠ .error → t.eng.state = .error →
    ∃ c, c ≠ Err.none ∧ t = s.inError c) ∧
  ∀ (e : Engine) (i : Nat), e.state = .error → e.dout i = 0

/-- R267: in ERROR every word but a well-formed CLEAR is ignored, so ERR keeps the first error through any accesses that hold no
CLEAR and no reset; CLEAR, or a reset (log entry 11), restores the reset state. -/
def Obligations.ErrorIgnoresAllButClear : Prop :=
  (∀ (w : Word) (s : State), s.eng.state = .error → decode w ≠ .instr .clear → command w s = .next s) ∧
  (∀ (xs : List Access) (s t : State), s.eng.state = .error →
    (∀ a, a ∈ xs → a ≠ .reset ∧ ∀ addr n v, a = .write addr n v → decode v ≠ .instr .clear) →
    performAll xs s = .next t → t.eng = s.eng) ∧
  ∀ (w : Word) (s : State), decode w = .instr .clear →
    command w s = .next { s with eng := State.reset.eng } ∧ perform .reset s = .next { s with eng := State.reset.eng }

/-- R262, R263, R265, R268: the order of the checks. State ERROR first, then the encoding, then the state, then the command's own
check; each error changes ERR and STATE only. -/
def Obligations.ErrorPriority : Prop :=
  ∀ (w : Word) (s : State),
    (s.eng.state = .error → decode w ≠ .instr .clear → command w s = .next s) ∧
    (s.eng.state ≠ .error → (∀ i, decode w ≠ .instr i) → command w s = .next (s.inError .cmd)) ∧
    (s.eng.state ≠ .error → s.eng.state ≠ .key →
      ((∃ b, decode w = .instr (.kbyte b)) ∨ decode w = .instr .kdone) → command w s = .next (s.inError .seq)) ∧
    (s.eng.state ≠ .error → s.eng.state ≠ .msg →
      ((∃ b, decode w = .instr (.mbyte b)) ∨ decode w = .instr .final) → command w s = .next (s.inError .seq)) ∧
    (∀ a : Byte, s.eng.state ≠ .error → 4 ≤ a.toNat →
      (decode w = .instr (.init a) ∨ decode w = .instr (.kinit a)) → command w s = .next (s.inError .alg)) ∧
    (s.eng.state = .key → s.eng.kcnt = 0 → decode w = .instr .kdone → command w s = .next (s.inError .key))

/-- R100, R298: every command terminates with a next state, and leaves the host's side of the interface alone. -/
def Obligations.EveryCommandCompletes : Prop :=
  ∀ (i : Instr) (s : State), ∃ t, exec i s = .next t ∧ sameHostSide s t

/-- R102: NOP is the all-zero word and changes nothing in any state; a word with its opcode and another bit set raises ERR_CMD. -/
def Obligations.NopChangesNothing : Prop :=
  encode .nop = 0x00000000 ∧ (∀ s : State, exec .nop s = .next s ∧ command 0x00000000 s = .next s) ∧
    ∀ (w : Word) (s : State), w.toNat % 256 = 0 → w ≠ 0x00000000 → s.eng.state ≠ .error →
      command w s = .next (s.inError .cmd)

/-- R103: INIT with a supported code opens a plain call from every state but ERROR: MSG, HMAC 0, the algorithm, its IV with zeros
after it, and all other call state zero; ERR is not written. With a code of 4 or more it raises ERR_ALG and changes nothing else. -/
def Obligations.InitOpensAPlainCall : Prop :=
  (∀ a : Byte, (encode (.init a)).toNat = 256 * a.toNat + 0x01) ∧
  (∀ (a : Alg) (s : State), s.eng.state ≠ .error → ∃ t, exec (.init (a.code.setWidth 8)) s = .next t ∧ sameHostSide s t ∧
    t.eng.state = .msg ∧ t.eng.err = s.eng.err ∧ t.eng.hmac = false ∧ t.eng.alg = a ∧
    t.eng.h.toList =
      (match a with
        | .md4 => [0x67452301, 0xefcdab89, 0x98badcfe, 0x10325476, 0, 0, 0, 0]
        | .md5 => [0x67452301, 0xefcdab89, 0x98badcfe, 0x10325476, 0, 0, 0, 0]
        | .sha1 => [0x67452301, 0xefcdab89, 0x98badcfe, 0x10325476, 0xc3d2e1f0, 0, 0, 0]
        | .sha256 => [0x6a09e667, 0xbb67ae85, 0x3c6ef372, 0xa54ff53a, 0x510e527f, 0x9b05688c, 0x1f83d9ab, 0x5be0cd19]) ∧
    t.eng.w = Vector.replicate 80 0 ∧ t.eng.pos = 0 ∧ t.eng.mlen = 0 ∧ t.eng.kb = Vector.replicate 64 0 ∧
    t.eng.kcnt = 0 ∧ t.eng.idb = Vector.replicate 32 0 ∧ t.eng.sv = Vector.replicate 8 0 ∧ t.eng.j = 0) ∧
  (∀ (a : Byte) (s : State), s.eng.state ≠ .error → 4 ≤ a.toNat → exec (.init a) s = .next (s.inError .alg)) ∧
  ∀ (a : Byte) (s : State), s.eng.state = .error → exec (.init a) s = .next s

/-- R241: KINIT opens an HMAC call in the key phase, with the IV loaded and all other call state zero, or raises ERR_ALG. -/
def Obligations.KinitOpensAnHmacCall : Prop :=
  (∀ a : Byte, (encode (.kinit a)).toNat = 256 * a.toNat + 0x02) ∧
  (∀ (a : Alg) (s : State), s.eng.state ≠ .error → ∃ t, exec (.kinit (a.code.setWidth 8)) s = .next t ∧ sameHostSide s t ∧
    t.eng.state = .key ∧ t.eng.err = s.eng.err ∧ t.eng.hmac = true ∧ t.eng.alg = a ∧
    (∀ i, i < 8 → t.eng.hAt i = a.iv.getD i 0) ∧
    t.eng.w = Vector.replicate 80 0 ∧ t.eng.pos = 0 ∧ t.eng.mlen = 0 ∧ t.eng.kb = Vector.replicate 64 0 ∧
    t.eng.kcnt = 0 ∧ t.eng.idb = Vector.replicate 32 0 ∧ t.eng.sv = Vector.replicate 8 0 ∧ t.eng.j = 0) ∧
  (∀ (a : Byte) (s : State), s.eng.state ≠ .error → 4 ≤ a.toNat → exec (.kinit a) s = .next (s.inError .alg)) ∧
  ∀ (a : Byte) (s : State), s.eng.state = .error → exec (.kinit a) s = .next s

/-- R105: MBYTE in MSG absorbs its byte into the message, any value of it, and touches no control field and no HMAC register;
in another state it raises ERR_SEQ, in ERROR it is ignored. -/
def Obligations.MbyteAbsorbsOneByte : Prop :=
  (∀ b : Byte, (encode (.mbyte b)).toNat = 256 * b.toNat + 0x05) ∧
  (∀ (b : Byte) (s : State), s.eng.state = .msg → ∃ t, exec (.mbyte b) s = .next t ∧ sameHostSide s t ∧
    sameControlAndKey s.eng t.eng ∧ absorbedByte b s.eng t.eng) ∧
  (∀ (b : Byte) (s : State), s.eng.state ≠ .error → s.eng.state ≠ .msg → exec (.mbyte b) s = .next (s.inError .seq)) ∧
  ∀ (b : Byte) (s : State), s.eng.state = .error → exec (.mbyte b) s = .next s

/-- R242: KBYTE in KEY absorbs its byte into the running hash of the key, keeps it in KB if it is one of the first 64, and counts
it up to 65; it changes no other control field and leaves ID alone. -/
def Obligations.KbyteAbsorbsAndKeepsOneByte : Prop :=
  (∀ b : Byte, (encode (.kbyte b)).toNat = 256 * b.toNat + 0x03) ∧
  (∀ (b : Byte) (s : State), s.eng.state = .key → ∃ t, exec (.kbyte b) s = .next t ∧ sameHostSide s t ∧
    absorbedByte b s.eng t.eng ∧
    t.eng.state = .key ∧ t.eng.err = s.eng.err ∧ t.eng.hmac = s.eng.hmac ∧ t.eng.alg = s.eng.alg ∧ t.eng.idb = s.eng.idb ∧
    (s.eng.kcnt.toNat < 64 → ∀ i, i < 64 →
      getAt t.eng.kb i 0 = if i = s.eng.kcnt.toNat then b else getAt s.eng.kb i 0) ∧
    (64 ≤ s.eng.kcnt.toNat → t.eng.kb = s.eng.kb) ∧
    t.eng.kcnt.toNat = if s.eng.kcnt.toNat < 65 then s.eng.kcnt.toNat + 1 else s.eng.kcnt.toNat) ∧
  (∀ (b : Byte) (s : State), s.eng.state ≠ .error → s.eng.state ≠ .key → exec (.kbyte b) s = .next (s.inError .seq)) ∧
  ∀ (b : Byte) (s : State), s.eng.state = .error → exec (.kbyte b) s = .next s

/-- R243: KDONE in KEY with a key byte received replaces a key longer than a block by the digest of the running hash and zeros,
keeps any other key, and starts the inner hash: from the IV, the block KB xor 36 is compressed, MLEN is 512, POS is 0, STATE is
MSG. Without a key byte it raises ERR_KEY, outside KEY ERR_SEQ. -/
def Obligations.KdoneNormalisesTheKeyAndStartsTheInnerHash : Prop :=
  encode .kdone = 0x00000004 ∧
  (∀ s : State, s.eng.state = .key → s.eng.kcnt ≠ 0 → ∃ t, exec .kdone s = .next t ∧ sameHostSide s t ∧
    t.eng.state = .msg ∧ t.eng.err = s.eng.err ∧ t.eng.hmac = s.eng.hmac ∧ t.eng.alg = s.eng.alg ∧
    t.eng.kcnt = s.eng.kcnt ∧ t.eng.idb = s.eng.idb ∧ t.eng.pos = 0 ∧ t.eng.mlen = 512 ∧ t.eng.j = 0 ∧
    (s.eng.kcnt ≠ 65 → t.eng.kb = s.eng.kb) ∧
    (s.eng.kcnt = 65 → ∀ i, i < 64 → getAt t.eng.kb i 0 =
      (digestBytesOf s.eng.alg (foldBlocks s.eng.alg s.eng.h s.eng.tailBlocks)).getD i 0) ∧
    (List.range 64).map t.eng.bufferByte = xorAll 0x36 t.eng.kb.toList ∧
    t.eng.h = foldBlocks s.eng.alg (hashState s.eng.alg.iv) [packWords s.eng.alg.little (xorAll 0x36 t.eng.kb.toList)] ∧
    (∀ i, i < 8 → getAt t.eng.sv i 0 = if i < s.eng.alg.arity then s.eng.alg.iv.getD i 0 else getAt s.eng.sv i 0) ∧
    sameRestOfW s.eng t.eng) ∧
  (∀ s : State, s.eng.state = .key → s.eng.kcnt = 0 → exec .kdone s = .next (s.inError .key)) ∧
  (∀ s : State, s.eng.state ≠ .error → s.eng.state ≠ .key → exec .kdone s = .next (s.inError .seq)) ∧
  ∀ s : State, s.eng.state = .error → exec .kdone s = .next s

/-- R106: FINAL in a plain call pads the message, compresses its last block or blocks and ends the call in DONE; no control field
but STATE, no HMAC register and not MLEN is written; SV holds the registers before the last block, the block buffer that block. Outside MSG it raises ERR_SEQ, in ERROR it is ignored. -/
def Obligations.FinalEndsAPlainCall : Prop :=
  encode .final = 0x00000006 ∧
  (∀ s : State, s.eng.state = .msg → s.eng.hmac = false → ∃ t, exec .final s = .next t ∧ sameHostSide s t ∧
    t.eng.state = .done ∧ t.eng.err = s.eng.err ∧ t.eng.hmac = false ∧ t.eng.alg = s.eng.alg ∧ t.eng.kb = s.eng.kb ∧
    t.eng.kcnt = s.eng.kcnt ∧ t.eng.idb = s.eng.idb ∧ t.eng.mlen = s.eng.mlen ∧ t.eng.pos = 0 ∧ t.eng.j = 0 ∧
    t.eng.h = foldBlocks s.eng.alg s.eng.h s.eng.tailBlocks ∧
    s.eng.tailBlocks.length = (if s.eng.pos.toNat ≤ 55 then 1 else 2) ∧
    (∀ i, i < 8 → getAt t.eng.sv i 0 = if i < s.eng.alg.arity
      then getAt (foldBlocks s.eng.alg s.eng.h s.eng.tailBlocks.dropLast) i 0 else getAt s.eng.sv i 0) ∧
    some ((List.range 16).map t.eng.wAt) = s.eng.tailBlocks.getLast? ∧
    sameRestOfW s.eng t.eng) ∧
  (∀ s : State, s.eng.state ≠ .error → s.eng.state ≠ .msg → exec .final s = .next (s.inError .seq)) ∧
  ∀ s : State, s.eng.state = .error → exec .final s = .next s

/-- R244: FINAL in an HMAC call then runs the outer hash: ID holds the inner digest and zeros, and H ends as the registers of the
hash of the opad block followed by the inner digest, with MLEN at 512 + 32 Arity(), SV at the registers before the last block and
that block in the buffer. -/
def Obligations.FinalRunsTheOuterHashOfAnHmacCall : Prop :=
  ∀ s : State, s.eng.state = .msg → s.eng.hmac = true →
    ∃ t inner, exec .final s = .next t ∧ sameHostSide s t ∧
      inner = digestBytesOf s.eng.alg (foldBlocks s.eng.alg s.eng.h s.eng.tailBlocks) ∧
      t.eng.state = .done ∧ t.eng.err = s.eng.err ∧ t.eng.hmac = true ∧ t.eng.alg = s.eng.alg ∧ t.eng.kb = s.eng.kb ∧
      t.eng.kcnt = s.eng.kcnt ∧ t.eng.pos = 0 ∧ t.eng.j = 0 ∧ t.eng.mlen.toNat = 512 + 32 * s.eng.alg.arity ∧
      (∀ i, i < 32 → getAt t.eng.idb i 0 = inner.getD i 0) ∧
      t.eng.h = foldBlocks s.eng.alg (hashState s.eng.alg.iv)
        (packMessage s.eng.alg (xorAll 0x5c s.eng.kb.toList ++ inner)) ∧
      (packMessage s.eng.alg (xorAll 0x5c s.eng.kb.toList ++ inner)).length = 2 ∧
      (∀ i, i < 8 → getAt t.eng.sv i 0 = if i < s.eng.alg.arity
        then getAt (foldBlocks s.eng.alg (hashState s.eng.alg.iv)
          (packMessage s.eng.alg (xorAll 0x5c s.eng.kb.toList ++ inner)).dropLast) i 0
        else getAt s.eng.sv i 0) ∧
      some ((List.range 16).map t.eng.wAt) = (packMessage s.eng.alg (xorAll 0x5c s.eng.kb.toList ++ inner)).getLast? ∧
      sameRestOfW s.eng t.eng

/-- R141: PutByte writes its byte at its offset and keeps every other byte of the block buffer, the whole of the other words and
every other register. -/
def Obligations.PutByteWritesOneLane : Prop :=
  ∀ (e : Engine) (p q : BitVec 6) (b : Byte),
    (e.putByte p b).bufferByte q.toNat = (if q = p then b else e.bufferByte q.toNat) ∧
    (∀ i, i ≠ p.toNat / 4 → (e.putByte p b).wAt i = e.wAt i) ∧
    e.putByte p b = { e with w := (e.putByte p b).w }

/-- R67: four bytes put at the four lanes of a word make the word `{b3,b2,b1,b0}` for MD4 and MD5 and `{b0,b1,b2,b3}` for SHA-1 and
SHA-256. -/
def Obligations.FourBytesMakeAWordInTheAlgorithmsOrder : Prop :=
  ∀ (e : Engine) (p : BitVec 6) (b0 b1 b2 b3 : Byte), p.toNat % 4 = 0 →
    (((((e.putByte p b0).putByte (p + 1) b1).putByte (p + 2) b2).putByte (p + 3) b3).wAt (p.toNat / 4)).toNat =
      if e.alg = .md4 ∨ e.alg = .md5 then b3.toNat * 2 ^ 24 + b2.toNat * 2 ^ 16 + b1.toNat * 2 ^ 8 + b0.toNat
      else b0.toNat * 2 ^ 24 + b1.toNat * 2 ^ 16 + b2.toNat * 2 ^ 8 + b3.toNat

/-- R68, R145, R146: Finish() compresses one block when POS is at most 55 at entry and two otherwise, leaves POS at 0 and MLEN alone,
and the last block holds the buffered bytes, 80 and zeros, or zeros only, and in its words 14 and 15 the length, low word first for
MD4 and MD5 and high word first for SHA-1 and SHA-256. -/
def Obligations.FinishPadsAndPlacesTheLength : Prop :=
  ∀ e : Engine,
    e.finish.h = foldBlocks e.alg e.h e.tailBlocks ∧
    e.tailBlocks.length = (if e.pos.toNat ≤ 55 then 1 else 2) ∧
    e.finish.pos = 0 ∧ e.finish.mlen = e.mlen ∧
    e.finish.wAt 14 = (if e.alg = .md4 ∨ e.alg = .md5 then e.mlen.extractLsb' 0 32 else e.mlen.extractLsb' 32 32) ∧
    e.finish.wAt 15 = (if e.alg = .md4 ∨ e.alg = .md5 then e.mlen.extractLsb' 32 32 else e.mlen.extractLsb' 0 32) ∧
    ∀ q, q < 56 → e.finish.bufferByte q =
      if e.pos.toNat ≤ 55 ∧ q < e.pos.toNat then e.bufferByte q
      else if e.pos.toNat ≤ 55 ∧ q = e.pos.toNat then 0x80 else 0x00

/-- R149: from an empty buffer, absorbing a message byte by byte and finishing gives the fold of the block function over the
packed message. -/
def Obligations.PackerAgreesWithPackedMessage : Prop :=
  ∀ (e : Engine) (m : List Byte), e.pos = 0 → e.mlen = 0 →
    ((e.absorbAll m).finish).h = foldBlocks e.alg e.h (packMessage e.alg m)

/-- R151: every packed block has 16 words, there are `floor((L+8)/64) + 1` of them, and the last two words of the final block hold
the bit length, low word first for little-endian packing and high word first for big-endian. -/
def Obligations.PackedBlocksHoldTheLengthLast : Prop :=
  ∀ (a : Alg) (m : List Byte),
    (packMessage a m).length = (m.length + 8) / 64 + 1 ∧
    (∀ x, x ∈ packMessage a m → x.length = 16) ∧
    ∃ x, (packMessage a m).getLast? = some x ∧
      (a.little = true → (x.getD 15 0).toNat * 2 ^ 32 + (x.getD 14 0).toNat = 8 * m.length % 2 ^ 64) ∧
      (a.little = false → (x.getD 14 0).toNat * 2 ^ 32 + (x.getD 15 0).toNat = 8 * m.length % 2 ^ 64)

/-- R26, R153: a compression reads nothing of W but the 16 words of its block, so stale contents never enter a digest. -/
def Obligations.StaleScheduleNeverEntersADigest : Prop :=
  ∀ (a : Alg) (h : Vector Word 8) (v w : Vector Word 80),
    (∀ i, i < 16 → getAt v i 0 = getAt w i 0) → blockFn a h v = blockFn a h w

/-- R202: every word of the SHA-1 schedule from 16 on obeys the recurrence, the block words are unchanged. -/
def Obligations.Sha1ScheduleRecurrence : Prop :=
  ∀ w : Vector Word 80,
    (∀ i, i < 16 → getAt (sha1Schedule w) i 0 = getAt w i 0) ∧
    ∀ i, 16 ≤ i → i ≤ 79 → getAt (sha1Schedule w) i 0 =
      (getAt (sha1Schedule w) (i - 3) 0 ^^^ getAt (sha1Schedule w) (i - 8) 0 ^^^
        getAt (sha1Schedule w) (i - 14) 0 ^^^ getAt (sha1Schedule w) (i - 16) 0).rotateLeft 1

/-- R223: every word of the SHA-256 schedule from 16 to 63 obeys the recurrence; the block words and the words from 64 on are
unchanged. -/
def Obligations.Sha256ScheduleRecurrence : Prop :=
  ∀ w : Vector Word 80,
    (∀ i, i < 16 ∨ 64 ≤ i → getAt (sha256Schedule w) i 0 = getAt w i 0) ∧
    ∀ i, 16 ≤ i → i ≤ 63 → getAt (sha256Schedule w) i 0 =
      getAt (sha256Schedule w) (i - 16) 0 +
        ((getAt (sha256Schedule w) (i - 15) 0).rotateRight 7 ^^^ (getAt (sha256Schedule w) (i - 15) 0).rotateRight 18 ^^^
          (getAt (sha256Schedule w) (i - 15) 0 >>> 3)) +
        getAt (sha256Schedule w) (i - 7) 0 +
        ((getAt (sha256Schedule w) (i - 2) 0).rotateRight 17 ^^^ (getAt (sha256Schedule w) (i - 2) 0).rotateRight 19 ^^^
          (getAt (sha256Schedule w) (i - 2) 0 >>> 10))

/-- R163, R164, R165, R170: the block word, the rotation, the constant and the function of each of MD4's 48 rounds. -/
def Obligations.Md4RoundTable : Prop :=
  (List.range 48).map md4Idx =
    [0, 1, 2, 3, 4, 5, 6, 7, 8, 9, 10, 11, 12, 13, 14, 15,
     0, 4, 8, 12, 1, 5, 9, 13, 2, 6, 10, 14, 3, 7, 11, 15,
     0, 8, 4, 12, 2, 10, 6, 14, 1, 9, 5, 13, 3, 11, 7, 15] ∧
  (List.range 48).map md4Rot =
    [3, 7, 11, 19, 3, 7, 11, 19, 3, 7, 11, 19, 3, 7, 11, 19,
     3, 5, 9, 13, 3, 5, 9, 13, 3, 5, 9, 13, 3, 5, 9, 13,
     3, 9, 11, 15, 3, 9, 11, 15, 3, 9, 11, 15, 3, 9, 11, 15] ∧
  (∀ j, j < 48 → md4K (j / 16) = if j < 16 then 0x00000000 else if j < 32 then 0x5a827999 else 0x6ed9eba1) ∧
  ∀ (j : Nat) (x y z : Word), j < 48 → md4Fn (j / 16) x y z =
    if j < 16 then (x &&& y) ||| (~~~x &&& z)
    else if j < 32 then (x &&& y) ||| (x &&& z) ||| (y &&& z) else x ^^^ y ^^^ z

/-- R182, R184, R185: the block word, the rotation and the function of each of MD5's 64 rounds. -/
def Obligations.Md5RoundTable : Prop :=
  (List.range 64).map md5Idx =
    [0, 1, 2, 3, 4, 5, 6, 7, 8, 9, 10, 11, 12, 13, 14, 15,
     1, 6, 11, 0, 5, 10, 15, 4, 9, 14, 3, 8, 13, 2, 7, 12,
     5, 8, 11, 14, 1, 4, 7, 10, 13, 0, 3, 6, 9, 12, 15, 2,
     0, 7, 14, 5, 12, 3, 10, 1, 8, 15, 6, 13, 4, 11, 2, 9] ∧
  (List.range 64).map md5Rot =
    [7, 12, 17, 22, 7, 12, 17, 22, 7, 12, 17, 22, 7, 12, 17, 22,
     5, 9, 14, 20, 5, 9, 14, 20, 5, 9, 14, 20, 5, 9, 14, 20,
     4, 11, 16, 23, 4, 11, 16, 23, 4, 11, 16, 23, 4, 11, 16, 23,
     6, 10, 15, 21, 6, 10, 15, 21, 6, 10, 15, 21, 6, 10, 15, 21] ∧
  ∀ (j : Nat) (x y z : Word), j < 64 → md5Fn (j / 16) x y z =
    if j < 16 then (x &&& y) ||| (~~~x &&& z)
    else if j < 32 then (x &&& z) ||| (y &&& ~~~z) else if j < 48 then x ^^^ y ^^^ z else y ^^^ (x ||| ~~~z)

/-- R221, R222: SHA-256's eight IV words and 64 round constants are the first 32 bits of the fractional parts of the square roots of the
first 8 primes and of the cube roots of the first 64, as inequalities between whole numbers; `q` is the root's whole part. -/
def Obligations.Sha256ConstantsAreRootsOfPrimes : Prop :=
  (∀ i, i < 8 → ∃ q, q < 5 ∧
    ((sha256IV.getD i 0).toNat + 2 ^ 32 * q) ^ 2 ≤ [2, 3, 5, 7, 11, 13, 17, 19].getD i 0 * 2 ^ 64 ∧
    [2, 3, 5, 7, 11, 13, 17, 19].getD i 0 * 2 ^ 64 < ((sha256IV.getD i 0).toNat + 2 ^ 32 * q + 1) ^ 2) ∧
  ∀ j p, j < 64 → p = ([2, 3, 5, 7, 11, 13, 17, 19, 23, 29, 31, 37, 41, 43, 47, 53, 59, 61, 67, 71, 73, 79,
   83, 89, 97, 101, 103, 107, 109, 113, 127, 131, 137, 139, 149, 151, 157, 163, 167, 173, 179, 181, 191,
   193, 197, 199, 211, 223, 227, 229, 233, 239, 241, 251, 257, 263, 269, 271, 277, 281, 283, 293, 307, 311]).getD j 0 → ∃ q, q < 7 ∧
    ((sha256K j).toNat + 2 ^ 32 * q) ^ 3 ≤ p * 2 ^ 96 ∧ p * 2 ^ 96 < ((sha256K j).toNat + 2 ^ 32 * q + 1) ^ 3

/-- R203, R204: the function and the constant of each of SHA-1's 80 rounds. -/
def Obligations.Sha1RoundTable : Prop :=
  ∀ (j : Nat) (b c d : Word), j < 80 →
    sha1Fn (j / 20) b c d = (if j < 20 then (b &&& c) ||| (~~~b &&& d)
      else if j < 40 then b ^^^ c ^^^ d
      else if j < 60 then (b &&& c) ||| (b &&& d) ||| (c &&& d) else b ^^^ c ^^^ d) ∧
    sha1K (j / 20) = (if j < 20 then 0x5a827999 else if j < 40 then 0x6ed9eba1 else if j < 60 then 0x8f1bbcdc else 0xca62c1d6)

/-- R166, R186, R205, R225: one round of each core, written out with the rotations of the word type. -/
def Obligations.RoundUpdates : Prop :=
  (∀ (j : Nat) (r : Regs4) (x : Vector Word 80), j < 48 → md4Round j r x =
    ⟨r.d, (r.a + md4Fn (j / 16) r.b r.c r.d + getAt x (md4Idx j) 0 + md4K (j / 16)).rotateLeft (md4Rot j), r.b, r.c⟩) ∧
  (∀ (j : Nat) (r : Regs4) (x : Vector Word 80), j < 64 → md5Round j r x =
    ⟨r.d, r.b + (r.a + md5Fn (j / 16) r.b r.c r.d + md5T j + getAt x (md5Idx j) 0).rotateLeft (md5Rot j), r.b, r.c⟩) ∧
  (∀ (j : Nat) (r : Regs5) (w : Vector Word 80), sha1Round j r w =
    ⟨r.a.rotateLeft 5 + sha1Fn (j / 20) r.b r.c r.d + r.e + sha1K (j / 20) + getAt w j 0, r.a, r.b.rotateLeft 30,
      r.c, r.d⟩) ∧
  ∀ (j : Nat) (r : Regs8) (w : Vector Word 80), ∃ t1 t2 : Word,
    t1 = r.h + (r.e.rotateRight 6 ^^^ r.e.rotateRight 11 ^^^ r.e.rotateRight 25) +
      ((r.e &&& r.f) ^^^ (~~~r.e &&& r.g)) + sha256K j + getAt w j 0 ∧
    t2 = (r.a.rotateRight 2 ^^^ r.a.rotateRight 13 ^^^ r.a.rotateRight 22) +
      ((r.a &&& r.b) ^^^ (r.a &&& r.c) ^^^ (r.b &&& r.c)) ∧
    sha256Round j r w = ⟨t1 + t2, r.a, r.b, r.c, r.d + t1, r.e, r.f, r.g⟩

/-- R169, R182, R208, R224: the equal rewritings of the round functions. -/
def Obligations.RoundFunctionLaws : Prop :=
  ∀ x y z : Word,
    fnF x y z = z ^^^ (x &&& (y ^^^ z)) ∧ fnG x y z = (x &&& y) ||| (z &&& (x ||| y)) ∧ fnG5 x y z = fnF z x y ∧
    fnCh x y z = fnF x y z ∧ fnMaj x y z = fnG x y z ∧ rotl x 30 = rotr x 2

/-- R171, R190, R209, R229: the worked blocks, "abc" through each core from its IV. -/
def Obligations.WorkedBlocks : Prop :=
  (md4Block (hashState md4IV) (blockBuffer ([0x80636261] ++ List.replicate 13 0 ++ [0x18, 0]))).toList =
    [0x7a0148a4, 0x52d821af, 0xe80ac15f, 0x9d72a67a, 0, 0, 0, 0] ∧
  (md5Block (hashState md5IV) (blockBuffer ([0x80636261] ++ List.replicate 13 0 ++ [0x18, 0]))).toList =
    [0x98500190, 0xb04fd23c, 0x7d3f96d6, 0x727fe128, 0, 0, 0, 0] ∧
  (sha1Block (hashState sha1IV) (blockBuffer ([0x61626380] ++ List.replicate 14 0 ++ [0x18]))).toList =
    [0xa9993e36, 0x4706816a, 0xba3e2571, 0x7850c26c, 0x9cd0d89d, 0, 0, 0] ∧
  (sha256Block (hashState sha256IV) (blockBuffer ([0x61626380] ++ List.replicate 14 0 ++ [0x18]))).toList =
    [0xba7816bf, 0x8f01cfea, 0x414140de, 0x5dae2223, 0xb00361a3, 0x96177a9c, 0xb410ff61, 0xf20015ad]

/-- R22, R25, R26, R147: what a compression reads and writes. H is the block function of the selected core on the old H and the 16
block words, unused registers keep their values, SV holds the old H, J is 0, W holds the message schedule for SHA-1 and SHA-256,
its block buffer and every word no schedule writes as before, and no other register changes. -/
def Obligations.CompressReadsAndWrites : Prop :=
  ∀ e : Engine,
    e.compress.h = blockFn e.alg e.h (blockBuffer ((List.range 16).map e.wAt)) ∧
    (∀ i, e.alg.arity ≤ i → e.compress.hAt i = e.hAt i) ∧
    (∀ i, i < 8 → getAt e.compress.sv i 0 = if i < e.alg.arity then e.hAt i else getAt e.sv i 0) ∧
    e.compress.j = 0 ∧ (∀ i, i < 16 → e.compress.wAt i = e.wAt i) ∧
    e.compress.w = (match e.alg with
      | .md4 => e.w | .md5 => e.w | .sha1 => sha1Schedule e.w | .sha256 => sha256Schedule e.w) ∧
    sameRestOfW e e.compress ∧
    sameControlAndKey e e.compress ∧ e.compress.pos = e.pos ∧ e.compress.mlen = e.mlen

/-- R74, R117: the digest has 4 Arity() bytes; byte 4i+k is byte k of H[i] by significance for MD4 and MD5 and byte 3-k for SHA-1 and
SHA-256. -/
def Obligations.DigestByteOrder : Prop :=
  ∀ e : Engine,
    e.digestBytes.length = 4 * e.alg.arity ∧
    ∀ i k, i < e.alg.arity → k < 4 → e.digestBytes[4 * i + k]? =
      some (if e.alg = .md4 ∨ e.alg = .md5 then (e.hAt i).extractLsb' (8 * k) 8
        else (e.hAt i).extractLsb' (24 - 8 * k) 8)

/-- R121, R133: in DONE the rendering of DOUT0 to DOUT(Arity()-1) spells the digest bytes two lower-case hex digits each, 32, 32,
40 or 64 characters. -/
def Obligations.RenderingSpellsTheDigest : Prop :=
  (∀ e : Engine, e.state = .done →
    render ((List.range e.alg.arity).map e.dout) = e.digestBytes.flatMap hexOfByte ∧
    (render ((List.range e.alg.arity).map e.dout)).length =
      (match e.alg with | .md4 => 32 | .md5 => 32 | .sha1 => 40 | .sha256 => 64)) ∧
  ∀ (ws : List Word) (c : Nat), c ∈ render ws → (0x30 ≤ c ∧ c ≤ 0x39) ∨ (0x61 ≤ c ∧ c ≤ 0x66)

/-- R120: from any state but ERROR the commands of a plain call end in DONE with the digest of the message. -/
def Obligations.PlainCallComputesTheDigest : Prop :=
  ∀ (a : Alg) (m : List Byte) (s : State), s.eng.state ≠ .error →
    ∃ t, performAll (digestAccesses a m) s = .next t ∧ sameHostSide s t ∧
      t.eng.state = .done ∧ t.eng.alg = a ∧ t.eng.hmac = false ∧ t.eng.err = s.eng.err ∧
      t.eng.digestBytes = digest a m

/-- R246: from any state but ERROR the commands of an HMAC call with a key of at least one byte end in DONE with the HMAC of the
message. -/
def Obligations.HmacCallComputesTheHmac : Prop :=
  ∀ (a : Alg) (k m : List Byte) (s : State), s.eng.state ≠ .error → k ≠ [] →
    ∃ t, performAll (hmacAccesses a k m) s = .next t ∧ sameHostSide s t ∧
      t.eng.state = .done ∧ t.eng.alg = a ∧ t.eng.hmac = true ∧ t.eng.err = s.eng.err ∧
      some t.eng.digestBytes = Machine.hmac a k m ∧ t.eng.digestBytes.length = 4 * a.arity

/-- R119: what a call leaves in STATE, ERR, HMAC, ALG and H, and so what STATUS and DOUT read, does not depend on the state before it.
The premise is the model's invariant of the control fields, which every run keeps. -/
def Obligations.CallsArePure : Prop :=
  ∀ (a : Alg) (k m : List Byte) (s₁ s₂ : State),
    s₁.eng.state ≠ .error → s₂.eng.state ≠ .error → s₁.eng.controlInv → s₂.eng.controlInv →
    ∀ xs, xs = digestAccesses a m ∨ (k ≠ [] ∧ xs = hmacAccesses a k m) →
    ∃ t₁ t₂, performAll xs s₁ = .next t₁ ∧ performAll xs s₂ = .next t₂ ∧
      t₁.eng.state = t₂.eng.state ∧ t₁.eng.err = t₂.eng.err ∧ t₁.eng.hmac = t₂.eng.hmac ∧ t₁.eng.alg = t₂.eng.alg ∧
      t₁.eng.h = t₂.eng.h ∧ sameReads t₁.eng t₂.eng

/-- R247: a key longer than 64 bytes and its digest give the same HMAC. -/
def Obligations.LongKeysActAsTheirDigest : Prop :=
  ∀ (a : Alg) (k m : List Byte), 64 < k.length → Machine.hmac a k m = Machine.hmac a (digest a k) m

/-- R131, R132, R138: hex input decodes pair by pair, digits of both cases alike; any other character or an odd count fails with
InputFormatError, and the driver then has issued nothing and left the machine as it was. -/
def Obligations.HexInputDecodesOrFails : Prop :=
  (∀ k, k < 10 → hexValue (0x30 + k) = some k) ∧
  (∀ k, k < 6 → hexValue (0x61 + k) = some (10 + k) ∧ hexValue (0x41 + k) = some (10 + k)) ∧
  (∀ t : Text, t.length % 2 = 0 →
    (∀ c, c ∈ t → (0x30 ≤ c ∧ c ≤ 0x39) ∨ (0x61 ≤ c ∧ c ≤ 0x66) ∨ (0x41 ≤ c ∧ c ≤ 0x46)) →
    ∃ bs, toBytes t true = .ok bs ∧ 2 * bs.length = t.length ∧
      ∀ k x y, t[2 * k]?.bind hexValue = some x → t[2 * k + 1]?.bind hexValue = some y →
        bs[k]? = some (BitVec.ofNat 8 (16 * x + y))) ∧
  (∀ t : Text, (t.length % 2 = 1 ∨
      ∃ c, c ∈ t ∧ ¬ ((0x30 ≤ c ∧ c ≤ 0x39) ∨ (0x61 ≤ c ∧ c ≤ 0x66) ∨ (0x41 ≤ c ∧ c ≤ 0x46))) →
    toBytes t true = .error .inputFormat ∧
    ∀ (a : Alg) (s : State), driverDigest a t true s = (.error .inputFormat, s)) ∧
  ∀ bs : List Byte, toBytes (bs.flatMap hexOfByte) true = .ok bs

/-- R130: text is encoded as UTF-8, code point by code point: one byte up to 7F, two up to 7FF, three up to FFFF, four up to 10FFFF,
with the leading bits of each byte and the code point in the other bits; a surrogate or a larger number has no encoding. -/
def Obligations.TextInputIsUtf8 : Prop :=
  (∀ t : Text, (∀ c, c ∈ t → c ≤ 0x7f) → toBytes t false = .ok (t.map (BitVec.ofNat 8))) ∧
  (∀ (t u : Text) (bs cs : List Byte), toBytes t false = .ok bs → toBytes u false = .ok cs →
    toBytes (t ++ u) false = .ok (bs ++ cs)) ∧
  (∀ c, 0x80 ≤ c → c ≤ 0x7ff → ∃ x y : Byte, toBytes [c] false = .ok [x, y] ∧
    x.toNat / 32 = 6 ∧ y.toNat / 64 = 2 ∧ x.toNat % 32 * 64 + y.toNat % 64 = c) ∧
  (∀ c, 0x800 ≤ c → c ≤ 0xffff → ¬ (0xd800 ≤ c ∧ c ≤ 0xdfff) → ∃ x y z : Byte, toBytes [c] false = .ok [x, y, z] ∧
    x.toNat / 16 = 14 ∧ y.toNat / 64 = 2 ∧ z.toNat / 64 = 2 ∧
    (x.toNat % 16 * 64 + y.toNat % 64) * 64 + z.toNat % 64 = c) ∧
  (∀ c, 0x10000 ≤ c → c ≤ 0x10ffff → ∃ x y z u : Byte, toBytes [c] false = .ok [x, y, z, u] ∧
    x.toNat / 8 = 30 ∧ y.toNat / 64 = 2 ∧ z.toNat / 64 = 2 ∧ u.toNat / 64 = 2 ∧
    ((x.toNat % 8 * 64 + y.toNat % 64) * 64 + z.toNat % 64) * 64 + u.toNat % 64 = c) ∧
  ∀ (t : Text) (c : Nat), c ∈ t → (0xd800 ≤ c ∧ c ≤ 0xdfff) ∨ 0x110000 ≤ c → toBytes t false = .error .notText

/-- R134: the driver's digest of an input that decodes returns the hex spelling of the digest, from any state, ERROR too: the driver
clears an engine it finds in ERROR first, in the second of R292's two ways (log entry 14). The machine is left in DONE. -/
def Obligations.DriverDigestReturnsTheDigest : Prop :=
  ∀ (a : Alg) (input : Text) (isHex : Bool) (m : List Byte) (s : State),
    toBytes input isHex = .ok m →
    ∃ t, driverDigest a input isHex s = (.ok ((digest a m).flatMap hexOfByte), t) ∧ t.eng.state = .done

/-- R135, R136 with R130 to R132 and R139: exactly the four names "MD4", "MD5", "SHA-1", "SHA-256" have an algorithm, any other is
unsupported. The driver's HMAC of inputs that pass the four checks returns the hex spelling of the HMAC, whatever legal order the
checks have, from any state, ERROR too: the driver clears an engine it finds in ERROR first, as R134 asks, in the second of R292's two
ways (log entry 14, DESIGN CHOICE). One fault alone returns its error in every legal order and leaves the machine as it was: an unknown name
UnsupportedAlgorithmError, an empty or absent key KeyError, a hex key or message that does not decode InputFormatError. Of several
faults one is returned, in R135's order an unknown name first, then a key that does not decode, then an empty key. Text that does not
decode is `notText` (log entry 8). -/
def Obligations.DriverHmacReturnsTheHmac : Prop :=
  (∀ (name : Text) (a : Alg), algCode name = .ok a ↔ name =
    match a with
    | .md4 => [0x4d, 0x44, 0x34]
    | .md5 => [0x4d, 0x44, 0x35]
    | .sha1 => [0x53, 0x48, 0x41, 0x2d, 0x31]
    | .sha256 => [0x53, 0x48, 0x41, 0x2d, 0x32, 0x35, 0x36]) ∧
  (∀ name : Text, (∀ a, algCode name ≠ .ok a) → algCode name = .error .unsupportedAlgorithm) ∧
  (∀ (order : HostErrOrder) (input name key : Text) (hexInput hexKey : Bool) (a : Alg) (k m : List Byte) (s : State),
    order.legal = true → algCode name = .ok a → toBytes key hexKey = .ok k → key ≠ [] → toBytes input hexInput = .ok m →
    ∃ t v, Machine.hmac a k m = some v ∧
      driverHmac order input name (some key) hexInput hexKey s = (.ok (v.flatMap hexOfByte), t) ∧ t.eng.state = .done) ∧
  (∀ (order : HostErrOrder) (input name key : Text) (hexInput hexKey : Bool) (k m : List Byte) (s : State),
    order.legal = true → (∀ a, algCode name ≠ .ok a) → toBytes key hexKey = .ok k → key ≠ [] → toBytes input hexInput = .ok m →
    driverHmac order input name (some key) hexInput hexKey s = (.error .unsupportedAlgorithm, s)) ∧
  (∀ (order : HostErrOrder) (input name : Text) (hexInput hexKey : Bool) (a : Alg) (m : List Byte) (s : State),
    order.legal = true → algCode name = .ok a → toBytes input hexInput = .ok m →
    driverHmac order input name none hexInput hexKey s = (.error .key, s) ∧
      driverHmac order input name (some []) hexInput hexKey s = (.error .key, s)) ∧
  (∀ (order : HostErrOrder) (input name key : Text) (hexInput : Bool) (a : Alg) (m : List Byte) (s : State),
    order.legal = true → algCode name = .ok a → (∀ k, toBytes key true ≠ .ok k) → toBytes input hexInput = .ok m →
    driverHmac order input name (some key) hexInput true s = (.error .inputFormat, s)) ∧
  (∀ (order : HostErrOrder) (input name key : Text) (hexKey : Bool) (a : Alg) (k : List Byte) (s : State),
    order.legal = true → algCode name = .ok a → toBytes key hexKey = .ok k → key ≠ [] → (∀ m, toBytes input true ≠ .ok m) →
    driverHmac order input name (some key) true hexKey s = (.error .inputFormat, s)) ∧
  (∀ (order : HostErrOrder) (input name : Text) (key : Option Text) (hexInput hexKey : Bool) (s : State),
    order.legal = true →
    ((∀ a, algCode name ≠ .ok a) ∨ key.getD [] = [] ∨ (∀ k, toBytes (key.getD []) hexKey ≠ .ok k) ∨
      ∀ m, toBytes input hexInput ≠ .ok m) →
    ∃ r, driverHmac order input name key hexInput hexKey s = (.error r, s) ∧
      ((r = .unsupportedAlgorithm ∧ ∀ a, algCode name ≠ .ok a) ∨ (r = .key ∧ key.getD [] = []) ∨
        toBytes (key.getD []) hexKey = .error r ∨ toBytes input hexInput = .error r)) ∧
  ∀ (input name : Text) (key : Option Text) (hexInput hexKey : Bool) (s : State),
    ((∀ a, algCode name ≠ .ok a) →
      driverHmac .ofR135 input name key hexInput hexKey s = (.error .unsupportedAlgorithm, s)) ∧
    (∀ a r, algCode name = .ok a → toBytes (key.getD []) hexKey = .error r →
      driverHmac .ofR135 input name key hexInput hexKey s = (.error r, s) ∧
        r = if hexKey then .inputFormat else .notText) ∧
    ∀ a, algCode name = .ok a → key.getD [] = [] → driverHmac .ofR135 input name key hexInput hexKey s = (.error .key, s)

/-- R137, R269: an engine found in ERROR at the end of a call gives the host the error ERR stands for, after a CLEAR that leaves the
reset state. That ERR 0 in ERROR, which no run reaches (R33), gives the internal fault is log entry 14, the model's and not a
rule's. -/
def Obligations.ErrorsReachTheHostAndAreCleared : Prop :=
  ∀ (a : Alg) (s : State), s.eng.state = .error →
    ∃ t, endCall a s =
      (.error (match s.eng.err with
        | .key => .key | .alg => .unsupportedAlgorithm | .size => .size | .none => .internal | .cmd => .internal
        | .seq => .internal), t) ∧ t.eng = Engine.reset ∧ t.host = s.host

/-- R90 with R120 and R246: the pseudo-instructions DIGEST and HMAC, each followed by RD DIGEST, run from any state but ERROR and read
out the digest and the HMAC of their data. -/
def Obligations.PseudoInstructionsReadOutTheResult : Prop :=
  (∀ (a : Alg) (x : Data) (m : List Byte) (s : State), x.bytes = .ok m → s.eng.state ≠ .error →
    ∃ t, runScript [.digest a.code.toNat x, .rdDigest] s = some (.next t) ∧ t.eng.state = .done ∧
      render (t.replies.drop s.replies.length) = (digest a m).flatMap hexOfByte) ∧
  ∀ (a : Alg) (y x : Data) (k m : List Byte) (s : State),
    y.bytes = .ok k → x.bytes = .ok m → k ≠ [] → s.eng.state ≠ .error →
    ∃ t v, runScript [.hmac a.code.toNat y x, .rdDigest] s = some (.next t) ∧ t.eng.state = .done ∧
      Machine.hmac a k m = some v ∧ render (t.replies.drop s.replies.length) = v.flatMap hexOfByte

/-- R139: with at most one failing check, the error `hmac` returns does not depend on `HOST_ERR_ORDER`. -/
def Obligations.HostErrorOrderIsInvisibleForOneFault : Prop :=
  ∀ (o₁ o₂ : HostErrOrder) (input name key : Text) (hexInput hexKey : Bool),
    o₁.legal = true → o₂.legal = true →
    (∀ c₁ c₂, (hostCheck c₁ input name key hexInput hexKey).isSome = true →
      (hostCheck c₂ input name key hexInput hexKey).isSome = true → c₁ = c₂) →
    firstFailure o₁ input name key hexInput hexKey = firstFailure o₂ input name key hexInput hexKey

/-- R9, R77, R276: a platform has at least one instance, each in the reset state out of reset, as many as `N_INSTANCES` says; a step of
one instance is a step of its machine and changes that instance alone, and a step of an instance that is not there is refused
(log entry 10). -/
def Obligations.InstancesShareNothing : Prop :=
  (∀ p : Platform, 1 ≤ p.instances.length) ∧
  (∀ n : InstanceCount, (Platform.reset n).instances = List.replicate n.val State.reset) ∧
  (∀ (p : Platform) (k : Nat) (s t : State), p.instances[k]? = some s → step s = .next t →
    ∃ q, p.stepAt k = .next q ∧ q.instances[k]? = some t) ∧
  (∀ (p q : Platform) (k : Nat), p.stepAt k = .next q →
    q.instances.length = p.instances.length ∧ (∀ j, j ≠ k → q.instances[j]? = p.instances[j]?) ∧
    ∃ s t, p.instances[k]? = some s ∧ q.instances[k]? = some t ∧ step s = .next t) ∧
  ∀ (p : Platform) (k : Nat), p.instances.length ≤ k → p.stepAt k = .refused .noSuchInstance

/-- R297, R300: what the host can read depends on STATE, ERR, HMAC and ALG alone, and in DONE on the registers of the digest: the key,
the inner digest, the block buffer, the counters and any unfinished hash are not readable. A read that exists gives the host the value
of its register and nothing else (behind `replies`, log entry 2). -/
def Obligations.KeyAndIntermediateStateAreUnreadable : Prop :=
  (∀ (s : State) (addr : Nat), addr % 4 = 0 → addr ≤ 0x3c →
    perform (.read addr 4) s = .next { s with replies := s.replies ++ [s.eng.readRegister addr] }) ∧
  ∀ e f : Engine, e.state = f.state → e.err = f.err → e.hmac = f.hmac → e.alg = f.alg →
    (e.state = .done → ∀ i, i < e.alg.arity → e.hAt i = f.hAt i) → sameReads e f

/-- R33, R43, R264: every step from every state keeps the control fields in agreement: ERR is 0 exactly outside ERROR, ERR_SIZE never
stands in ERR, an idle engine is a reset engine, and in KEY the HMAC flag is set. -/
def Obligations.EveryStepKeepsControlInv : Prop :=
  ∀ s t : State, s.eng.controlInv → step s = .next t → t.eng.controlInv

/-- R27, R28, R30, R37: every step from every state keeps the counters in agreement: J is 0, KCNT is at most 65, in an open call MLEN is
a whole number of bytes and POS that number modulo 64, in KEY MLEN counts the key bytes while KCNT is at most 64, and in DONE POS
is 0. -/
def Obligations.EveryStepKeepsCounterInv : Prop :=
  ∀ s t : State, s.eng.counterInv → step s = .next t → t.eng.counterInv

/-- R22, R36, R38: every step from every state keeps the register files in order: the registers of H the algorithm does not use and the
bytes of ID beyond the digest are 0, in KEY the bytes of KB from KCNT on are 0 and the HMAC flag is set, and outside an HMAC call
KB, KCNT and ID are 0. -/
def Obligations.EveryStepKeepsRegisterInv : Prop :=
  ∀ s t : State, s.eng.registerInv → step s = .next t → t.eng.registerInv

/-- The three invariants hold at reset (R43). -/
def Obligations.ResetMeetsTheInvariants : Prop :=
  State.reset.eng.controlInv ∧ State.reset.eng.counterInv ∧ State.reset.eng.registerInv

/-- R33, R44: a command writes ERR only where it enters ERROR or where it is CLEAR, which leaves the reset state. -/
def Obligations.ErrIsWrittenOnlyByErrorEntryAndClear : Prop :=
  ∀ (i : Instr) (s t : State), exec i s = .next t → t.eng.err ≠ s.eng.err →
    t.eng.state = .error ∨ (i = .clear ∧ t.eng = Engine.reset)
end

