-- ==== Sys2Proof/Laws/State.lean ====
section
/-! SUPPORT. One lemma for each field of the engine and each update of it, so that no proof unfolds a record update. -/

namespace Sys2Proof.Machine

@[simp] theorem enterError_state (c : Err) (e : Engine) : (Engine.enterError c e).state = .error := rfl
@[simp] theorem enterError_err (c : Err) (e : Engine) : (Engine.enterError c e).err = c := rfl
@[simp] theorem enterError_hmac (c : Err) (e : Engine) : (Engine.enterError c e).hmac = e.hmac := rfl
@[simp] theorem enterError_alg (c : Err) (e : Engine) : (Engine.enterError c e).alg = e.alg := rfl
@[simp] theorem enterError_h (c : Err) (e : Engine) : (Engine.enterError c e).h = e.h := rfl
@[simp] theorem enterError_w (c : Err) (e : Engine) : (Engine.enterError c e).w = e.w := rfl
@[simp] theorem enterError_pos (c : Err) (e : Engine) : (Engine.enterError c e).pos = e.pos := rfl
@[simp] theorem enterError_mlen (c : Err) (e : Engine) : (Engine.enterError c e).mlen = e.mlen := rfl
@[simp] theorem enterError_kb (c : Err) (e : Engine) : (Engine.enterError c e).kb = e.kb := rfl
@[simp] theorem enterError_kcnt (c : Err) (e : Engine) : (Engine.enterError c e).kcnt = e.kcnt := rfl
@[simp] theorem enterError_idb (c : Err) (e : Engine) : (Engine.enterError c e).idb = e.idb := rfl
@[simp] theorem enterError_sv (c : Err) (e : Engine) : (Engine.enterError c e).sv = e.sv := rfl
@[simp] theorem enterError_j (c : Err) (e : Engine) : (Engine.enterError c e).j = e.j := rfl

@[simp] theorem saveRegisters_state (n : Nat) (e : Engine) : (Engine.saveRegisters n e).state = e.state := rfl
@[simp] theorem saveRegisters_err (n : Nat) (e : Engine) : (Engine.saveRegisters n e).err = e.err := rfl
@[simp] theorem saveRegisters_hmac (n : Nat) (e : Engine) : (Engine.saveRegisters n e).hmac = e.hmac := rfl
@[simp] theorem saveRegisters_alg (n : Nat) (e : Engine) : (Engine.saveRegisters n e).alg = e.alg := rfl
@[simp] theorem saveRegisters_h (n : Nat) (e : Engine) : (Engine.saveRegisters n e).h = e.h := rfl
@[simp] theorem saveRegisters_w (n : Nat) (e : Engine) : (Engine.saveRegisters n e).w = e.w := rfl
@[simp] theorem saveRegisters_pos (n : Nat) (e : Engine) : (Engine.saveRegisters n e).pos = e.pos := rfl
@[simp] theorem saveRegisters_mlen (n : Nat) (e : Engine) : (Engine.saveRegisters n e).mlen = e.mlen := rfl
@[simp] theorem saveRegisters_kb (n : Nat) (e : Engine) : (Engine.saveRegisters n e).kb = e.kb := rfl
@[simp] theorem saveRegisters_kcnt (n : Nat) (e : Engine) : (Engine.saveRegisters n e).kcnt = e.kcnt := rfl
@[simp] theorem saveRegisters_idb (n : Nat) (e : Engine) : (Engine.saveRegisters n e).idb = e.idb := rfl
@[simp] theorem saveRegisters_sv (n : Nat) (e : Engine) : (Engine.saveRegisters n e).sv = saveFirst e.h e.sv n := rfl
@[simp] theorem saveRegisters_j (n : Nat) (e : Engine) : (Engine.saveRegisters n e).j = e.j := rfl

@[simp] theorem addBack_state (rs : List Word) (e : Engine) : (Engine.addBack rs e).state = e.state := rfl
@[simp] theorem addBack_err (rs : List Word) (e : Engine) : (Engine.addBack rs e).err = e.err := rfl
@[simp] theorem addBack_hmac (rs : List Word) (e : Engine) : (Engine.addBack rs e).hmac = e.hmac := rfl
@[simp] theorem addBack_alg (rs : List Word) (e : Engine) : (Engine.addBack rs e).alg = e.alg := rfl
@[simp] theorem addBack_h (rs : List Word) (e : Engine) : (Engine.addBack rs e).h = feedForward e.sv e.h 0 rs := rfl
@[simp] theorem addBack_w (rs : List Word) (e : Engine) : (Engine.addBack rs e).w = e.w := rfl
@[simp] theorem addBack_pos (rs : List Word) (e : Engine) : (Engine.addBack rs e).pos = e.pos := rfl
@[simp] theorem addBack_mlen (rs : List Word) (e : Engine) : (Engine.addBack rs e).mlen = e.mlen := rfl
@[simp] theorem addBack_kb (rs : List Word) (e : Engine) : (Engine.addBack rs e).kb = e.kb := rfl
@[simp] theorem addBack_kcnt (rs : List Word) (e : Engine) : (Engine.addBack rs e).kcnt = e.kcnt := rfl
@[simp] theorem addBack_idb (rs : List Word) (e : Engine) : (Engine.addBack rs e).idb = e.idb := rfl
@[simp] theorem addBack_sv (rs : List Word) (e : Engine) : (Engine.addBack rs e).sv = e.sv := rfl
@[simp] theorem addBack_j (rs : List Word) (e : Engine) : (Engine.addBack rs e).j = 0 := rfl

@[simp] theorem loadIV_state (e : Engine) : (Engine.loadIV e).state = e.state := rfl
@[simp] theorem loadIV_err (e : Engine) : (Engine.loadIV e).err = e.err := rfl
@[simp] theorem loadIV_hmac (e : Engine) : (Engine.loadIV e).hmac = e.hmac := rfl
@[simp] theorem loadIV_alg (e : Engine) : (Engine.loadIV e).alg = e.alg := rfl
@[simp] theorem loadIV_h (e : Engine) : (Engine.loadIV e).h = hashState e.alg.iv := rfl
@[simp] theorem loadIV_w (e : Engine) : (Engine.loadIV e).w = e.w := rfl
@[simp] theorem loadIV_pos (e : Engine) : (Engine.loadIV e).pos = e.pos := rfl
@[simp] theorem loadIV_mlen (e : Engine) : (Engine.loadIV e).mlen = e.mlen := rfl
@[simp] theorem loadIV_kb (e : Engine) : (Engine.loadIV e).kb = e.kb := rfl
@[simp] theorem loadIV_kcnt (e : Engine) : (Engine.loadIV e).kcnt = e.kcnt := rfl
@[simp] theorem loadIV_idb (e : Engine) : (Engine.loadIV e).idb = e.idb := rfl
@[simp] theorem loadIV_sv (e : Engine) : (Engine.loadIV e).sv = e.sv := rfl
@[simp] theorem loadIV_j (e : Engine) : (Engine.loadIV e).j = e.j := rfl

@[simp] theorem putByte_state (p : BitVec 6) (b : Byte) (e : Engine) : (Engine.putByte p b e).state = e.state := rfl
@[simp] theorem putByte_err (p : BitVec 6) (b : Byte) (e : Engine) : (Engine.putByte p b e).err = e.err := rfl
@[simp] theorem putByte_hmac (p : BitVec 6) (b : Byte) (e : Engine) : (Engine.putByte p b e).hmac = e.hmac := rfl
@[simp] theorem putByte_alg (p : BitVec 6) (b : Byte) (e : Engine) : (Engine.putByte p b e).alg = e.alg := rfl
@[simp] theorem putByte_h (p : BitVec 6) (b : Byte) (e : Engine) : (Engine.putByte p b e).h = e.h := rfl
@[simp] theorem putByte_w (p : BitVec 6) (b : Byte) (e : Engine) : (Engine.putByte p b e).w = setAt e.w (wordIndex p) (setLane e.alg.little (laneIndex p) b (e.wAt (wordIndex p))) := rfl
@[simp] theorem putByte_pos (p : BitVec 6) (b : Byte) (e : Engine) : (Engine.putByte p b e).pos = e.pos := rfl
@[simp] theorem putByte_mlen (p : BitVec 6) (b : Byte) (e : Engine) : (Engine.putByte p b e).mlen = e.mlen := rfl
@[simp] theorem putByte_kb (p : BitVec 6) (b : Byte) (e : Engine) : (Engine.putByte p b e).kb = e.kb := rfl
@[simp] theorem putByte_kcnt (p : BitVec 6) (b : Byte) (e : Engine) : (Engine.putByte p b e).kcnt = e.kcnt := rfl
@[simp] theorem putByte_idb (p : BitVec 6) (b : Byte) (e : Engine) : (Engine.putByte p b e).idb = e.idb := rfl
@[simp] theorem putByte_sv (p : BitVec 6) (b : Byte) (e : Engine) : (Engine.putByte p b e).sv = e.sv := rfl
@[simp] theorem putByte_j (p : BitVec 6) (b : Byte) (e : Engine) : (Engine.putByte p b e).j = e.j := rfl

@[simp] theorem advance_state (e : Engine) : (Engine.advance e).state = e.state := rfl
@[simp] theorem advance_err (e : Engine) : (Engine.advance e).err = e.err := rfl
@[simp] theorem advance_hmac (e : Engine) : (Engine.advance e).hmac = e.hmac := rfl
@[simp] theorem advance_alg (e : Engine) : (Engine.advance e).alg = e.alg := rfl
@[simp] theorem advance_h (e : Engine) : (Engine.advance e).h = e.h := rfl
@[simp] theorem advance_w (e : Engine) : (Engine.advance e).w = e.w := rfl
@[simp] theorem advance_pos (e : Engine) : (Engine.advance e).pos = e.pos + 1 := rfl
@[simp] theorem advance_mlen (e : Engine) : (Engine.advance e).mlen = e.mlen := rfl
@[simp] theorem advance_kb (e : Engine) : (Engine.advance e).kb = e.kb := rfl
@[simp] theorem advance_kcnt (e : Engine) : (Engine.advance e).kcnt = e.kcnt := rfl
@[simp] theorem advance_idb (e : Engine) : (Engine.advance e).idb = e.idb := rfl
@[simp] theorem advance_sv (e : Engine) : (Engine.advance e).sv = e.sv := rfl
@[simp] theorem advance_j (e : Engine) : (Engine.advance e).j = e.j := rfl

@[simp] theorem countByte_state (e : Engine) : (Engine.countByte e).state = e.state := rfl
@[simp] theorem countByte_err (e : Engine) : (Engine.countByte e).err = e.err := rfl
@[simp] theorem countByte_hmac (e : Engine) : (Engine.countByte e).hmac = e.hmac := rfl
@[simp] theorem countByte_alg (e : Engine) : (Engine.countByte e).alg = e.alg := rfl
@[simp] theorem countByte_h (e : Engine) : (Engine.countByte e).h = e.h := rfl
@[simp] theorem countByte_w (e : Engine) : (Engine.countByte e).w = e.w := rfl
@[simp] theorem countByte_pos (e : Engine) : (Engine.countByte e).pos = e.pos := rfl
@[simp] theorem countByte_mlen (e : Engine) : (Engine.countByte e).mlen = e.mlen + 8 := rfl
@[simp] theorem countByte_kb (e : Engine) : (Engine.countByte e).kb = e.kb := rfl
@[simp] theorem countByte_kcnt (e : Engine) : (Engine.countByte e).kcnt = e.kcnt := rfl
@[simp] theorem countByte_idb (e : Engine) : (Engine.countByte e).idb = e.idb := rfl
@[simp] theorem countByte_sv (e : Engine) : (Engine.countByte e).sv = e.sv := rfl
@[simp] theorem countByte_j (e : Engine) : (Engine.countByte e).j = e.j := rfl

@[simp] theorem placeLength_state (e : Engine) : (Engine.placeLength e).state = e.state := rfl
@[simp] theorem placeLength_err (e : Engine) : (Engine.placeLength e).err = e.err := rfl
@[simp] theorem placeLength_hmac (e : Engine) : (Engine.placeLength e).hmac = e.hmac := rfl
@[simp] theorem placeLength_alg (e : Engine) : (Engine.placeLength e).alg = e.alg := rfl
@[simp] theorem placeLength_h (e : Engine) : (Engine.placeLength e).h = e.h := rfl
@[simp] theorem placeLength_w (e : Engine) : (Engine.placeLength e).w = setAt (setAt e.w 14 (lengthWords e.alg.little e.mlen).1) 15 (lengthWords e.alg.little e.mlen).2 := rfl
@[simp] theorem placeLength_pos (e : Engine) : (Engine.placeLength e).pos = 0 := rfl
@[simp] theorem placeLength_mlen (e : Engine) : (Engine.placeLength e).mlen = e.mlen := rfl
@[simp] theorem placeLength_kb (e : Engine) : (Engine.placeLength e).kb = e.kb := rfl
@[simp] theorem placeLength_kcnt (e : Engine) : (Engine.placeLength e).kcnt = e.kcnt := rfl
@[simp] theorem placeLength_idb (e : Engine) : (Engine.placeLength e).idb = e.idb := rfl
@[simp] theorem placeLength_sv (e : Engine) : (Engine.placeLength e).sv = e.sv := rfl
@[simp] theorem placeLength_j (e : Engine) : (Engine.placeLength e).j = e.j := rfl

@[simp] theorem restartHash_state (e : Engine) : (Engine.restartHash e).state = e.state := rfl
@[simp] theorem restartHash_err (e : Engine) : (Engine.restartHash e).err = e.err := rfl
@[simp] theorem restartHash_hmac (e : Engine) : (Engine.restartHash e).hmac = e.hmac := rfl
@[simp] theorem restartHash_alg (e : Engine) : (Engine.restartHash e).alg = e.alg := rfl
@[simp] theorem restartHash_h (e : Engine) : (Engine.restartHash e).h = hashState e.alg.iv := rfl
@[simp] theorem restartHash_w (e : Engine) : (Engine.restartHash e).w = e.w := rfl
@[simp] theorem restartHash_pos (e : Engine) : (Engine.restartHash e).pos = 0 := rfl
@[simp] theorem restartHash_mlen (e : Engine) : (Engine.restartHash e).mlen = 0 := rfl
@[simp] theorem restartHash_kb (e : Engine) : (Engine.restartHash e).kb = e.kb := rfl
@[simp] theorem restartHash_kcnt (e : Engine) : (Engine.restartHash e).kcnt = e.kcnt := rfl
@[simp] theorem restartHash_idb (e : Engine) : (Engine.restartHash e).idb = e.idb := rfl
@[simp] theorem restartHash_sv (e : Engine) : (Engine.restartHash e).sv = e.sv := rfl
@[simp] theorem restartHash_j (e : Engine) : (Engine.restartHash e).j = e.j := rfl

@[simp] theorem keyFromDigest_state (e : Engine) : (Engine.keyFromDigest e).state = e.state := rfl
@[simp] theorem keyFromDigest_err (e : Engine) : (Engine.keyFromDigest e).err = e.err := rfl
@[simp] theorem keyFromDigest_hmac (e : Engine) : (Engine.keyFromDigest e).hmac = e.hmac := rfl
@[simp] theorem keyFromDigest_alg (e : Engine) : (Engine.keyFromDigest e).alg = e.alg := rfl
@[simp] theorem keyFromDigest_h (e : Engine) : (Engine.keyFromDigest e).h = e.h := rfl
@[simp] theorem keyFromDigest_w (e : Engine) : (Engine.keyFromDigest e).w = e.w := rfl
@[simp] theorem keyFromDigest_pos (e : Engine) : (Engine.keyFromDigest e).pos = e.pos := rfl
@[simp] theorem keyFromDigest_mlen (e : Engine) : (Engine.keyFromDigest e).mlen = e.mlen := rfl
@[simp] theorem keyFromDigest_kb (e : Engine) : (Engine.keyFromDigest e).kb = storeFrom (Vector.replicate 64 0) 0 e.digestBytes := rfl
@[simp] theorem keyFromDigest_kcnt (e : Engine) : (Engine.keyFromDigest e).kcnt = e.kcnt := rfl
@[simp] theorem keyFromDigest_idb (e : Engine) : (Engine.keyFromDigest e).idb = e.idb := rfl
@[simp] theorem keyFromDigest_sv (e : Engine) : (Engine.keyFromDigest e).sv = e.sv := rfl
@[simp] theorem keyFromDigest_j (e : Engine) : (Engine.keyFromDigest e).j = e.j := rfl

@[simp] theorem keepInner_state (e : Engine) : (Engine.keepInner e).state = e.state := rfl
@[simp] theorem keepInner_err (e : Engine) : (Engine.keepInner e).err = e.err := rfl
@[simp] theorem keepInner_hmac (e : Engine) : (Engine.keepInner e).hmac = e.hmac := rfl
@[simp] theorem keepInner_alg (e : Engine) : (Engine.keepInner e).alg = e.alg := rfl
@[simp] theorem keepInner_h (e : Engine) : (Engine.keepInner e).h = e.h := rfl
@[simp] theorem keepInner_w (e : Engine) : (Engine.keepInner e).w = e.w := rfl
@[simp] theorem keepInner_pos (e : Engine) : (Engine.keepInner e).pos = e.pos := rfl
@[simp] theorem keepInner_mlen (e : Engine) : (Engine.keepInner e).mlen = e.mlen := rfl
@[simp] theorem keepInner_kb (e : Engine) : (Engine.keepInner e).kb = e.kb := rfl
@[simp] theorem keepInner_kcnt (e : Engine) : (Engine.keepInner e).kcnt = e.kcnt := rfl
@[simp] theorem keepInner_idb (e : Engine) : (Engine.keepInner e).idb = storeFrom (Vector.replicate 32 0) 0 e.digestBytes := rfl
@[simp] theorem keepInner_sv (e : Engine) : (Engine.keepInner e).sv = e.sv := rfl
@[simp] theorem keepInner_j (e : Engine) : (Engine.keepInner e).j = e.j := rfl

@[simp] theorem openCall_state (m : Bool) (a : Alg) (c : Ctl) (e : Engine) : (Engine.openCall m a c e).state = c := rfl
@[simp] theorem openCall_err (m : Bool) (a : Alg) (c : Ctl) (e : Engine) : (Engine.openCall m a c e).err = e.err := rfl
@[simp] theorem openCall_hmac (m : Bool) (a : Alg) (c : Ctl) (e : Engine) : (Engine.openCall m a c e).hmac = m := rfl
@[simp] theorem openCall_alg (m : Bool) (a : Alg) (c : Ctl) (e : Engine) : (Engine.openCall m a c e).alg = a := rfl
@[simp] theorem openCall_h (m : Bool) (a : Alg) (c : Ctl) (e : Engine) : (Engine.openCall m a c e).h = hashState a.iv := rfl
@[simp] theorem openCall_w (m : Bool) (a : Alg) (c : Ctl) (e : Engine) : (Engine.openCall m a c e).w = Vector.replicate 80 0 := rfl
@[simp] theorem openCall_pos (m : Bool) (a : Alg) (c : Ctl) (e : Engine) : (Engine.openCall m a c e).pos = 0 := rfl
@[simp] theorem openCall_mlen (m : Bool) (a : Alg) (c : Ctl) (e : Engine) : (Engine.openCall m a c e).mlen = 0 := rfl
@[simp] theorem openCall_kb (m : Bool) (a : Alg) (c : Ctl) (e : Engine) : (Engine.openCall m a c e).kb = Vector.replicate 64 0 := rfl
@[simp] theorem openCall_kcnt (m : Bool) (a : Alg) (c : Ctl) (e : Engine) : (Engine.openCall m a c e).kcnt = 0 := rfl
@[simp] theorem openCall_idb (m : Bool) (a : Alg) (c : Ctl) (e : Engine) : (Engine.openCall m a c e).idb = Vector.replicate 32 0 := rfl
@[simp] theorem openCall_sv (m : Bool) (a : Alg) (c : Ctl) (e : Engine) : (Engine.openCall m a c e).sv = Vector.replicate 8 0 := rfl
@[simp] theorem openCall_j (m : Bool) (a : Alg) (c : Ctl) (e : Engine) : (Engine.openCall m a c e).j = 0 := rfl

/-- CLEAR gives the reset engine whatever the engine was (40_commands.md rule R107). -/
@[simp] theorem clear_eq_reset (e : Engine) : e.clear = Engine.reset := rfl

@[simp] theorem mapEng_eng (s : State) (f : Engine → Engine) : (s.mapEng f).eng = f s.eng := rfl
@[simp] theorem mapEng_host (s : State) (f : Engine → Engine) : (s.mapEng f).host = s.host := rfl
@[simp] theorem mapEng_replies (s : State) (f : Engine → Engine) : (s.mapEng f).replies = s.replies := rfl

@[simp] theorem reset_state : Engine.reset.state = .idle := rfl
@[simp] theorem reset_err : Engine.reset.err = .none := rfl
@[simp] theorem reset_hmac : Engine.reset.hmac = false := rfl
@[simp] theorem reset_alg : Engine.reset.alg = .md4 := rfl
@[simp] theorem reset_pos : Engine.reset.pos = 0 := rfl
@[simp] theorem reset_mlen : Engine.reset.mlen = 0 := rfl
@[simp] theorem reset_kcnt : Engine.reset.kcnt = 0 := rfl
@[simp] theorem reset_j : Engine.reset.j = 0 := rfl
@[simp] theorem reset_h : Engine.reset.h = Vector.replicate 8 0 := rfl
@[simp] theorem reset_w : Engine.reset.w = Vector.replicate 80 0 := rfl
@[simp] theorem reset_kb : Engine.reset.kb = Vector.replicate 64 0 := rfl
@[simp] theorem reset_idb : Engine.reset.idb = Vector.replicate 32 0 := rfl
@[simp] theorem reset_sv : Engine.reset.sv = Vector.replicate 8 0 := rfl

end Sys2Proof.Machine
end

