-- ==== Sys2Proof/Laws/Ops.lean ====
section
/-! SUPPORT. What the shared operations do, one lemma for each: register files, error entry, the guards of a command. -/

namespace Sys2Proof.Machine

section files

variable {α : Type} {n : Nat}

/-- A read after a write to a register file. -/
theorem getAt_setAt (v : Vector α n) (i k : Nat) (x d : α) :
    getAt (setAt v i x) k d = if k = i ∧ i < n then x else getAt v k d := by
  unfold getAt setAt
  rw [Vector.getElem?_setIfInBounds]
  by_cases h : i = k
  · subst h
    by_cases hi : i < n
    · simp [hi]
    · simp [hi]
  · simp [h, Ne.symm h]

theorem getAt_setAt_self (v : Vector α n) (i : Nat) (x d : α) (h : i < n) : getAt (setAt v i x) i d = x := by
  simp [getAt_setAt, h]

theorem getAt_setAt_ne (v : Vector α n) (i k : Nat) (x d : α) (h : k ≠ i) :
    getAt (setAt v i x) k d = getAt v k d := by
  simp [getAt_setAt, h]

/-- A read outside the file. -/
theorem getAt_of_le (v : Vector α n) (i : Nat) (d : α) (h : n ≤ i) : getAt v i d = d := by
  simp [getAt, h]

theorem getAt_of_lt (v : Vector α n) (i : Nat) (d : α) (h : i < n) : getAt v i d = v[i] := by
  simp [getAt, h]

@[simp] theorem getAt_replicate (i : Nat) (x : α) : getAt (Vector.replicate n x) i x = x := by
  by_cases h : i < n
  · rw [getAt_of_lt _ _ _ h]
    simp
  · exact getAt_of_le _ _ _ (by omega)

/-- Two register files that read the same are the same. -/
theorem file_ext (v w : Vector α n) (d : α) (h : ∀ i, i < n → getAt v i d = getAt w i d) : v = w := by
  ext i hi
  have := h i hi
  rwa [getAt_of_lt _ _ _ hi, getAt_of_lt _ _ _ hi] at this

/-- The file as a list, through reads. -/
theorem toList_eq_map_getAt (v : Vector α n) (d : α) : v.toList = (List.range n).map (fun i => getAt v i d) := by
  apply List.ext_getElem
  · simp
  · intro i h₁ h₂
    have hi : i < n := by simpa using h₁
    simp [getAt_of_lt v i d hi]

end files

/-- What bytes stored one after the other leave at each index. -/
theorem getAt_storeFrom {n : Nat} (bs : List Byte) (v : Vector Byte n) (i k : Nat) :
    getAt (storeFrom v i bs) k 0 = if i ≤ k ∧ k < i + bs.length ∧ k < n then bs.getD (k - i) 0 else getAt v k 0 := by
  induction bs generalizing v i with
  | nil =>
    have : ¬ (i ≤ k ∧ k < i + 0 ∧ k < n) := by omega
    simp only [storeFrom, List.length_nil, this, if_false]
  | cons b bs ih =>
    rw [storeFrom, ih, List.length_cons]
    by_cases h : k = i
    · subst h
      by_cases hk : k < n
      · simp [hk, getAt_setAt]
      · simp [hk, getAt_setAt]
    · rw [getAt_setAt_ne _ _ _ _ _ h]
      by_cases h' : i + 1 ≤ k ∧ k < i + 1 + bs.length ∧ k < n
      · have e : k - i = (k - (i + 1)) + 1 := by omega
        have h'' : i ≤ k ∧ k < i + (bs.length + 1) ∧ k < n := by omega
        rw [if_pos h', if_pos h'', e, List.getD_cons_succ]
      · have h'' : ¬ (i ≤ k ∧ k < i + (bs.length + 1) ∧ k < n) := by omega
        rw [if_neg h', if_neg h'']

/-- What the feed-forward leaves in each register. -/
theorem getAt_feedForward (rs : List Word) (sv h : Vector Word 8) (i k : Nat) (hb : i + rs.length ≤ 8) :
    getAt (feedForward sv h i rs) k 0 =
      if i ≤ k ∧ k < i + rs.length then getAt sv k 0 + rs.getD (k - i) 0 else getAt h k 0 := by
  induction rs generalizing h i with
  | nil =>
    have : ¬ (i ≤ k ∧ k < i + 0) := by omega
    simp only [feedForward, List.length_nil, this, if_false]
  | cons r rs ih =>
    rw [List.length_cons] at hb ⊢
    rw [feedForward, ih _ _ (by omega)]
    by_cases hk : k = i
    · subst hk
      have h₁ : ¬ (k + 1 ≤ k ∧ k < k + 1 + rs.length) := by omega
      have h₂ : k ≤ k ∧ k < k + (rs.length + 1) := by omega
      rw [if_neg h₁, if_pos h₂, getAt_setAt_self _ _ _ _ (by omega), Nat.sub_self, List.getD_cons_zero]
    · rw [getAt_setAt_ne _ _ _ _ _ hk]
      by_cases h' : i + 1 ≤ k ∧ k < i + 1 + rs.length
      · have e : k - i = (k - (i + 1)) + 1 := by omega
        have h'' : i ≤ k ∧ k < i + (rs.length + 1) := by omega
        rw [if_pos h', if_pos h'', e, List.getD_cons_succ]
      · have h'' : ¬ (i ≤ k ∧ k < i + (rs.length + 1)) := by omega
        rw [if_neg h', if_neg h'']

/-- A fold that writes each index of a range from a function: what it leaves. -/
theorem getAt_foldl_setAt {α : Type} {n : Nat} (f : Nat → α) (m : Nat) (v : Vector α n) (k : Nat) (d : α) :
    getAt ((List.range m).foldl (fun v i => setAt v i (f i)) v) k d =
      if k < m ∧ k < n then f k else getAt v k d := by
  induction m with
  | zero => simp
  | succ m ih =>
    rw [List.range_succ, List.foldl_append, List.foldl_cons, List.foldl_nil, getAt_setAt, ih]
    by_cases hk : k = m
    · subst hk
      by_cases hn : k < n
      · simp [hn]
      · simp [hn]
    · by_cases h' : k < m ∧ k < n
      · have h'' : k < m + 1 ∧ k < n := by omega
        simp [hk, h', h'']
      · have h'' : ¬ (k < m + 1 ∧ k < n) := by omega
        simp only [hk, false_and, if_false, if_neg h', if_neg h'']

/-- SV after the save of the first `m` registers (R25). -/
theorem getAt_saveFirst (h sv : Vector Word 8) (m k : Nat) (hm : m ≤ 8) :
    getAt (saveFirst h sv m) k 0 = if k < m then getAt h k 0 else getAt sv k 0 := by
  unfold saveFirst
  rw [getAt_foldl_setAt]
  by_cases hk : k < m
  · have : k < m ∧ k < 8 := by omega
    simp [hk, this]
  · simp [hk]

/-- The registers of a list (R47). -/
theorem getAt_hashState (rs : List Word) (k : Nat) : getAt (hashState rs) k 0 = if k < 8 then rs.getD k 0 else 0 := by
  unfold hashState
  rw [getAt_foldl_setAt, getAt_replicate]
  by_cases hk : k < 8
  · simp [hk]
  · simp [hk]

/-- The feed-forward adds the saved registers; saving first changes nothing. -/
theorem feedForward_save (rs : List Word) (h sv : Vector Word 8) (m : Nat) (hm : m ≤ 8) (hl : rs.length = m) :
    feedForward (saveFirst h sv m) h 0 rs = feedForward h h 0 rs := by
  apply file_ext _ _ (0 : Word)
  intro k _
  rw [getAt_feedForward _ _ _ _ _ (by omega), getAt_feedForward _ _ _ _ _ (by omega)]
  by_cases hk : 0 ≤ k ∧ k < 0 + rs.length
  · rw [if_pos hk, if_pos hk, getAt_saveFirst _ _ _ _ hm, if_pos (by omega)]
  · rw [if_neg hk, if_neg hk]

section guards

variable (s : State) (k : Result)

theorem complete_eq (f : Engine → Engine) : complete s f = .next (s.mapEng f) := rfl

theorem raise_eq (c : Err) :
    raise c s = .next { s with eng := { s.eng with err := c, state := .error } } := rfl

@[simp] theorem unlessError_error (h : s.eng.state = .error) : unlessError s k = .next s := by
  simp [unlessError, h]

@[simp] theorem unlessError_ok (h : s.eng.state ≠ .error) : unlessError s k = k := by
  simp [unlessError, h]

@[simp] theorem requireState_ok (c : Ctl) (h : s.eng.state = c) : requireState c s k = k := by
  simp [requireState, h]

@[simp] theorem requireState_bad (c : Ctl) (h : s.eng.state ≠ c) : requireState c s k = raise .seq s := by
  simp [requireState, h]

/-- A code of 4 or more names no algorithm (R85). -/
theorem ofCode_none (a : Byte) (h : 4 ≤ a.toNat) : Alg.ofCode a = none := by
  have h0 : a ≠ 0 := by rintro rfl; simp at h
  have h1 : a ≠ 1 := by rintro rfl; simp at h
  have h2 : a ≠ 2 := by rintro rfl; simp at h
  have h3 : a ≠ 3 := by rintro rfl; simp at h
  rw [Alg.ofCode, if_neg h0, if_neg h1, if_neg h2, if_neg h3]

/-- The code of an algorithm names it (R85). -/
@[simp] theorem ofCode_code (a : Alg) : Alg.ofCode (a.code.setWidth 8) = some a := by
  cases a <;> decide

theorem ofCode_some (a : Byte) (h : a.toNat ≤ 3) : ∃ g : Alg, Alg.ofCode a = some g ∧ a = g.code.setWidth 8 := by
  have : a = 0 ∨ a = 1 ∨ a = 2 ∨ a = 3 := by
    rcases a with ⟨⟨n, hn⟩⟩
    simp only [BitVec.toNat, BitVec.ofFin_eq_ofNat] at h ⊢
    interval_cases n <;> decide
  rcases this with rfl | rfl | rfl | rfl
  · exact ⟨.md4, by decide, by decide⟩
  · exact ⟨.md5, by decide, by decide⟩
  · exact ⟨.sha1, by decide, by decide⟩
  · exact ⟨.sha256, by decide, by decide⟩

theorem withAlg_some (a : Byte) (g : Alg) (f : Alg → Result) (h : Alg.ofCode a = some g) : withAlg a s f = f g := by
  simp [withAlg, h]

theorem withAlg_none (a : Byte) (f : Alg → Result) (h : Alg.ofCode a = none) : withAlg a s f = raise .alg s := by
  simp [withAlg, h]

end guards

@[simp] theorem arity_le (a : Alg) : a.arity ≤ 8 := by cases a <;> decide

end Sys2Proof.Machine
end

