-- ==== Sys2Proof/Laws/Packer.lean ====
section
/-! SUPPORT. What the compression and the packer's operations leave alone and what they write. -/

namespace Sys2Proof.Machine

section schedule

/-- A schedule writes only the indices it runs over. -/
theorem getAt_foldl_other {n : Nat} (step : Vector Word n → Nat → Vector Word n) (k : Nat)
    (hstep : ∀ v i, k ≠ i → getAt (step v i) k 0 = getAt v k 0) (is : List Nat) (v : Vector Word n)
    (h : ∀ i, i ∈ is → k ≠ i) : getAt (is.foldl step v) k 0 = getAt v k 0 := by
  induction is generalizing v with
  | nil => rfl
  | cons i is ih =>
    rw [List.foldl_cons, ih _ (fun j hj => h j (List.mem_cons_of_mem _ hj)), hstep _ _ (h i List.mem_cons_self)]

/-- The SHA-1 schedule keeps the block words (R202). -/
theorem sha1Schedule_block (w : Vector Word 80) (k : Nat) (h : k < 16) :
    getAt (sha1Schedule w) k 0 = getAt w k 0 := by
  unfold sha1Schedule
  apply getAt_foldl_other
  · intro v i hi
    exact getAt_setAt_ne _ _ _ _ _ hi
  · intro i hi
    rw [List.mem_range'_1] at hi
    omega

/-- The SHA-256 schedule keeps the block words and the words from 64 on (R223). -/
theorem sha256Schedule_other (w : Vector Word 80) (k : Nat) (h : k < 16 ∨ 64 ≤ k) :
    getAt (sha256Schedule w) k 0 = getAt w k 0 := by
  unfold sha256Schedule
  apply getAt_foldl_other
  · intro v i hi
    exact getAt_setAt_ne _ _ _ _ _ hi
  · intro i hi
    rw [List.mem_range'_1] at hi
    omega

end schedule

section compress

variable (e : Engine)

theorem compressMd4_h : e.compressMd4.h = md4Block e.h e.w := by
  rw [Engine.compressMd4, addBack_h, saveRegisters_sv, saveRegisters_h, md4Block,
    feedForward_save _ _ _ 4 (by decide) (by simp [Regs4.list])]

theorem compressMd5_h : e.compressMd5.h = md5Block e.h e.w := by
  rw [Engine.compressMd5, addBack_h, saveRegisters_sv, saveRegisters_h, md5Block,
    feedForward_save _ _ _ 4 (by decide) (by simp [Regs4.list])]

theorem compressSha1_h : e.compressSha1.h = sha1Block e.h e.w := by
  rw [Engine.compressSha1, addBack_h, saveRegisters_sv, saveRegisters_h, sha1Block,
    feedForward_save _ _ _ 5 (by decide) (by simp [Regs5.list])]

theorem compressSha256_h : e.compressSha256.h = sha256Block e.h e.w := by
  rw [Engine.compressSha256, addBack_h, saveRegisters_sv, saveRegisters_h, sha256Block,
    feedForward_save _ _ _ 8 (by decide) (by simp [Regs8.list])]

/-- The registers after a compression (R147). -/
theorem compress_h : e.compress.h = blockFn e.alg e.h e.w := by
  cases h : e.alg
  · rw [Engine.compress, h]
    exact compressMd4_h e
  · rw [Engine.compress, h]
    exact compressMd5_h e
  · rw [Engine.compress, h]
    exact compressSha1_h e
  · rw [Engine.compress, h]
    exact compressSha256_h e

/-- The schedule memory after a compression. -/
theorem compress_w : e.compress.w =
    match e.alg with
    | .md4 => e.w
    | .md5 => e.w
    | .sha1 => sha1Schedule e.w
    | .sha256 => sha256Schedule e.w := by
  unfold Engine.compress
  split <;> rename_i h <;>
    simp [h, Engine.compressMd4, Engine.compressMd5, Engine.compressSha1, Engine.compressSha256]

/-- The saved registers after a compression (R25). -/
theorem compress_sv : e.compress.sv = saveFirst e.h e.sv e.alg.arity := by
  unfold Engine.compress
  split <;> rename_i h <;>
    simp [h, Alg.arity, Engine.compressMd4, Engine.compressMd5, Engine.compressSha1, Engine.compressSha256]

@[simp] theorem compress_j : e.compress.j = 0 := by
  unfold Engine.compress
  split <;> simp [Engine.compressMd4, Engine.compressMd5, Engine.compressSha1, Engine.compressSha256]

@[simp] theorem compress_state : e.compress.state = e.state := by
  unfold Engine.compress
  split <;> simp [Engine.compressMd4, Engine.compressMd5, Engine.compressSha1, Engine.compressSha256]

@[simp] theorem compress_err : e.compress.err = e.err := by
  unfold Engine.compress
  split <;> simp [Engine.compressMd4, Engine.compressMd5, Engine.compressSha1, Engine.compressSha256]

@[simp] theorem compress_hmac : e.compress.hmac = e.hmac := by
  unfold Engine.compress
  split <;> simp [Engine.compressMd4, Engine.compressMd5, Engine.compressSha1, Engine.compressSha256]

@[simp] theorem compress_alg : e.compress.alg = e.alg := by
  unfold Engine.compress
  split <;> simp [Engine.compressMd4, Engine.compressMd5, Engine.compressSha1, Engine.compressSha256]

@[simp] theorem compress_pos : e.compress.pos = e.pos := by
  unfold Engine.compress
  split <;> simp [Engine.compressMd4, Engine.compressMd5, Engine.compressSha1, Engine.compressSha256]

@[simp] theorem compress_mlen : e.compress.mlen = e.mlen := by
  unfold Engine.compress
  split <;> simp [Engine.compressMd4, Engine.compressMd5, Engine.compressSha1, Engine.compressSha256]

@[simp] theorem compress_kb : e.compress.kb = e.kb := by
  unfold Engine.compress
  split <;> simp [Engine.compressMd4, Engine.compressMd5, Engine.compressSha1, Engine.compressSha256]

@[simp] theorem compress_kcnt : e.compress.kcnt = e.kcnt := by
  unfold Engine.compress
  split <;> simp [Engine.compressMd4, Engine.compressMd5, Engine.compressSha1, Engine.compressSha256]

@[simp] theorem compress_idb : e.compress.idb = e.idb := by
  unfold Engine.compress
  split <;> simp [Engine.compressMd4, Engine.compressMd5, Engine.compressSha1, Engine.compressSha256]

end compress

section absorb

variable (b : Byte) (e : Engine)

/-- Absorb either advances POS or, on the 64th byte, compresses as well (R142). -/
theorem absorb_cases : e.absorb b =
    if e.pos = 63 then (e.putByte e.pos b).advance.compress else (e.putByte e.pos b).advance := by
  unfold Engine.absorb Engine.compressIfFull
  have : (e.putByte e.pos b).advance.pos = 0 ↔ e.pos = 63 := by
    rw [advance_pos, putByte_pos]
    constructor <;> intro h
    · bv_omega
    · bv_omega
  simp only [this]

@[simp] theorem absorb_state : (e.absorb b).state = e.state := by rw [absorb_cases]; split <;> simp
@[simp] theorem absorb_err : (e.absorb b).err = e.err := by rw [absorb_cases]; split <;> simp
@[simp] theorem absorb_hmac : (e.absorb b).hmac = e.hmac := by rw [absorb_cases]; split <;> simp
@[simp] theorem absorb_alg : (e.absorb b).alg = e.alg := by rw [absorb_cases]; split <;> simp
@[simp] theorem absorb_pos : (e.absorb b).pos = e.pos + 1 := by rw [absorb_cases]; split <;> simp
@[simp] theorem absorb_mlen : (e.absorb b).mlen = e.mlen := by rw [absorb_cases]; split <;> simp
@[simp] theorem absorb_kb : (e.absorb b).kb = e.kb := by rw [absorb_cases]; split <;> simp
@[simp] theorem absorb_kcnt : (e.absorb b).kcnt = e.kcnt := by rw [absorb_cases]; split <;> simp
@[simp] theorem absorb_idb : (e.absorb b).idb = e.idb := by rw [absorb_cases]; split <;> simp

@[simp] theorem absorbMsg_state : (e.absorbMsg b).state = e.state := by simp [Engine.absorbMsg]
@[simp] theorem absorbMsg_err : (e.absorbMsg b).err = e.err := by simp [Engine.absorbMsg]
@[simp] theorem absorbMsg_hmac : (e.absorbMsg b).hmac = e.hmac := by simp [Engine.absorbMsg]
@[simp] theorem absorbMsg_alg : (e.absorbMsg b).alg = e.alg := by simp [Engine.absorbMsg]
@[simp] theorem absorbMsg_pos : (e.absorbMsg b).pos = e.pos + 1 := by simp [Engine.absorbMsg]
@[simp] theorem absorbMsg_mlen : (e.absorbMsg b).mlen = e.mlen + 8 := by simp [Engine.absorbMsg]
@[simp] theorem absorbMsg_kb : (e.absorbMsg b).kb = e.kb := by simp [Engine.absorbMsg]
@[simp] theorem absorbMsg_kcnt : (e.absorbMsg b).kcnt = e.kcnt := by simp [Engine.absorbMsg]
@[simp] theorem absorbMsg_idb : (e.absorbMsg b).idb = e.idb := by simp [Engine.absorbMsg]

end absorb

section absorbAll

/-- What a property of the engine every AbsorbMsg keeps says of absorbing a byte sequence. -/
theorem absorbAll_keeps (P : Engine → Prop) (h : ∀ b e, P e → P (e.absorbMsg b)) (bs : List Byte) (e : Engine)
    (he : P e) : P (e.absorbAll bs) := by
  induction bs generalizing e with
  | nil => exact he
  | cons b bs ih => exact ih _ (h b e he)

@[simp] theorem absorbAll_nil (e : Engine) : e.absorbAll [] = e := rfl

@[simp] theorem absorbAll_cons (b : Byte) (bs : List Byte) (e : Engine) :
    e.absorbAll (b :: bs) = (e.absorbMsg b).absorbAll bs := rfl

theorem absorbAll_append (bs cs : List Byte) (e : Engine) :
    e.absorbAll (bs ++ cs) = (e.absorbAll bs).absorbAll cs := List.foldl_append

variable (bs : List Byte) (e : Engine)

@[simp] theorem absorbAll_state : (e.absorbAll bs).state = e.state :=
  absorbAll_keeps (fun f => f.state = e.state) (by simp_all) bs e rfl
@[simp] theorem absorbAll_err : (e.absorbAll bs).err = e.err :=
  absorbAll_keeps (fun f => f.err = e.err) (by simp_all) bs e rfl
@[simp] theorem absorbAll_hmac : (e.absorbAll bs).hmac = e.hmac :=
  absorbAll_keeps (fun f => f.hmac = e.hmac) (by simp_all) bs e rfl
@[simp] theorem absorbAll_alg : (e.absorbAll bs).alg = e.alg :=
  absorbAll_keeps (fun f => f.alg = e.alg) (by simp_all) bs e rfl
@[simp] theorem absorbAll_kb : (e.absorbAll bs).kb = e.kb :=
  absorbAll_keeps (fun f => f.kb = e.kb) (by simp_all) bs e rfl
@[simp] theorem absorbAll_kcnt : (e.absorbAll bs).kcnt = e.kcnt :=
  absorbAll_keeps (fun f => f.kcnt = e.kcnt) (by simp_all) bs e rfl
@[simp] theorem absorbAll_idb : (e.absorbAll bs).idb = e.idb :=
  absorbAll_keeps (fun f => f.idb = e.idb) (by simp_all) bs e rfl

/-- POS counts the bytes absorbed, modulo 64 (R27). -/
theorem absorbAll_pos : (e.absorbAll bs).pos = e.pos + BitVec.ofNat 6 bs.length := by
  induction bs generalizing e with
  | nil => simp
  | cons b bs ih =>
    rw [absorbAll_cons, ih, absorbMsg_pos, List.length_cons]
    apply BitVec.eq_of_toNat_eq
    simp
    omega

/-- MLEN counts their bits, modulo 2^64 (R28). -/
theorem absorbAll_mlen : (e.absorbAll bs).mlen = e.mlen + BitVec.ofNat 64 (8 * bs.length) := by
  induction bs generalizing e with
  | nil => simp
  | cons b bs ih =>
    rw [absorbAll_cons, ih, absorbMsg_mlen, List.length_cons]
    apply BitVec.eq_of_toNat_eq
    simp
    omega

end absorbAll

section finish

/-- What a property every Absorb keeps says of the padding loop. -/
theorem padZeros_keeps (P : Engine → Prop) (h : ∀ b e, P e → P (e.absorb b)) (n : Nat) (e : Engine) (he : P e) :
    P (Engine.padZeros n e) := by
  induction n generalizing e with
  | zero => exact he
  | succ n ih =>
    unfold Engine.padZeros
    split
    · exact he
    · exact ih _ (h 0 e he)

variable (n : Nat) (e : Engine)

@[simp] theorem padZeros_state : (Engine.padZeros n e).state = e.state :=
  padZeros_keeps (fun f => f.state = e.state) (by simp_all) n e rfl
@[simp] theorem padZeros_err : (Engine.padZeros n e).err = e.err :=
  padZeros_keeps (fun f => f.err = e.err) (by simp_all) n e rfl
@[simp] theorem padZeros_hmac : (Engine.padZeros n e).hmac = e.hmac :=
  padZeros_keeps (fun f => f.hmac = e.hmac) (by simp_all) n e rfl
@[simp] theorem padZeros_alg : (Engine.padZeros n e).alg = e.alg :=
  padZeros_keeps (fun f => f.alg = e.alg) (by simp_all) n e rfl
@[simp] theorem padZeros_mlen : (Engine.padZeros n e).mlen = e.mlen :=
  padZeros_keeps (fun f => f.mlen = e.mlen) (by simp_all) n e rfl
@[simp] theorem padZeros_kb : (Engine.padZeros n e).kb = e.kb :=
  padZeros_keeps (fun f => f.kb = e.kb) (by simp_all) n e rfl
@[simp] theorem padZeros_kcnt : (Engine.padZeros n e).kcnt = e.kcnt :=
  padZeros_keeps (fun f => f.kcnt = e.kcnt) (by simp_all) n e rfl
@[simp] theorem padZeros_idb : (Engine.padZeros n e).idb = e.idb :=
  padZeros_keeps (fun f => f.idb = e.idb) (by simp_all) n e rfl

/-- The padding loop is 00 bytes absorbed until POS is 56; its bound of 63 is never felt (R146). -/
theorem padZeros_eq (n : Nat) (e : Engine) (h : (56 - e.pos).toNat ≤ n) :
    Engine.padZeros n e = (List.replicate (56 - e.pos).toNat (0 : Byte)).foldl (fun e b => e.absorb b) e := by
  induction n generalizing e with
  | zero =>
    have : (56 - e.pos).toNat = 0 := by omega
    rw [this]
    rfl
  | succ n ih =>
    unfold Engine.padZeros
    split
    · rename_i hp
      simp [hp]
    · rename_i hp
      have hs : (56 - e.pos).toNat = (56 - (e.absorb 0).pos).toNat + 1 := by
        rw [absorb_pos]
        bv_omega
      rw [hs, List.replicate_succ, List.foldl_cons, ← ih]
      omega

theorem padZeros_pos (e : Engine) : (Engine.padZeros 63 e).pos = 56 := by
  suffices h : ∀ n (e : Engine), (56 - e.pos).toNat ≤ n → (Engine.padZeros n e).pos = 56 from h 63 e (by bv_omega)
  intro n
  induction n with
  | zero =>
    intro e h
    change e.pos = 56
    bv_omega
  | succ n ih =>
    intro e h
    unfold Engine.padZeros
    split
    · assumption
    · apply ih
      rw [absorb_pos]
      bv_omega

@[simp] theorem finish_state : e.finish.state = e.state := by simp [Engine.finish]
@[simp] theorem finish_err : e.finish.err = e.err := by simp [Engine.finish]
@[simp] theorem finish_hmac : e.finish.hmac = e.hmac := by simp [Engine.finish]
@[simp] theorem finish_alg : e.finish.alg = e.alg := by simp [Engine.finish]
@[simp] theorem finish_pos : e.finish.pos = 0 := by simp [Engine.finish]
@[simp] theorem finish_mlen : e.finish.mlen = e.mlen := by simp [Engine.finish]
@[simp] theorem finish_kb : e.finish.kb = e.kb := by simp [Engine.finish]
@[simp] theorem finish_kcnt : e.finish.kcnt = e.kcnt := by simp [Engine.finish]
@[simp] theorem finish_idb : e.finish.idb = e.idb := by simp [Engine.finish]
@[simp] theorem finish_j : e.finish.j = 0 := by simp [Engine.finish]

end finish

end Sys2Proof.Machine
end

