-- ==== Sys2Proof/Laws/Exec.lean ====
section
/-! SUPPORT. What a command, an access and a step can do, each said once. -/

namespace Sys2Proof.Machine

/-- Everything a command can do, with the checks that lead there (40_commands.md rule R100). -/
theorem exec_cases (i : Instr) (s : State) :
    (exec i s = .next s ∧ (i = .nop ∨ s.eng.state = .error ∧ i ≠ .clear)) ∨
    (i = .clear ∧ exec i s = complete s Engine.clear) ∨
    (∃ c, exec i s = raise c s ∧ s.eng.state ≠ .error ∧ (c = .key ∨ c = .alg ∨ c = .seq)) ∨
    (∃ m g c, exec i s = complete s (Engine.openCall m g c) ∧ s.eng.state ≠ .error ∧
      (m = false ∧ c = .msg ∨ m = true ∧ c = .key)) ∨
    (∃ b, i = .kbyte b ∧ s.eng.state = .key ∧ exec i s = complete s (Engine.takeKeyByte b)) ∨
    (i = .kdone ∧ s.eng.state = .key ∧ s.eng.kcnt ≠ 0 ∧ exec i s = complete s Engine.endKey) ∨
    (∃ b, i = .mbyte b ∧ s.eng.state = .msg ∧ exec i s = complete s (Engine.absorbMsg b)) ∨
    (i = .final ∧ s.eng.state = .msg ∧ exec i s = complete s Engine.endMessage) := by
  by_cases he : s.eng.state = .error
  · cases i <;> simp [exec, execNop, execInit, execKinit, execKbyte, execKdone, execMbyte, execFinal, execClear, he]
  cases i with
  | nop => simp [exec, execNop, he]
  | clear => simp [exec, execClear]
  | init a =>
    cases h : Alg.ofCode a with
    | none => exact .inr (.inr (.inl ⟨.alg, by simp [exec, execInit, he, withAlg_none, h], he, by simp⟩))
    | some g =>
      exact .inr (.inr (.inr (.inl ⟨false, g, .msg, by simp [exec, execInit, he, withAlg_some s a g _ h], he, by simp⟩)))
  | kinit a =>
    cases h : Alg.ofCode a with
    | none => exact .inr (.inr (.inl ⟨.alg, by simp [exec, execKinit, he, withAlg_none, h], he, by simp⟩))
    | some g =>
      exact .inr (.inr (.inr (.inl ⟨true, g, .key, by simp [exec, execKinit, he, withAlg_some s a g _ h], he, by simp⟩)))
  | kbyte b =>
    by_cases hk : s.eng.state = .key
    · exact .inr (.inr (.inr (.inr (.inl ⟨b, rfl, hk, by simp [exec, execKbyte, hk]⟩))))
    · exact .inr (.inr (.inl ⟨.seq, by simp [exec, execKbyte, he, hk], he, by simp⟩))
  | kdone =>
    by_cases hk : s.eng.state = .key
    · by_cases hc : s.eng.kcnt = 0
      · exact .inr (.inr (.inl ⟨.key, by simp [exec, execKdone, hk, hc], he, by simp⟩))
      · exact .inr (.inr (.inr (.inr (.inr (.inl ⟨rfl, hk, hc, by simp only [exec, execKdone, unlessError_ok s _ he, requireState_ok s _ _ hk, if_neg hc]⟩)))))
    · exact .inr (.inr (.inl ⟨.seq, by simp [exec, execKdone, he, hk], he, by simp⟩))
  | mbyte b =>
    by_cases hk : s.eng.state = .msg
    · exact .inr (.inr (.inr (.inr (.inr (.inr (.inl ⟨b, rfl, hk, by simp [exec, execMbyte, hk]⟩))))))
    · exact .inr (.inr (.inl ⟨.seq, by simp [exec, execMbyte, he, hk], he, by simp⟩))
  | final =>
    by_cases hk : s.eng.state = .msg
    · exact .inr (.inr (.inr (.inr (.inr (.inr (.inr ⟨rfl, hk, by simp [exec, execFinal, hk]⟩))))))
    · exact .inr (.inr (.inl ⟨.seq, by simp [exec, execFinal, he, hk], he, by simp⟩))

theorem accessExists_iff (addr n : Nat) : accessExists addr n = true ↔ n = 4 ∧ addr % 4 = 0 ∧ addr < 64 := by
  simp [accessExists, and_assoc]

theorem perform_read (s : State) (addr n : Nat) (h : accessExists addr n = true) :
    perform (.read addr n) s = .next { s with replies := s.replies ++ [s.eng.readRegister addr] } := by
  simp [perform, busRead, h]

theorem perform_write_cmd (s : State) (w : Word) : perform (.write 0x00 4 w) s = command w s := by
  simp [perform, busWrite, accessExists]

theorem perform_write_other (s : State) (addr n : Nat) (v : Word) (h : accessExists addr n = true) (h0 : addr ≠ 0) :
    perform (.write addr n v) s = .next s := by
  simp [perform, busWrite, h, h0]

theorem perform_reset (s : State) : perform .reset s = .next { s with eng := Engine.reset } := rfl

/-- A command word does nothing, raises ERR_CMD, or is executed by its command's meaning. -/
theorem command_cases (w : Word) (s : State) :
    (∃ i, decode w = .instr i ∧ command w s = exec i s) ∨
    ((∃ why, decode w = .illegal why) ∧ s.eng.state = .error ∧ command w s = .next s) ∨
    ((∃ why, decode w = .illegal why) ∧ s.eng.state ≠ .error ∧ command w s = raise .cmd s) := by
  cases h : decode w with
  | instr i => exact .inl ⟨i, rfl, by simp [command, h]⟩
  | illegal why =>
    by_cases he : s.eng.state = .error
    · exact .inr (.inl ⟨⟨why, rfl⟩, he, by simp [command, h, takeIllegal, he]⟩)
    · exact .inr (.inr ⟨⟨why, rfl⟩, he, by simp [command, h, takeIllegal, he]⟩)

/-- An access that answers leaves the engine alone, resets it, or gives it a command word. -/
theorem perform_cases (a : Access) (s t : State) (h : perform a s = .next t) :
    t.eng = s.eng ∨ (a = .reset ∧ t.eng = Engine.reset) ∨
      ∃ addr n w, a = .write addr n w ∧ command w s = .next t := by
  cases a with
  | reset => cases h; exact .inr (.inl ⟨rfl, rfl⟩)
  | read addr n =>
    by_cases hx : accessExists addr n = true
    · rw [perform_read s addr n hx] at h; cases h; exact .inl rfl
    · simp [perform, busRead, hx] at h
  | write addr n w =>
    by_cases hx : accessExists addr n = true
    · by_cases h0 : addr = 0
      · exact .inr (.inr ⟨addr, n, w, rfl, by rw [perform, busWrite, if_pos hx, if_pos h0] at h; exact h⟩)
      · rw [perform_write_other s addr n w hx h0] at h; cases h; exact .inl rfl
    · simp [perform, busWrite, hx] at h

/-- A step that answers performs the host's oldest access. -/
theorem step_cases (s t : State) (h : step s = .next t) :
    ∃ a rest, s.host = a :: rest ∧ perform a { s with host := rest } = .next t := by
  unfold step stepHost at h
  split at h
  · cases h
  · next a rest hs => exact ⟨a, rest, hs, h⟩

@[simp] theorem performAll_nil (s : State) : performAll [] s = .next s := rfl

theorem performAll_cons (a : Access) (xs : List Access) (s t : State) (h : perform a s = .next t) :
    performAll (a :: xs) s = performAll xs t := by
  simp [performAll, h]

end Sys2Proof.Machine
end

