-- ==== Sys2Proof/Laws/Driver.lean ====
section
/-! SUPPORT. What the driver's first access does: the engine out of ERROR before a call (41_preprocessor_host.md rule R134). -/

namespace Sys2Proof.Machine

/-- The STATE field of the STATUS word. -/
theorem stateOfStatus_status (e : Engine) : stateOfStatus e.status = e.state.code := by
  unfold stateOfStatus Engine.status
  generalize e.state.code = c
  ext k hk
  have h : k = 0 ∨ k = 1 ∨ k = 2 := by omega
  obtain rfl | rfl | rfl := h <;> simp

theorem ctl_code_eq_error (c : Ctl) : c.code = Ctl.code .error ↔ c = .error := by cases c <;> decide

theorem perform_clear (s : State) : perform (commandAccess .clear) s = .next { s with eng := Engine.reset } := by
  have h : decode (encode .clear) = .instr .clear := by decide
  rw [commandAccess, perform_write_cmd, command, h]
  rfl

/-- The state after it: STATUS read, and the engine as it was, or reset where it was in ERROR. -/
theorem clearIfError_eq (s : State) : clearIfError s = .next { s with
    eng := if s.eng.state = .error then Engine.reset else s.eng
    replies := s.replies ++ [s.eng.status] } := by
  have hr : s.eng.readRegister 0x04 = s.eng.status := rfl
  rw [clearIfError, perform_read s 0x04 4 (by decide)]
  simp only [hr, List.getLastD_concat, stateOfStatus_status, ctl_code_eq_error, perform_clear]
  split <;> rfl

end Sys2Proof.Machine
end

