-- ==== Sys2Proof/Laws/Hmac.lean ====
section
/-! SUPPORT. The fields after each operation of the HMAC controller and after the end of a message: what it keeps, and the counters
it leaves. -/

namespace Sys2Proof.Machine

section
variable (b : Byte) (e : Engine)

@[simp] theorem keepKeyByte_state : (e.keepKeyByte b).state = e.state := by
  unfold Engine.keepKeyByte; split <;> rfl
@[simp] theorem keepKeyByte_err : (e.keepKeyByte b).err = e.err := by
  unfold Engine.keepKeyByte; split <;> rfl
@[simp] theorem keepKeyByte_hmac : (e.keepKeyByte b).hmac = e.hmac := by
  unfold Engine.keepKeyByte; split <;> rfl
@[simp] theorem keepKeyByte_alg : (e.keepKeyByte b).alg = e.alg := by
  unfold Engine.keepKeyByte; split <;> rfl
@[simp] theorem keepKeyByte_idb : (e.keepKeyByte b).idb = e.idb := by
  unfold Engine.keepKeyByte; split <;> rfl
@[simp] theorem keepKeyByte_kb : (e.keepKeyByte b).kb = if e.kcnt < 64 then setAt e.kb e.kcnt.toNat b else e.kb := by
  unfold Engine.keepKeyByte; split <;> rfl
@[simp] theorem keepKeyByte_kcnt : (e.keepKeyByte b).kcnt = e.kcnt := by
  unfold Engine.keepKeyByte; split <;> rfl
@[simp] theorem keepKeyByte_h : (e.keepKeyByte b).h = e.h := by
  unfold Engine.keepKeyByte; split <;> rfl
@[simp] theorem keepKeyByte_w : (e.keepKeyByte b).w = e.w := by
  unfold Engine.keepKeyByte; split <;> rfl
@[simp] theorem keepKeyByte_pos : (e.keepKeyByte b).pos = e.pos := by
  unfold Engine.keepKeyByte; split <;> rfl
@[simp] theorem keepKeyByte_mlen : (e.keepKeyByte b).mlen = e.mlen := by
  unfold Engine.keepKeyByte; split <;> rfl
@[simp] theorem keepKeyByte_sv : (e.keepKeyByte b).sv = e.sv := by
  unfold Engine.keepKeyByte; split <;> rfl
@[simp] theorem keepKeyByte_j : (e.keepKeyByte b).j = e.j := by
  unfold Engine.keepKeyByte; split <;> rfl

@[simp] theorem countKeyByte_state : e.countKeyByte.state = e.state := by
  unfold Engine.countKeyByte; split <;> rfl
@[simp] theorem countKeyByte_err : e.countKeyByte.err = e.err := by
  unfold Engine.countKeyByte; split <;> rfl
@[simp] theorem countKeyByte_hmac : e.countKeyByte.hmac = e.hmac := by
  unfold Engine.countKeyByte; split <;> rfl
@[simp] theorem countKeyByte_alg : e.countKeyByte.alg = e.alg := by
  unfold Engine.countKeyByte; split <;> rfl
@[simp] theorem countKeyByte_h : e.countKeyByte.h = e.h := by
  unfold Engine.countKeyByte; split <;> rfl
@[simp] theorem countKeyByte_w : e.countKeyByte.w = e.w := by
  unfold Engine.countKeyByte; split <;> rfl
@[simp] theorem countKeyByte_pos : e.countKeyByte.pos = e.pos := by
  unfold Engine.countKeyByte; split <;> rfl
@[simp] theorem countKeyByte_mlen : e.countKeyByte.mlen = e.mlen := by
  unfold Engine.countKeyByte; split <;> rfl
@[simp] theorem countKeyByte_kb : e.countKeyByte.kb = e.kb := by
  unfold Engine.countKeyByte; split <;> rfl
@[simp] theorem countKeyByte_idb : e.countKeyByte.idb = e.idb := by
  unfold Engine.countKeyByte; split <;> rfl
@[simp] theorem countKeyByte_sv : e.countKeyByte.sv = e.sv := by
  unfold Engine.countKeyByte; split <;> rfl
@[simp] theorem countKeyByte_j : e.countKeyByte.j = e.j := by
  unfold Engine.countKeyByte; split <;> rfl
@[simp] theorem countKeyByte_kcnt : e.countKeyByte.kcnt = if e.kcnt < 65 then e.kcnt + 1 else e.kcnt := by
  unfold Engine.countKeyByte; split <;> rfl

@[simp] theorem takeKeyByte_state :
    (e.takeKeyByte b).state = e.state := by
  simp [Engine.takeKeyByte]
@[simp] theorem takeKeyByte_err :
    (e.takeKeyByte b).err = e.err := by
  simp [Engine.takeKeyByte]
@[simp] theorem takeKeyByte_hmac :
    (e.takeKeyByte b).hmac = e.hmac := by
  simp [Engine.takeKeyByte]
@[simp] theorem takeKeyByte_alg :
    (e.takeKeyByte b).alg = e.alg := by
  simp [Engine.takeKeyByte]
@[simp] theorem takeKeyByte_idb :
    (e.takeKeyByte b).idb = e.idb := by
  simp [Engine.takeKeyByte]
@[simp] theorem takeKeyByte_pos :
    (e.takeKeyByte b).pos = e.pos + 1 := by
  simp [Engine.takeKeyByte]
@[simp] theorem takeKeyByte_mlen :
    (e.takeKeyByte b).mlen = e.mlen + 8 := by
  simp [Engine.takeKeyByte]
@[simp] theorem takeKeyByte_kcnt :
    (e.takeKeyByte b).kcnt = if e.kcnt < 65 then e.kcnt + 1 else e.kcnt := by
  simp [Engine.takeKeyByte]
@[simp] theorem takeKeyByte_kb :
    (e.takeKeyByte b).kb = if e.kcnt < 64 then setAt e.kb e.kcnt.toNat b else e.kb := by
  simp [Engine.takeKeyByte]

end

section
variable (e : Engine)

@[simp] theorem padBlock_length (x : Byte) (kb : Vector Byte 64) : (padBlock x kb).length = 64 := by simp [padBlock]

@[simp] theorem normaliseKey_state : e.normaliseKey.state = e.state := by
  unfold Engine.normaliseKey; split <;> simp [Engine.keyFromDigest]
@[simp] theorem normaliseKey_err : e.normaliseKey.err = e.err := by
  unfold Engine.normaliseKey; split <;> simp [Engine.keyFromDigest]
@[simp] theorem normaliseKey_hmac : e.normaliseKey.hmac = e.hmac := by
  unfold Engine.normaliseKey; split <;> simp [Engine.keyFromDigest]
@[simp] theorem normaliseKey_alg : e.normaliseKey.alg = e.alg := by
  unfold Engine.normaliseKey; split <;> simp [Engine.keyFromDigest]
@[simp] theorem normaliseKey_kcnt : e.normaliseKey.kcnt = e.kcnt := by
  unfold Engine.normaliseKey; split <;> simp [Engine.keyFromDigest]
@[simp] theorem normaliseKey_idb : e.normaliseKey.idb = e.idb := by
  unfold Engine.normaliseKey; split <;> simp [Engine.keyFromDigest]

@[simp] theorem startInner_state : e.startInner.state = e.state := by simp [Engine.startInner]
@[simp] theorem startInner_err : e.startInner.err = e.err := by simp [Engine.startInner]
@[simp] theorem startInner_hmac : e.startInner.hmac = e.hmac := by simp [Engine.startInner]
@[simp] theorem startInner_alg : e.startInner.alg = e.alg := by simp [Engine.startInner]
@[simp] theorem startInner_kb : e.startInner.kb = e.kb := by simp [Engine.startInner]
@[simp] theorem startInner_kcnt : e.startInner.kcnt = e.kcnt := by simp [Engine.startInner]
@[simp] theorem startInner_idb : e.startInner.idb = e.idb := by simp [Engine.startInner]
@[simp] theorem startInner_pos : e.startInner.pos = 0 := by simp [Engine.startInner, absorbAll_pos]
@[simp] theorem startInner_mlen : e.startInner.mlen = 512 := by simp [Engine.startInner, absorbAll_mlen]

@[simp] theorem hmacOuter_state : e.hmacOuter.state = e.state := by simp [Engine.hmacOuter, Engine.absorbOuter]
@[simp] theorem hmacOuter_err : e.hmacOuter.err = e.err := by simp [Engine.hmacOuter, Engine.absorbOuter]
@[simp] theorem hmacOuter_hmac : e.hmacOuter.hmac = e.hmac := by simp [Engine.hmacOuter, Engine.absorbOuter]
@[simp] theorem hmacOuter_alg : e.hmacOuter.alg = e.alg := by simp [Engine.hmacOuter, Engine.absorbOuter]
@[simp] theorem hmacOuter_kb : e.hmacOuter.kb = e.kb := by simp [Engine.hmacOuter, Engine.absorbOuter]
@[simp] theorem hmacOuter_kcnt : e.hmacOuter.kcnt = e.kcnt := by simp [Engine.hmacOuter, Engine.absorbOuter]
@[simp] theorem hmacOuter_idb :
    e.hmacOuter.idb = storeFrom (Vector.replicate 32 0) 0 e.digestBytes := by simp [Engine.hmacOuter, Engine.absorbOuter]
@[simp] theorem hmacOuter_pos : e.hmacOuter.pos = 0 := by simp [Engine.hmacOuter]
@[simp] theorem hmacOuter_j : e.hmacOuter.j = 0 := by simp [Engine.hmacOuter]

@[simp] theorem endMessage_state : e.endMessage.state = .done := rfl
@[simp] theorem endMessage_err : e.endMessage.err = e.err := by unfold Engine.endMessage; split <;> simp
@[simp] theorem endMessage_hmac : e.endMessage.hmac = e.hmac := by unfold Engine.endMessage; split <;> simp
@[simp] theorem endMessage_alg : e.endMessage.alg = e.alg := by unfold Engine.endMessage; split <;> simp
@[simp] theorem endMessage_kb : e.endMessage.kb = e.kb := by unfold Engine.endMessage; split <;> simp
@[simp] theorem endMessage_kcnt : e.endMessage.kcnt = e.kcnt := by unfold Engine.endMessage; split <;> simp
@[simp] theorem endMessage_pos : e.endMessage.pos = 0 := by unfold Engine.endMessage; split <;> simp
@[simp] theorem endMessage_j : e.endMessage.j = 0 := by unfold Engine.endMessage; split <;> simp

end

end Sys2Proof.Machine
end

