-- ==== Sys2Proof/Laws/PerInstr.lean ====
section
/-! SUPPORT. The per-instruction family EncodedFields: the three fields of the word a command encodes to (30_encoding.md rules R81,
R82, R84). -/

namespace Sys2Proof.Laws.EncodedFields

open Sys2Proof

/-- The fields of a word put together from an opcode and an operand. -/
theorem commandWord_fields (opc arg : Byte) :
    opcOf (commandWord opc arg) = opc ∧ argOf (commandWord opc arg) = arg ∧ rsvOf (commandWord opc arg) = 0 := by
  refine ⟨?_, ?_, ?_⟩ <;> ext k hk <;> simp [opcOf, argOf, rsvOf, commandWord] <;> grind

/-- OPC holds the command's opcode, ARG its operand, RSV 0. -/
def Statement (i : Instr) : Prop :=
  opcOf (encode i) = i.opcode ∧ argOf (encode i) = i.argument ∧ rsvOf (encode i) = 0

theorem nop : Statement .nop := commandWord_fields _ _
theorem init (a : Byte) : Statement (.init a) := commandWord_fields _ _
theorem kinit (a : Byte) : Statement (.kinit a) := commandWord_fields _ _
theorem kbyte (b : Byte) : Statement (.kbyte b) := commandWord_fields _ _
theorem kdone : Statement .kdone := commandWord_fields _ _
theorem mbyte (b : Byte) : Statement (.mbyte b) := commandWord_fields _ _
theorem final : Statement .final := commandWord_fields _ _
theorem clear : Statement .clear := commandWord_fields _ _

end Sys2Proof.Laws.EncodedFields
end

