-- ==== Sys2Proof/Laws/Platform.lean ====
section
/-! SUPPORT. The instances of a platform: how many there are, and what replacing or stepping one does. -/

namespace Sys2Proof.Machine

@[simp] theorem Platform.instances_setInstance (p : Platform) (k : Nat) (s : State) :
    (p.setInstance k s).instances = p.instances.set k s := by
  cases k <;> rfl

/-- `N_INSTANCES` is at least 1 (R9). -/
theorem Platform.instances_length_pos (p : Platform) : 1 ≤ p.instances.length := by
  simp [Platform.instances]

@[simp] theorem Platform.instances_reset (n : InstanceCount) :
    (Platform.reset n).instances = List.replicate n.val State.reset := by
  obtain ⟨_ | m, hn⟩ := n
  · exact absurd hn (by decide)
  · rfl

/-- A step of a platform is a step of the instance named. -/
theorem Platform.stepAt_next {p q : Platform} {k : Nat} (h : p.stepAt k = .next q) :
    ∃ s t, p.instances[k]? = some s ∧ stepHost s = .next t ∧ q = p.setInstance k t := by
  unfold Platform.stepAt at h
  split at h
  · cases h
  · next s hs =>
    split at h
    · next t ht => cases h; exact ⟨s, t, hs, ht, rfl⟩
    · cases h
    · cases h

end Sys2Proof.Machine
end

