-- ==== Sys2Proof/Tests/Slice0.lean ====
section
/-! SUPPORT. Tests. Expected values are the spec's: the opcode table (30_encoding.md rules R84, R86), the vectors of
95_test_vectors.md (named by their ids) and the worked examples. A theorem `test_witness_…` shows values that meet the
hypotheses of the obligation it is named after. -/

namespace Sys2Proof.Tests

open Sys2Proof Sys2Proof.Machine

-- One theorem at a time: many kernel evaluations at once would reserve more memory than the check allows.
set_option Elab.async false

/-- The state a result holds. -/
def after : Result → Option State
  | .next t => some t
  | .fault _ => none
  | .refused _ => none

/-- The STATUS word after a result. -/
def statusOf (r : Result) : Option Word := (after r).map (fun t => t.eng.status)

/-- The engine after reset, changed by `f`, with an idle host. -/
def withEngine (f : Engine → Engine) : State := { State.reset with eng := f Engine.reset }

/-- The reset engine in another control state. -/
def inState (c : Ctl) : State := withEngine (fun e => { e with state := c })

/-- An HMAC-MD5 call in the key phase, with `n` key bytes counted. -/
def inKey (n : BitVec 7) : State :=
  withEngine (fun e => { e with state := .key, hmac := true, alg := .md5, kcnt := n, h := hashState md5IV })

/-- A block buffer with the words given, the rest of W zero. -/
def buffer (ws : List Word) : Vector Word 80 := blockBuffer ws

/-- A word that is illegal is no command. -/
theorem illegal_is_no_command {w : Word} {why : Illegal} (h : decode w = .illegal why) : ∀ i, decode w ≠ .instr i := by
  intro i hi; rw [h] at hi; cases hi

/-! Well-formed words and lines, one ill-formed term for each check. -/

/-- R86 (a), E23. -/
theorem test_illformed_reserved : reservedIsZero 0x00010000 = false ∧ wordWellFormed 0x00010000 = false := by decide
/-- R86 (b), E20. -/
theorem test_illformed_opcode : opcodeIsKnown 0x00000008 = false ∧ wordWellFormed 0x00000008 = false := by decide
/-- R86 (c), E16 and E18. -/
theorem test_illformed_argument :
    argumentIsAllowed 0x00000100 = false ∧ wordWellFormed 0x00000100 = false ∧ wordWellFormed 0x0000ff06 = false := by
  decide
/-- E1, E7, E15: words that pass all three. -/
theorem test_wellformed_words :
    wordWellFormed 0x00000000 = true ∧ wordWellFormed 0x0000ff01 = true ∧ wordWellFormed 0x00000007 = true := by decide
/-- R89: numbers out of range. -/
theorem test_illformed_lines :
    (Line.init 256).wellFormed = false ∧ (Line.kinit 256).wellFormed = false ∧ (Line.kbyte 256).wellFormed = false ∧
      (Line.mbyte 256).wellFormed = false ∧ (Line.rawWord 0x100000000).wellFormed = false ∧
      (Line.rdDout 8).wellFormed = false ∧ (Line.digest 256 (.text [])).wellFormed = false ∧
      (Line.hmac 256 (.text []) (.text [])).wellFormed = false ∧ (Line.init 255).wellFormed = true := by decide

/-! Decoding: words written out field by field (RSV, ARG, OPC) from R84; none where R86 says so. -/

theorem test_decode_nop : decode 0b0000000000000000_00000000_00000000 = .instr .nop := by decide
theorem test_decode_init : decode 0b0000000000000000_00000011_00000001 = .instr (.init 3) := by decide
theorem test_decode_kinit : decode 0b0000000000000000_00000010_00000010 = .instr (.kinit 2) := by decide
theorem test_decode_kbyte : decode 0b0000000000000000_10101011_00000011 = .instr (.kbyte 0xab) := by decide
theorem test_decode_kdone : decode 0b0000000000000000_00000000_00000100 = .instr .kdone := by decide
theorem test_decode_mbyte : decode 0b0000000000000000_10000000_00000101 = .instr (.mbyte 0x80) := by decide
theorem test_decode_final : decode 0b0000000000000000_00000000_00000110 = .instr .final := by decide
theorem test_decode_clear : decode 0b0000000000000000_00000000_00000111 = .instr .clear := by decide
/-- E24, E22, E19, E26: no illegal word falls through to a neighbour. -/
theorem test_decode_illegal :
    decode 0x00010101 = .illegal .reservedBits ∧ decode 0x00006108 = .illegal .opcode ∧
      decode 0x00000107 = .illegal .argument ∧ decode 0xffffffff = .illegal .reservedBits := by decide
/-- R83: the encoding direction. -/
theorem test_encode :
    encode (.mbyte 0x80) = 0x00008005 ∧ encode (.kbyte 0x00) = 0x00000003 ∧ encode (.init 3) = 0x00000301 := by decide
/-- The table's bit numbers, and a number too wide for a word. -/
theorem test_decodeTableWord :
    decodeTableWord 32 0x00006105 = some (.mbyte 0x61) ∧ decodeTableWord 32 0x00000008 = none ∧
      decodeTableWord 40 0x100000000 = none := by decide

/-! One step of each command from reset (group E) and from small states (groups X, PR). -/

theorem test_nop_in_done : exec .nop (inState .done) = .next (inState .done) := rfl
/-- E5, E7. -/
theorem test_init :
    statusOf (exec (.init 3) State.reset) = some 0x00000032 ∧ statusOf (exec (.init 0xff) State.reset) = some 0x00000204 := by
  decide
/-- PR1 line 1. -/
theorem test_init_loads_iv :
    (after (exec (.init 1) State.reset)).map (fun t => t.eng.h.toList) =
      some [0x67452301, 0xefcdab89, 0x98badcfe, 0x10325476, 0, 0, 0, 0] := by decide
/-- E9, X8: the raised error keeps ALG. -/
theorem test_kinit :
    statusOf (exec (.kinit 3) State.reset) = some 0x00000039 ∧
      statusOf (exec (.kinit 7) (withEngine (fun e => { e with state := .msg, alg := .sha256 }))) = some 0x00000234 := by
  decide
/-- X17: a second KINIT restarts the key. -/
theorem test_kinit_restarts_key :
    (after (exec (.kinit 1) (inKey 1))).map (fun t => (t.eng.kcnt, t.eng.status)) = some (0, 0x00000019) := by decide
/-- E11. -/
theorem test_kbyte_outside_key : statusOf (exec (.kbyte 0xab) State.reset) = some 0x00000504 := by decide
/-- V-H8: the 65th key byte is counted and not kept. -/
theorem test_kbyte_saturates :
    (after (exec (.kbyte 0xaa) (inKey 64))).map (fun t => (t.eng.kcnt, getAt t.eng.kb 63 1, t.eng.wAt 0)) =
      some (65, 0x00, 0x000000aa) ∧
    (after (exec (.kbyte 0xaa) (inKey 65))).map (fun t => t.eng.kcnt) = some 65 := by decide +kernel
/-- V-H1, X11: ERR_KEY in KEY, ERR_SEQ elsewhere. -/
theorem test_key_and_sequence_errors :
    statusOf (exec .kdone (inKey 0)) = some 0x0000011c ∧ statusOf (exec .kdone (inState .msg)) = some 0x00000504 := by decide
/-- PR5 line 18: KDONE with the 16-byte key 0b under MD4. -/
theorem test_kdone_starts_inner_hash :
    (after (exec .kdone (withEngine (fun e => { e with
      state := .key, hmac := true, kcnt := 16, pos := 16, mlen := 128, h := hashState md4IV,
      kb := storeFrom (Vector.replicate 64 0) 0 (List.replicate 16 0x0b) })))).map
        (fun t => (t.eng.status, t.eng.pos, t.eng.mlen, t.eng.h.toList.take 4)) =
      some (0x0000000a, 0, 512, [0x38ecc101, 0xb480316b, 0x379862ad, 0x1e578358]) := by decide +kernel
/-- PR3 line 133: KDONE with a key longer than a block. -/
theorem test_kdone_hashes_long_key :
    (after (exec .kdone (withEngine (fun e => { e with
      state := .key, hmac := true, alg := .sha256, kcnt := 65, pos := 3, mlen := 1048,
      w := buffer (List.replicate 16 0xaaaaaaaa), kb := Vector.replicate 64 0xaa,
      h := hashState [0xa554e894, 0x745fb813, 0xe7b7df05, 0x53115ac7, 0x0ed7242b, 0x5dbc9b48, 0xc503ecb8, 0x46ea4f12]
      })))).map (fun t => (t.eng.status, t.eng.h.toList, t.eng.kb.toList.take 4, t.eng.kb.toList.drop 31 |>.take 2)) =
      some (0x0000003a,
        [0xb490466c, 0x5a783ad8, 0x1415dcbc, 0x706f5e2f, 0x4dc3747d, 0xa72ed8b2, 0x2996594d, 0x19b134e1],
        [0x45, 0xad, 0x4b, 0x37], [0x81, 0x00]) := by decide +kernel
/-- PR1 line 3: one byte, little-endian packing. -/
theorem test_mbyte_packs :
    (after (exec (.mbyte 0x62) (withEngine (fun e => { e with
      state := .msg, alg := .md5, pos := 1, mlen := 8, w := buffer [0x00000061] })))).map
        (fun t => (t.eng.wAt 0, t.eng.pos, t.eng.mlen)) = some (0x00006261, 2, 16) := by decide +kernel
/-- PR2 line 65: the 64th byte compresses, SHA-1. -/
theorem test_mbyte_compresses_full_block :
    (after (exec (.mbyte 0x3f) (withEngine (fun e => { e with
      state := .msg, alg := .sha1, pos := 63, mlen := 504, h := hashState sha1IV,
      w := buffer [0x00010203, 0x04050607, 0x08090a0b, 0x0c0d0e0f, 0x10111213, 0x14151617, 0x18191a1b, 0x1c1d1e1f,
        0x20212223, 0x24252627, 0x28292a2b, 0x2c2d2e2f, 0x30313233, 0x34353637, 0x38393a3b, 0x3c3d3e00] })))).map
        (fun t => (t.eng.pos, t.eng.mlen, t.eng.h.toList.take 5, t.eng.wAt 16, t.eng.wAt 79)) =
      some (0, 512, [0xb9ac757b, 0xbc297925, 0x2e227274, 0x06872f94, 0xcbea56a1], 0x38383838, 0xc47818a4) := by
  decide +kernel
/-- PR1 line 5 and its end state: FINAL of a plain MD5 call. -/
theorem test_final_plain :
    (after (exec .final (withEngine (fun e => { e with
      state := .msg, alg := .md5, pos := 3, mlen := 24, h := hashState md5IV, w := buffer [0x00636261] })))).map
        (fun t => [t.eng.status, t.eng.wAt 0, t.eng.wAt 14] ++ (List.range 5).map t.eng.dout ++ t.eng.sv.toList.take 4) =
      some [0x00000013, 0x80636261, 0x00000018, 0x90015098, 0x3cd24fb0, 0xd6963f7d, 0x28e17f72, 0,
        0x67452301, 0xefcdab89, 0x98badcfe, 0x10325476] := by decide +kernel
/-- PR5 lines 27 to 31 and its end state: FINAL of an HMAC-MD4 call. -/
theorem test_final_hmac :
    (after (exec .final (withEngine (fun e => { e with
      state := .msg, hmac := true, alg := .md4, pos := 8, mlen := 576, kcnt := 16,
      h := hashState [0x38ecc101, 0xb480316b, 0x379862ad, 0x1e578358],
      kb := storeFrom (Vector.replicate 64 0) 0 (List.replicate 16 0x0b),
      w := buffer ([0x54206948, 0x65726568, 0x3d3d3d3d, 0x3d3d3d3d] ++ List.replicate 12 0x36363636) })))).map
        (fun t => ([t.eng.status, t.eng.wAt 0, t.eng.wAt 4, t.eng.wAt 14] ++ (List.range 4).map t.eng.dout ++
          t.eng.sv.toList.take 4, t.eng.idb.toList.take 4)) =
      some ([0x0000000b, 0xc71ec386, 0x00000080, 0x00000280, 0x90a79458, 0xf58f437e, 0x21f169cd, 0xba283da6,
        0x251ff11c, 0x407b9bca, 0x9832462e, 0x2f90915d], [0x86, 0xc3, 0x1e, 0xc7]) := by
  decide +kernel
/-- X19. -/
theorem test_clear : exec .clear (inState .done) = .next State.reset := rfl
/-- X9: ignored in ERROR, first error kept; CLEAR leaves. -/
theorem test_error_is_sticky :
    statusOf (performAll ([0x00000401, 0x00000101, 0xffffffff, 0x00000005, 0x00000107].map (.write 0x00 4)) State.reset) =
      some 0x00000204 := by decide
/-- X10: the encoding is checked before the operand. -/
theorem test_priority : statusOf (command 0x00010901 State.reset) = some 0x00000404 := by decide
/-- X1: reads of CMD and of a reserved offset return 0, a write to STATUS is ignored; R62: a byte read is no access. -/
theorem test_bus :
    (after (performAll [.read 0x00 4, .read 0x08 4, .write 0x04 4 0xffffffff, .read 0x04 4] State.reset)).map
      (fun t => t.replies) = some [0, 0, 0] ∧
    after (perform (.read 0x04 1) State.reset) = none ∧ after (perform (.write 0x40 4 0) State.reset) = none := by decide
/-- R75, R62: the step that runs a command placed by `withFetchWord`. -/
theorem test_step_runs_command :
    step (State.reset.withFetchWord 32 0x00000301) = exec (.init 3) State.reset := rfl

/-! The four cores: CV4, CV8, CV12, CV16 (all-ones registers, block `W[i] = i`). -/

/-- The block of those vectors. -/
def countingBlock : Vector Word 80 := buffer ((List.range 16).map (fun i => BitVec.ofNat 32 i))

theorem test_md4_core : ((md4Block (Vector.replicate 8 0xffffffff) countingBlock).toList.take 4) =
    [0xa496e478, 0x3dd53de5, 0xc34a9cc0, 0x267bee91] := by decide +kernel
theorem test_md5_core : ((md5Block (Vector.replicate 8 0xffffffff) countingBlock).toList.take 4) =
    [0xf37c694f, 0xd8efe9fe, 0x03fbf805, 0xbb178da4] := by decide +kernel
theorem test_sha1_core : ((sha1Block (Vector.replicate 8 0xffffffff) countingBlock).toList.take 5) =
    [0x16522b00, 0xf3c79dbe, 0x5026b207, 0x3fcff5ef, 0xc34198d1] := by decide +kernel
theorem test_sha256_core : (sha256Block (Vector.replicate 8 0xffffffff) countingBlock).toList =
    [0xcdd4403b, 0xdd7d7565, 0x92b90fdb, 0x6ee1a81e, 0x45bd310a, 0x08d222b9, 0xc71690fd, 0x5a79c182] := by
  decide +kernel
/-- RND4, RND8, RND12, RND16. -/
theorem test_rounds :
    md4Round 17 ⟨0x01234567, 0x89abcdef, 0xfedcba98, 0x76543210⟩ countingBlock =
      ⟨0x76543210, 0x504f338b, 0x89abcdef, 0xfedcba98⟩ ∧
    md4Round 47 ⟨0x01234567, 0x89abcdef, 0xfedcba98, 0x76543210⟩ countingBlock =
      ⟨0x76543210, 0x3b3f3890, 0x89abcdef, 0xfedcba98⟩ ∧
    md5Round 31 ⟨0x01234567, 0x89abcdef, 0xfedcba98, 0x76543210⟩ countingBlock =
      ⟨0x76543210, 0x31fd3b50, 0x89abcdef, 0xfedcba98⟩ ∧
    md5Round 63 ⟨0x01234567, 0x89abcdef, 0xfedcba98, 0x76543210⟩ countingBlock =
      ⟨0x76543210, 0x98b85221, 0x89abcdef, 0xfedcba98⟩ := by decide +kernel
/-- PutByte over a stale word, both packings (group P). -/
theorem test_putByte :
    setLane true 0 0x61 0xffffffff = 0xffffff61 ∧ setLane false 0 0x61 0xffffffff = 0x61ffffff ∧
      setLane true 3 0x80 0x00636261 = 0x80636261 ∧ setLane false 3 0x80 0x61626300 = 0x61626380 := by decide
/-- R145: both length words, `MLEN = 0000000100000028`. -/
theorem test_lengthWords :
    lengthWords true 0x0000000100000028 = (0x00000028, 0x00000001) ∧
      lengthWords false 0x0000000100000028 = (0x00000001, 0x00000028) := by decide
/-- P5 and P6: one block for 55 bytes, two for 56. -/
theorem test_packMessage_boundary :
    (packMessage .md5 (List.replicate 55 0x01)).length = 1 ∧ (packMessage .md5 (List.replicate 56 0x01)).length = 2 ∧
      (packMessage .sha1 (List.replicate 56 0x01)).map (fun x => x.drop 13) =
        [[0x01010101, 0x80000000, 0], [0, 0, 0x000001c0]] := by decide +kernel

/-! Whole messages: S1, S4, S5, S8. -/

theorem test_digest_md4_empty : (digest .md4 []).flatMap hexOfByte =
    codePoints ("31d6cfe0d16ae931b73c59d7e0c089c0".toList) := by decide +kernel
theorem test_digest_md5_abc : (digest .md5 [0x61, 0x62, 0x63]).flatMap hexOfByte =
    codePoints ("900150983cd24fb0d6963f7d28e17f72".toList) := by decide +kernel
theorem test_digest_sha1_empty : (digest .sha1 []).flatMap hexOfByte =
    codePoints ("da39a3ee5e6b4b0d3255bfef95601890afd80709".toList) := by decide +kernel
theorem test_hmac_md5_source :
    (Machine.hmac .md5 (List.replicate 16 0x0b) [0x48, 0x69, 0x20, 0x54, 0x68, 0x65, 0x72, 0x65]).map
      (fun d => d.flatMap hexOfByte) = some (codePoints ("9294727a3638bb1c13f48ef8158bfc9d".toList)) := by decide +kernel
/-- R245: no value for the empty key. -/
theorem test_hmac_empty_key : Machine.hmac .md5 [] [0x61] = none := by decide

/-! The driver and the assembler. -/

/-- The code points of a string. -/
def text (s : String) : Text := codePoints s.toList

/-- R131, R138: hex input, both cases, V-E1, V-E2, V-E4, V-E5. -/
theorem test_hex_input :
    toBytes (text "6A6b") true = .ok [0x6a, 0x6b] ∧ toBytes (text "abc") true = .error .inputFormat ∧
      toBytes (text "0g") true = .error .inputFormat ∧ toBytes (text "0b 0b") true = .error .inputFormat ∧
      toBytes (text "0x6162") true = .error .inputFormat ∧ toBytes [] true = .ok [] := by decide +kernel
/-- R130: UTF-8 of one, two, three and four bytes. -/
theorem test_text_input :
    toBytes [0x61, 0xe9, 0x20ac, 0x1f600] false =
      .ok [0x61, 0xc3, 0xa9, 0xe2, 0x82, 0xac, 0xf0, 0x9f, 0x98, 0x80] := by decide +kernel
/-- R133: rendering keeps leading zeros. -/
theorem test_render : render [0x0cc175b9] = text "0cc175b9" := by decide +kernel
/-- V-E10, V-E11: exact names. -/
theorem test_algCode :
    algCode (text "SHA-1") = .ok .sha1 ∧ algCode (text "SHA1") = .error .unsupportedAlgorithm ∧
      algCode (text "md5") = .error .unsupportedAlgorithm := by decide +kernel
/-- S4 through the driver. -/
theorem test_driverDigest :
    (driverDigest .md5 (text "abc") false State.reset).1 = .ok (text "900150983cd24fb0d6963f7d28e17f72") := by
  decide +kernel
/-- R134, R292: a driver that finds the engine in ERROR clears it first and returns the digest (S4). -/
theorem test_driverDigest_from_error :
    (driverDigest .md5 (text "abc") false (State.reset.inError .seq)).1 =
      .ok (text "900150983cd24fb0d6963f7d28e17f72") := by
  decide +kernel
/-- V-E7, V-E8, V-E9, V-E12, V-E13. -/
theorem test_driverHmac_errors :
    (driverHmac .ofR135 (text "Hi There") (text "MD5") (some []) false false State.reset).1 = .error .key ∧
    (driverHmac .ofR135 (text "Hi There") (text "MD5") none false true State.reset).1 = .error .key ∧
    (driverHmac .ofR135 (text "Hi There") (text "SHA-512") (some (text "0b")) false true State.reset).1 =
      .error .unsupportedAlgorithm ∧
    (driverHmac .ofR135 (text "Hi There") (text "MD5") (some (text "0b0")) false true State.reset).1 =
      .error .inputFormat ∧
    (driverHmac .ofR135 (text "zz") (text "MD5") (some (text "0b")) true true State.reset).1 = .error .inputFormat := by
  decide +kernel
/-- V-E14: three faults, another order. -/
theorem test_hostErrOrder :
    firstFailure .ofR135 (text "zz") (text "SHA-512") [] true true = some .unsupportedAlgorithm ∧
      firstFailure [.keyPresent, .algorithm, .keyFormat, .messageFormat] (text "zz") (text "SHA-512") [] true true =
        some .key ∧
      HostErrOrder.legal [.keyPresent, .algorithm, .keyFormat, .messageFormat] = true ∧
      HostErrOrder.legal [.keyPresent, .algorithm, .keyFormat] = false := by decide +kernel
/-- R269, X6: the error a STATUS word stands for. -/
theorem test_errorOfStatus :
    errorOfStatus 0x0000012c = .key ∧ errorOfStatus 0x00000204 = .unsupportedAlgorithm ∧
      errorOfStatus 0x00000404 = .internal ∧ errorOfStatus 0x00000504 = .internal := by decide
/-- R89, R90: lines read from their text. -/
theorem test_readLine :
    readLine (text "INIT SHA256 ; open") = some (.init 3) ∧ readLine (text "MBYTE 0x61") = some (.mbyte 0x61) ∧
      readLine (text "KBYTE 255") = some (.kbyte 255) ∧ readLine (text "RD DOUT7") = some (.rdDout 7) ∧
      readLine (text "MSG \"abc\"") = some (.msg (.text (text "abc"))) ∧
      readLine (text "KEY hex:0b0b") = some (.key (.hex (text "0b0b"))) ∧
      readLine (text "init MD5") = none := by
  decide +kernel
/-- X9, X10 as the vectors write them, and the forms of a `<byte>`. -/
theorem test_readLine_word :
    readLine (text ".word ffffffff") = some (.rawWord 0xffffffff) ∧
      readLine (text ".word 00010901") = some (.rawWord 0x00010901) ∧
      readLine (text ".word 0xffffffff") = some (.rawWord 0xffffffff) ∧ readLine (text ".word 0x123456") =
        some (.rawWord 0x123456) ∧ readLine (text ".word 256") = some (.rawWord 256) ∧ readLine (text ".word ff") = none := by
  decide +kernel
/-- R90: MSG stands for one MBYTE a byte. -/
theorem test_expand :
    (Line.msg (.text (text "ab"))).assemble .md5 = some [.write 0x00 4 0x00006105, .write 0x00 4 0x00006205] ∧
      Line.rdDigest.assemble .sha1 = some [.read 0x20 4, .read 0x24 4, .read 0x28 4, .read 0x2c 4, .read 0x30 4] ∧
      (Line.mbyte 256).assemble .md5 = none := by decide +kernel
/-- X16 in short: INIT in mid-call abandons the call, read line by line. -/
theorem test_runScript :
    (runScript [.init 1, .mbyte 0x78, .init 1, .rdStatus] State.reset).bind
      (fun r => (after r).map (fun t => (t.replies, t.eng.mlen))) = some ([0x00000012], 0) := by decide +kernel

/-! Witnesses: values that meet the hypotheses of the obligations, at the boundaries of their ranges. -/

/-- A state in ERROR with ERR_SEQ. -/
def errorState : State := State.reset.inError .seq

/-- A state in MSG with `n` bytes in the open block. -/
def inMsg (n : BitVec 6) (hmac : Bool) (a : Alg) : State :=
  withEngine (fun e => { e with state := .msg, hmac := hmac, alg := a, pos := n, h := hashState a.iv })

theorem test_witness_DecodeAndEncodeAgree : decode 0x0000ff05 = .instr (.mbyte 0xff) ∧ decode 0x00000000 = .instr .nop := by
  decide
theorem test_witness_IllegalWordsRaiseErrCmd :
    (∀ i, decode 0x00010000 ≠ .instr i) ∧ (∀ i, decode 0x00000008 ≠ .instr i) ∧ ∀ i, decode 0x00000107 ≠ .instr i :=
  ⟨illegal_is_no_command (why := .reservedBits) (by decide), illegal_is_no_command (why := .opcode) (by decide),
    illegal_is_no_command (why := .argument) (by decide)⟩
theorem test_witness_StepRunsTheDecodedCommand :
    (State.reset.withCommand 0x0000ab03).host = .write 0x00 4 0x0000ab03 :: [] ∧ decode 0x0000ab03 = .instr (.kbyte 0xab) := by
  decide
theorem test_witness_StepPerformsAccessesInOrder :
    (State.reset.withCommand 0x00000007).host = .write 0x00 4 0x00000007 :: [] ∧ State.reset.host = [] ∧
      performAll [.reset] State.reset = .next State.reset := ⟨rfl, rfl, rfl⟩
theorem test_witness_MismatchedAccessesAreHarmless :
    0 < 6 ∧ 0x08 + 4 * 0 = 0x08 ∧ 5 < 6 ∧ 0x08 + 4 * 5 = 0x1c ∧ 0 < 8 ∧ 0x20 + 4 * 0 = 0x20 ∧ 7 < 8 ∧
      0x20 + 4 * 7 = 0x3c := by decide
theorem test_witness_OnlyAlignedWordAccessesExist :
    (4 = 4 ∧ 0x00 % 4 = 0 ∧ 0x00 ≤ 0x3c) ∧ (4 = 4 ∧ 0x3c % 4 = 0 ∧ 0x3c ≤ 0x3c) ∧ ¬ (4 = 4 ∧ 0x40 % 4 = 0 ∧ 0x40 ≤ 0x3c) ∧
      ¬ (4 = 4 ∧ 0x02 % 4 = 0 ∧ 0x02 ≤ 0x3c) ∧ ¬ (1 = 4 ∧ 0x04 % 4 = 0 ∧ 0x04 ≤ 0x3c) := by decide
theorem test_witness_ClearAndResetZeroEveryItem : 7 < 8 ∧ 79 < 80 ∧ 63 < 64 ∧ 31 < 32 := by decide
theorem test_witness_DoutReadsTheDigestOnlyInDone :
    ((inState .done).eng.state = .done ∧ 3 < (inState .done).eng.alg.arity ∧ 3 < 4) ∧
      ¬ ((inState .done).eng.state = .done ∧ 4 < (inState .done).eng.alg.arity) ∧
      ¬ ((inState .msg).eng.state = .done ∧ 0 < (inState .msg).eng.alg.arity) := by decide
theorem test_witness_TransitionTable : ∀ i, decode 0xffffffff ≠ .instr i :=
  illegal_is_no_command (why := .reservedBits) (by decide)
theorem test_witness_ErrorsArePrecise :
    exec .final State.reset = .next (State.reset.inError .seq) ∧ State.reset.eng.state ≠ .error ∧
      (State.reset.inError .seq).eng.state = .error ∧
      command 0x00000008 State.reset = .next (State.reset.inError .cmd) := ⟨rfl, by decide, rfl, rfl⟩
theorem test_witness_ErrorIgnoresAllButClear :
    errorState.eng.state = .error ∧ decode 0x00000107 ≠ .instr .clear ∧ decode 0x00000007 = .instr .clear ∧
      (∀ a, a ∈ [Access.write 0x00 4 0x00000107] →
        a ≠ .reset ∧ ∀ addr n v, a = .write addr n v → decode v ≠ .instr .clear) ∧
      performAll [.write 0x00 4 0x00000107] errorState = .next errorState := by
  refine ⟨rfl, by decide, by decide, ?_, rfl⟩
  intro a ha
  obtain rfl := List.mem_singleton.1 ha
  refine ⟨by decide, ?_⟩
  intro addr n v h
  cases h
  decide
theorem test_witness_ErrorPriority :
    errorState.eng.state = .error ∧ decode 0x00000006 ≠ .instr .clear ∧
      State.reset.eng.state ≠ .error ∧ (∀ i, decode 0x00010901 ≠ .instr i) ∧
      (inState .msg).eng.state ≠ .key ∧ decode 0x00000004 = .instr .kdone ∧ decode 0x00000103 = .instr (.kbyte 1) ∧
      (inState .key).eng.state ≠ .msg ∧ decode 0x00000006 = .instr .final ∧ decode 0x00006105 = .instr (.mbyte 0x61) ∧
      4 ≤ (4 : Byte).toNat ∧ decode 0x00000401 = .instr (.init 4) ∧ decode 0x00000402 = .instr (.kinit 4) ∧
      (inKey 0).eng.state = .key ∧ (inKey 0).eng.kcnt = 0 :=
  ⟨rfl, by decide, by decide, illegal_is_no_command (why := .reservedBits) (by decide), by decide, by decide, by decide,
    by decide, by decide, by decide, by decide, by decide, by decide, rfl, rfl⟩
theorem test_witness_InitOpensAPlainCall :
    (inState .done).eng.state ≠ .error ∧ 4 ≤ (4 : Byte).toNat ∧ 4 ≤ (255 : Byte).toNat ∧ errorState.eng.state = .error := by
  decide
theorem test_witness_KinitOpensAnHmacCall :
    (inState .idle).eng.state ≠ .error ∧ 4 ≤ (4 : Byte).toNat ∧ 4 ≤ (255 : Byte).toNat ∧ errorState.eng.state = .error := by
  decide
theorem test_witness_MbyteAbsorbsOneByte :
    ((inMsg 62 false .sha1).eng.state = .msg ∧ (inMsg 62 false .sha1).eng.pos ≠ 63) ∧
      ((inMsg 63 false .md4).eng.state = .msg ∧ (inMsg 63 false .md4).eng.pos = 63 ∧
        (inMsg 63 false .md4).eng.alg.little = true) ∧
      ((inState .key).eng.state ≠ .error ∧ (inState .key).eng.state ≠ .msg) ∧ errorState.eng.state = .error := by decide
theorem test_witness_KbyteAbsorbsAndKeepsOneByte :
    ((inKey 63).eng.state = .key ∧ (inKey 63).eng.kcnt.toNat < 64) ∧
      ((inKey 64).eng.state = .key ∧ 64 ≤ (inKey 64).eng.kcnt.toNat) ∧
      ((inKey 65).eng.state = .key ∧ 64 ≤ (inKey 65).eng.kcnt.toNat) ∧
      ((inState .msg).eng.state ≠ .error ∧ (inState .msg).eng.state ≠ .key) ∧ errorState.eng.state = .error := by decide
theorem test_witness_KdoneNormalisesTheKeyAndStartsTheInnerHash :
    ((inKey 1).eng.state = .key ∧ (inKey 1).eng.kcnt ≠ 0 ∧ (inKey 1).eng.kcnt ≠ 65) ∧
      ((inKey 64).eng.state = .key ∧ (inKey 64).eng.kcnt ≠ 0 ∧ (inKey 64).eng.kcnt ≠ 65) ∧
      ((inKey 65).eng.state = .key ∧ (inKey 65).eng.kcnt = 65) ∧
      ((inKey 0).eng.state = .key ∧ (inKey 0).eng.kcnt = 0) ∧
      ((inState .msg).eng.state ≠ .error ∧ (inState .msg).eng.state ≠ .key) ∧
      (inKey 1).eng.alg.little = true ∧ errorState.eng.state = .error := by decide
theorem test_witness_FinalEndsAPlainCall :
    ((inMsg 55 false .md5).eng.state = .msg ∧ (inMsg 55 false .md5).eng.hmac = false ∧
        (inMsg 55 false .md5).eng.alg.little = true ∧ (inMsg 55 false .md5).eng.alg.arity ≤ 4) ∧
      ((inMsg 56 false .sha256).eng.state = .msg ∧ (inMsg 56 false .sha256).eng.hmac = false) ∧
      ((inState .done).eng.state ≠ .error ∧ (inState .done).eng.state ≠ .msg) ∧ errorState.eng.state = .error := by decide
theorem test_witness_FinalRunsTheOuterHashOfAnHmacCall :
    ((inMsg 0 true .md4).eng.state = .msg ∧ (inMsg 0 true .md4).eng.hmac = true ∧ (inMsg 0 true .md4).eng.alg.little = true) ∧
      ((inMsg 63 true .sha256).eng.state = .msg ∧ (inMsg 63 true .sha256).eng.hmac = true) := by decide
theorem test_witness_PutByteWritesOneLane : 1 ≠ (3 : BitVec 6).toNat / 4 ∧ 0 ≠ (4 : BitVec 6).toNat / 4 := by decide
theorem test_witness_FourBytesMakeAWordInTheAlgorithmsOrder :
    (0 : BitVec 6).toNat % 4 = 0 ∧ (60 : BitVec 6).toNat % 4 = 0 := by decide
theorem test_witness_FinishPadsAndPlacesTheLength : 0 < 56 ∧ 55 < 56 := by decide
theorem test_witness_PackerAgreesWithPackedMessage :
    (withEngine (fun e => e.openCall false .sha1 .msg)).eng.pos = 0 ∧
      (withEngine (fun e => e.openCall false .sha1 .msg)).eng.mlen = 0 := ⟨rfl, rfl⟩
theorem test_witness_PackedBlocksHoldTheLengthLast :
    Alg.md5.little = true ∧ Alg.sha1.little = false ∧ ((packMessage .md5 []).getD 0 []) ∈ packMessage .md5 [] := by
  decide +kernel
theorem test_witness_StaleScheduleNeverEntersADigest :
    (∀ i, i < 16 → getAt countingBlock i 0 = getAt (setAt countingBlock 16 0xffffffff) i 0) ∧
      countingBlock ≠ setAt countingBlock 16 0xffffffff := by decide +kernel
theorem test_witness_Sha1ScheduleRecurrence : 15 < 16 ∧ (16 ≤ 16 ∧ 16 ≤ 79) ∧ (16 ≤ 79 ∧ 79 ≤ 79) := by decide
theorem test_witness_Sha256ScheduleRecurrence :
    (15 < 16 ∨ 64 ≤ 15) ∧ (64 < 16 ∨ 64 ≤ 64) ∧ (16 ≤ 16 ∧ 16 ≤ 63) ∧ (16 ≤ 63 ∧ 63 ≤ 63) := by decide
theorem test_witness_Md4RoundTable : 0 < 48 ∧ 47 < 48 := by decide
theorem test_witness_RoundUpdates : 0 < 48 ∧ 47 < 48 ∧ 63 < 64 := by decide
theorem test_witness_CompressReadsAndWrites :
    Alg.md4.arity ≤ 4 ∧ Alg.sha1.arity ≤ 5 ∧ (inMsg 0 false .md5).eng.alg.little = true ∧
      (inMsg 0 false .sha256).eng.alg = .sha256 ∧ 7 < 8 ∧ 15 < 16 ∧ 64 ≤ 64 := by decide
theorem test_witness_DigestByteOrder : 3 < Alg.md5.arity ∧ 7 < Alg.sha256.arity ∧ 3 < 4 := by decide
theorem test_witness_RenderingSpellsTheDigest : (inState .done).eng.state = .done ∧ 0x30 ∈ render [0x00000000] := by
  decide +kernel
theorem test_witness_PlainCallComputesTheDigest : (inState .msg).eng.state ≠ .error := by decide
theorem test_witness_HmacCallComputesTheHmac : (inState .done).eng.state ≠ .error ∧ ([0x00] : List Byte) ≠ [] := by decide
theorem test_witness_CallsArePure :
    State.reset.eng.state ≠ .error ∧ (inKey 1).eng.state ≠ .error ∧ State.reset.eng.controlInv ∧ (inKey 1).eng.controlInv ∧
      ([0x0b] : List Byte) ≠ [] := by decide +kernel
theorem test_witness_LongKeysActAsTheirDigest : 64 < (List.replicate 65 (0xa0 : Byte)).length := by decide
theorem test_witness_HexInputDecodesOrFails :
    (9 < 10 ∧ 5 < 6) ∧
      (([0x36, 0x61] : Text).length % 2 = 0 ∧
        (∀ c, c ∈ ([0x36, 0x61] : Text) → (0x30 ≤ c ∧ c ≤ 0x39) ∨ (0x61 ≤ c ∧ c ≤ 0x66) ∨ (0x41 ≤ c ∧ c ≤ 0x46))) ∧
      (([0x36, 0x61] : Text)[2 * 0]?.bind hexValue = some 6 ∧ ([0x36, 0x61] : Text)[2 * 0 + 1]?.bind hexValue = some 10) ∧
      ([0x36] : Text).length % 2 = 1 ∧
      (0x67 ∈ ([0x36, 0x67] : Text) ∧
        ¬ ((0x30 ≤ 0x67 ∧ 0x67 ≤ 0x39) ∨ (0x61 ≤ 0x67 ∧ 0x67 ≤ 0x66) ∨ (0x41 ≤ 0x67 ∧ 0x67 ≤ 0x46))) := by decide
theorem test_witness_TextInputIsUtf8 :
    (∀ c, c ∈ ([0x00, 0x7f] : Text) → c ≤ 0x7f) ∧
      (toBytes [0x7f] false = .ok [0x7f] ∧ toBytes [0x80] false = .ok [0xc2, 0x80]) ∧
      (0x80 ≤ 0x7ff ∧ 0x7ff ≤ 0x7ff) ∧
      (0x800 ≤ 0xd7ff ∧ 0xd7ff ≤ 0xffff ∧ ¬ (0xd800 ≤ 0xd7ff ∧ 0xd7ff ≤ 0xdfff)) ∧
      (0x800 ≤ 0xe000 ∧ 0xe000 ≤ 0xffff ∧ ¬ (0xd800 ≤ 0xe000 ∧ 0xe000 ≤ 0xdfff)) ∧
      (0x10000 ≤ 0x10ffff ∧ 0x10ffff ≤ 0x10ffff) ∧
      (0xdfff ∈ ([0x61, 0xdfff] : Text) ∧ 0xd800 ≤ 0xdfff ∧ 0xdfff ≤ 0xdfff) ∧
      (0x110000 ∈ ([0x110000] : Text) ∧ 0x110000 ≤ 0x110000) := by decide +kernel
theorem test_witness_DriverDigestReturnsTheDigest :
    toBytes [0x36, 0x31] true = .ok [0x61] ∧ toBytes [] false = .ok [] := by decide +kernel
theorem test_witness_DriverHmacReturnsTheHmac :
    (HostErrOrder.ofR135.legal = true ∧ algCode [0x4d, 0x44, 0x35] = .ok .md5 ∧ toBytes [0x30, 0x62] true = .ok [0x0b] ∧
      ([0x30, 0x62] : Text) ≠ [] ∧ toBytes [0x61] false = .ok [0x61]) ∧
    HostErrOrder.legal [.messageFormat, .keyPresent, .keyFormat, .algorithm] = true ∧
    ((none : Option Text).getD [] = [] ∧ (some [] : Option Text).getD [] = []) ∧
    toBytes ((some [0x30] : Option Text).getD []) true = .error .inputFormat ∧
    toBytes ((some [0xd800] : Option Text).getD []) false = .error .notText := by
  decide +kernel
/-- Its faults: a name that is none of the four (V-E10), a hex key and a hex message that do not decode (V-E12, V-E13). -/
theorem test_witness_DriverHmacReturnsTheHmac_faults :
    (∀ a, algCode [0x53, 0x48, 0x41, 0x31] ≠ .ok a) ∧ (∀ k, toBytes [0x30, 0x62, 0x30] true ≠ .ok k) ∧
      ∀ m, toBytes [0x7a, 0x7a] true ≠ .ok m := by
  refine ⟨?_, ?_, ?_⟩
  · rw [show algCode [0x53, 0x48, 0x41, 0x31] = .error .unsupportedAlgorithm by decide +kernel]; exact fun a h => by cases h
  · rw [show toBytes [0x30, 0x62, 0x30] true = .error .inputFormat by decide +kernel]; exact fun k h => by cases h
  · rw [show toBytes [0x7a, 0x7a] true = .error .inputFormat by decide +kernel]; exact fun m h => by cases h
theorem test_witness_NopChangesNothing :
    (0x00000100 : Word).toNat % 256 = 0 ∧ (0x00000100 : Word) ≠ 0x00000000 ∧ (0x00010000 : Word).toNat % 256 = 0 ∧
      State.reset.eng.state ≠ .error := by decide
theorem test_witness_Md5RoundTable : 0 < 64 ∧ 63 < 64 := by decide
theorem test_witness_Sha256ConstantsAreRootsOfPrimes : 7 < 8 ∧ 63 < 64 := by decide
theorem test_witness_Sha1RoundTable : 0 < 80 ∧ 79 < 80 := by decide
theorem test_witness_ErrorsReachTheHostAndAreCleared : errorState.eng.state = .error := rfl
theorem test_witness_PseudoInstructionsReadOutTheResult :
    (Data.text [0x61]).bytes = .ok [0x61] ∧ (Data.hex [0x30, 0x62]).bytes = .ok [0x0b] ∧ ([0x0b] : List Byte) ≠ [] ∧
      (inState .done).eng.state ≠ .error := by decide +kernel
theorem test_witness_HostErrorOrderIsInvisibleForOneFault :
    HostErrOrder.ofR135.legal = true ∧ HostErrOrder.legal [.messageFormat, .keyPresent, .keyFormat, .algorithm] = true ∧
      (hostCheck .algorithm [0x61] [0x4d] [0x30, 0x62] false true).isSome = true ∧
      ∀ c, (hostCheck c [0x61] [0x4d] [0x30, 0x62] false true).isSome = true → c = .algorithm := by
  refine ⟨by decide, by decide, by decide +kernel, ?_⟩
  intro c
  cases c <;> decide +kernel
theorem test_witness_InstancesShareNothing :
    Platform.stepAt ⟨State.reset, [State.reset.withCommand 0x00000301]⟩ 1 =
        .next ⟨State.reset, [withEngine (fun e => e.openCall false .sha256 .msg)]⟩ ∧
      Platform.stepAt ⟨State.reset.withCommand 0x00000301, []⟩ 0 =
        .next ⟨withEngine (fun e => e.openCall false .sha256 .msg), []⟩ ∧
      (Platform.instances ⟨State.reset.withCommand 0x00000301, []⟩)[0]? = some (State.reset.withCommand 0x00000301) ∧
      step (State.reset.withCommand 0x00000301) = .next (withEngine (fun e => e.openCall false .sha256 .msg)) ∧
      (Platform.instances ⟨State.reset, []⟩).length ≤ 1 ∧
      (Platform.reset ⟨1, by decide⟩).instances = [State.reset] :=
  ⟨rfl, rfl, rfl, rfl, by decide, rfl⟩
theorem test_witness_KeyAndIntermediateStateAreUnreadable :
    (0x00 % 4 = 0 ∧ 0x00 ≤ 0x3c) ∧ (0x3c % 4 = 0 ∧ 0x3c ≤ 0x3c) ∧ (inState .done).eng.state = .done ∧
      (∀ i, i < (inState .done).eng.alg.arity → (inState .done).eng.hAt i =
        Engine.hAt { (inState .done).eng with h := setAt (inState .done).eng.h 7 0xffffffff, kcnt := 5 } i) := by
  decide +kernel
/-- The step of the three invariants: a command placed at reset, and in the key phase. -/
theorem test_witness_EveryStepKeeps :
    ((State.reset.withCommand 0x00000301).eng.controlInv ∧ (State.reset.withCommand 0x00000301).eng.counterInv ∧
      (State.reset.withCommand 0x00000301).eng.registerInv) ∧
    step (State.reset.withCommand 0x00000301) = .next (withEngine (fun e => e.openCall false .sha256 .msg)) :=
  ⟨by decide +kernel, rfl⟩
theorem test_witness_EveryStepKeeps_open_calls :
    (withEngine (fun e => e.openCall true .md5 .key)).eng.controlInv ∧
      (withEngine (fun e => e.openCall true .md5 .key)).eng.counterInv ∧
      (withEngine (fun e => e.openCall true .md5 .key)).eng.registerInv ∧
      (withEngine (fun e => e.openCall false .sha1 .msg)).eng.registerInv ∧
      (State.reset.inError .alg).eng.controlInv :=
  ⟨by decide +kernel, by decide +kernel, by decide +kernel, by decide +kernel, by decide +kernel⟩
theorem test_witness_ErrIsWrittenOnlyByErrorEntryAndClear :
    (exec (.init 4) State.reset = .next (State.reset.inError .alg) ∧
      (State.reset.inError .alg).eng.err ≠ State.reset.eng.err) ∧
    exec .clear errorState = .next State.reset ∧ State.reset.eng.err ≠ errorState.eng.err :=
  ⟨⟨rfl, by decide⟩, rfl, by decide⟩

end Sys2Proof.Tests
end

/-! Proofs of 00_scope.md: the instances of a platform share nothing (R9, R77, R276). -/

namespace Sys2Proof.Machine

/-- R77: where the machine of an instance steps, the platform answers that step, stored for that instance. -/
theorem Platform.stepAt_of_step {p : Platform} {k : Nat} {s t : State}
    (hs : p.instances[k]? = some s) (ht : step s = .next t) : p.stepAt k = .next (p.setInstance k t) := by
  have hhost : stepHost s = .next t := ht
  simp [Platform.stepAt, hs, hhost]

/-- An instance the platform does not have is refused (log entry 10). -/
theorem Platform.stepAt_of_length_le {p : Platform} {k : Nat} (h : p.instances.length ≤ k) :
    p.stepAt k = .refused .noSuchInstance := by
  simp [Platform.stepAt, List.getElem?_eq_none h]

/-- The state written for an instance the platform has is the one read back. -/
theorem Platform.instances_setInstance_same {p : Platform} {k : Nat} {s : State}
    (hs : p.instances[k]? = some s) (t : State) : (p.setInstance k t).instances[k]? = some t := by
  obtain ⟨hk, -⟩ := List.getElem?_eq_some_iff.mp hs
  rw [Platform.instances_setInstance, List.getElem?_set_self hk]

/-- Writing one instance leaves every other one as it was. -/
theorem Platform.instances_setInstance_of_ne (p : Platform) {j k : Nat} (hj : j ≠ k) (t : State) :
    (p.setInstance k t).instances[j]? = p.instances[j]? := by
  rw [Platform.instances_setInstance, List.getElem?_set_ne hj.symm]

/-- Settles O54: a step of a platform is a step of the instance named (`Platform.stepAt_next`), and what it writes is read back
there and nowhere else. -/
theorem instancesShareNothing : Obligations.InstancesShareNothing := by
  refine ⟨Platform.instances_length_pos, Platform.instances_reset, ?stepsItsMachine, ?changesItAlone,
    fun _ _ => Platform.stepAt_of_length_le⟩
  case stepsItsMachine =>
    intro p k s t hs ht
    exact ⟨p.setInstance k t, Platform.stepAt_of_step hs ht, Platform.instances_setInstance_same hs t⟩
  case changesItAlone =>
    intro p q k h
    obtain ⟨s, t, hs, ht, rfl⟩ := Platform.stepAt_next h
    have hlength : (p.setInstance k t).instances.length = p.instances.length := by simp
    exact ⟨hlength, fun _ hj => p.instances_setInstance_of_ne hj t,
      s, t, hs, Platform.instances_setInstance_same hs t, ht⟩

end Sys2Proof.Machine

/-! Proofs of 10_state.md: the registers the host reads (R39 to R43, R111). -/

namespace Sys2Proof.Machine

/-- Decoding an encoded command gives it back (R91). -/
theorem decode_encode (i : Instr) : decode (encode i) = .instr i := by
  obtain ⟨hopc, harg, hrsv⟩ := Laws.EncodedFields.commandWord_fields i.opcode i.argument
  unfold decode formatN encode
  rw [hopc, harg, hrsv]
  cases i <;> rfl

/-- Settles O5: a step takes the oldest access off the list, and a write of an encoded command to CMD decodes to it. -/
theorem stepRunsTheDecodedCommand : Obligations.StepRunsTheDecodedCommand := by
  have hstep : ∀ (s : State) (w : Word) (i : Instr) (rest : List Access),
      s.host = .write 0x00 4 w :: rest → decode w = .instr i → step s = exec i { s with host := rest } := by
    intro s w i rest hhost hdec
    rw [step, stepHost, hhost]
    simp only [perform_write_cmd, command, hdec]
  refine ⟨hstep, fun s i => hstep _ (encode i) i s.host ?_ (decode_encode i)⟩
  have hword : BitVec.ofNat 32 ((encode i).toNat % 2 ^ 32) = encode i := by
    rw [Nat.mod_eq_of_lt (encode i).isLt, BitVec.ofNat_toNat, BitVec.setWidth_eq]
  rw [State.withFetchWord, State.withCommand, hword]

/-- A file of one value reads it at every index, whatever the default. -/
theorem getAt_replicate_of_lt {α : Type} {n i : Nat} (x d : α) (h : i < n) : getAt (Vector.replicate n x) i d = x := by
  rw [getAt_of_lt _ _ _ h, Vector.getElem_replicate]

/-- Outside DONE, and from the arity on, DOUT reads 0 (R111). -/
theorem dout_eq_zero {e : Engine} {i : Nat} (h : ¬ (e.state = .done ∧ i < e.alg.arity)) : e.dout i = 0 := if_neg h

/-- In DONE a register of the digest reads as its rendered word (R111). -/
theorem dout_eq_renderWord {e : Engine} {i : Nat} (hdone : e.state = .done) (hi : i < e.alg.arity) :
    e.dout i = renderWord e.alg (e.hAt i) := if_pos ⟨hdone, hi⟩

/-- Settles O9: CLEAR and reset both give `Engine.reset`, whose every item is 0 (R43). -/
theorem clearAndResetZeroEveryItem : Obligations.ClearAndResetZeroEveryItem := by
  refine ⟨rfl, fun s => ⟨Engine.reset, rfl, rfl, rfl, rfl, rfl, rfl, rfl, rfl, rfl, rfl, rfl, ?_⟩⟩
  refine ⟨fun i hi => ⟨getAt_replicate_of_lt _ _ hi, getAt_replicate_of_lt _ _ hi⟩, fun i hi => getAt_replicate_of_lt _ _ hi,
    fun i hi => getAt_replicate_of_lt _ _ hi, fun i hi => getAt_replicate_of_lt _ _ hi, by decide,
    fun i => dout_eq_zero (by simp)⟩

/-- The fields of a word put together as R40 puts STATUS together. -/
theorem status_fields (e : Engine) :
    e.status.extractLsb' 0 3 = e.state.code ∧ e.status.getLsbD 3 = e.hmac ∧ e.status.extractLsb' 4 2 = e.alg.code ∧
    e.status.extractLsb' 6 2 = 0 ∧ e.status.extractLsb' 8 4 = e.err.code ∧ e.status.extractLsb' 12 20 = 0 := by
  unfold Engine.status
  generalize e.state.code = c, e.alg.code = a, e.err.code = r, e.hmac = m
  refine ⟨?state, by simp, ?alg, ?reserved7to6, ?err, ?reserved31to12⟩
  -- each bit of a field is a bit of one shifted code, or of none
  all_goals
    ext k hk
    simp
    grind

theorem readRegister_status (e : Engine) : e.readRegister 0x04 = e.status := rfl

/-- DOUTi stands at offset 20 + 4i (R61). -/
theorem readRegister_dout (e : Engine) (i : Nat) : e.readRegister (0x20 + 4 * i) = e.dout i := by
  have hindex : (0x20 + 4 * i - 0x20) / 4 = i := by omega
  rw [Engine.readRegister, if_neg (by omega), if_pos (by omega), hindex]

/-- The offsets of DOUT0 to DOUT7 are accesses that exist (R62). -/
theorem accessExists_dout {i : Nat} (hi : i < 8) : accessExists (0x20 + 4 * i) 4 = true :=
  (accessExists_iff _ _).mpr ⟨rfl, by omega, by omega⟩

/-- Settles O10: the fields by `status_fields`, the codes by their definitions, the two accesses by the laws of the bus. -/
theorem statusLayout : Obligations.StatusLayout := by
  refine ⟨status_fields, by decide, by decide, by decide, fun s v => ⟨readRegister_status s.eng, ?read, ?write⟩⟩
  case read => rw [perform_read s 0x04 4 (by decide), readRegister_status]
  case write => exact perform_write_other s 0x04 4 v (by decide) (by decide)

/-- The byte swap exchanges the bytes of opposite significance (R11). -/
theorem byteAt_bswap32 (x : Word) (k : Nat) (hk : k < 4) : byteAt (bswap32 x) (3 - k) = byteAt x k := by
  ext b hb
  unfold bswap32 wordOf byteAt
  interval_cases k <;> simp <;> grind

/-- MD4 and MD5 are the little-endian algorithms (R35). -/
theorem little_iff (a : Alg) : a.little = true ↔ a = .md4 ∨ a = .md5 := by cases a <;> decide

/-- The bytes of a rendered word (R116). -/
theorem byteAt_renderWord (a : Alg) (x : Word) (k : Nat) (hk : k < 4) :
    byteAt (renderWord a x) (3 - k) = if a = .md4 ∨ a = .md5 then byteAt x k else byteAt x (3 - k) := by
  rw [renderWord]
  simp only [little_iff]
  split
  · exact byteAt_bswap32 x k hk
  · rfl

/-- Settles O11: a read of DOUTi returns `dout i`, which is the rendered register in DONE below the arity and 0 otherwise. -/
theorem doutReadsTheDigestOnlyInDone : Obligations.DoutReadsTheDigestOnlyInDone := by
  intro s i hi
  have hx := accessExists_dout hi
  refine ⟨fun x => perform_write_other s _ 4 x hx (by omega), s.eng.dout i, readRegister_dout s.eng i, ?read, ?digest,
    dout_eq_zero⟩
  case read => rw [perform_read s _ 4 hx, readRegister_dout]
  case digest =>
    intro hdone hlt k hk
    rw [dout_eq_renderWord hdone hlt]
    exact byteAt_renderWord _ _ k hk

end Sys2Proof.Machine

/-! Proofs of 10_state.md: a compression reads the block only (R26, R153). -/

namespace Sys2Proof.Machine

/-- Two files read the same below index `m`. -/
def agreeBelow (m : Nat) (v w : Vector Word 80) : Prop := ∀ i, i < m → getAt v i 0 = getAt w i 0

theorem agreeBelow.mono {m n : Nat} {v w : Vector Word 80} (h : agreeBelow n v w) (hmn : m ≤ n) : agreeBelow m v w :=
  fun i hi => h i (by omega)

/-- Round `j` of MD4 reads a word of the block (R164). -/
theorem md4Idx_lt (j : Nat) : md4Idx j < 16 := by
  unfold md4Idx bitrev4
  split <;> omega

/-- Round `j` of MD5 reads a word of the block (R184). -/
theorem md5Idx_lt (j : Nat) : md5Idx j < 16 := by
  unfold md5Idx
  split <;> omega

/-- Rounds that agree on two schedules give the same registers. -/
theorem foldl_range_congr {α : Type} (f g : α → Nat → α) (r : α) (n : Nat) (h : ∀ r j, j < n → f r j = g r j) :
    (List.range n).foldl f r = (List.range n).foldl g r :=
  List.foldl_ext f g r (fun r j hj => h r j (List.mem_range.mp hj))

section

variable {v w : Vector Word 80}

theorem md4Rounds_congr (r : Regs4) (h : agreeBelow 16 v w) : md4Rounds r v = md4Rounds r w := by
  unfold md4Rounds
  refine foldl_range_congr _ _ _ _ (fun r j _ => ?_)
  rw [md4Round, md4Round, h _ (md4Idx_lt j)]

theorem md5Rounds_congr (r : Regs4) (h : agreeBelow 16 v w) : md5Rounds r v = md5Rounds r w := by
  unfold md5Rounds
  refine foldl_range_congr _ _ _ _ (fun r j _ => ?_)
  rw [md5Round, md5Round, h _ (md5Idx_lt j)]

theorem sha1Rounds_congr (r : Regs5) (h : agreeBelow 80 v w) : sha1Rounds r v = sha1Rounds r w := by
  unfold sha1Rounds
  refine foldl_range_congr _ _ _ _ (fun r j hj => ?_)
  rw [sha1Round, sha1Round, h j hj]

theorem sha256Rounds_congr (r : Regs8) (h : agreeBelow 64 v w) : sha256Rounds r v = sha256Rounds r w := by
  unfold sha256Rounds
  refine foldl_range_congr _ _ _ _ (fun r j hj => ?_)
  rw [sha256Round, sha256Round, sha256T1, sha256T1, h j hj]

/-- Writing word `i` the same extends the agreement to it. -/
theorem agreeBelow_setAt {i : Nat} {x y : Word} (h : agreeBelow i v w) (hxy : x = y) :
    agreeBelow (i + 1) (setAt v i x) (setAt w i y) := by
  subst hxy
  intro k hk
  rw [getAt_setAt, getAt_setAt]
  split
  · rfl
  next hne =>
    by_cases hki : k = i
    · rw [getAt_of_le v k 0 (by omega), getAt_of_le w k 0 (by omega)]
    · exact h k (by omega)

end

/-- A schedule whose words are made of earlier words extends an agreement on what it starts from to all it writes. -/
theorem agreeBelow_foldl_range' (expand : Vector Word 80 → Nat → Vector Word 80)
    (hexpand : ∀ v w i, 16 ≤ i → agreeBelow i v w → agreeBelow (i + 1) (expand v i) (expand w i))
    (n i : Nat) (hi : 16 ≤ i) {v w : Vector Word 80} (h : agreeBelow i v w) :
    agreeBelow (i + n) ((List.range' i n).foldl expand v) ((List.range' i n).foldl expand w) := by
  induction n generalizing i v w with
  | zero => exact h
  | succ n ih =>
    rw [List.range'_succ, List.foldl_cons, List.foldl_cons, Nat.add_comm n, ← Nat.add_assoc]
    exact ih (i + 1) (by omega) (hexpand v w i hi h)

section

variable {v w : Vector Word 80}

theorem sha1Expand_agreeBelow (v w : Vector Word 80) (i : Nat) (hi : 16 ≤ i) (h : agreeBelow i v w) :
    agreeBelow (i + 1) (sha1Expand v i) (sha1Expand w i) := by
  apply agreeBelow_setAt h
  rw [h (i - 3) (by omega), h (i - 8) (by omega), h (i - 14) (by omega), h (i - 16) (by omega)]

theorem sha256Expand_agreeBelow (v w : Vector Word 80) (i : Nat) (hi : 16 ≤ i) (h : agreeBelow i v w) :
    agreeBelow (i + 1) (sha256Expand v i) (sha256Expand w i) := by
  apply agreeBelow_setAt h
  rw [h (i - 16) (by omega), h (i - 15) (by omega), h (i - 7) (by omega), h (i - 2) (by omega)]

theorem sha1Schedule_agreeBelow (h : agreeBelow 16 v w) : agreeBelow 80 (sha1Schedule v) (sha1Schedule w) := by
  unfold sha1Schedule
  exact agreeBelow_foldl_range' sha1Expand sha1Expand_agreeBelow 64 16 le_rfl h

theorem sha256Schedule_agreeBelow (h : agreeBelow 16 v w) : agreeBelow 64 (sha256Schedule v) (sha256Schedule w) := by
  unfold sha256Schedule
  exact agreeBelow_foldl_range' sha256Expand sha256Expand_agreeBelow 48 16 le_rfl h

/-- The block function reads nothing of W but the 16 words of the block: MD4 and MD5 index the block, SHA-1 and SHA-256
read a schedule made of it. -/
theorem blockFn_congr (a : Alg) (h : Vector Word 8) (hvw : agreeBelow 16 v w) : blockFn a h v = blockFn a h w := by
  cases a with
  | md4 => rw [blockFn, blockFn, md4Block, md4Block, md4Rounds_congr _ hvw]
  | md5 => rw [blockFn, blockFn, md5Block, md5Block, md5Rounds_congr _ hvw]
  | sha1 => rw [blockFn, blockFn, sha1Block, sha1Block, sha1Rounds_congr _ (sha1Schedule_agreeBelow hvw)]
  | sha256 => rw [blockFn, blockFn, sha256Block, sha256Block, sha256Rounds_congr _ (sha256Schedule_agreeBelow hvw)]

end

/-- Settles O30: `blockFn_congr`, the agreement being on the 16 words of the block. -/
theorem staleScheduleNeverEntersADigest : Obligations.StaleScheduleNeverEntersADigest :=
  fun a h _ _ hvw => blockFn_congr a h hvw

end Sys2Proof.Machine

/-! Proofs of 10_state.md: what a step can do to the engine, and the three invariants every step keeps. -/

namespace Sys2Proof.Machine

/-- What one step can make of the engine `e`: one constructor for each of the ways a command, an access or a reset
changes it (R100, R290), with the checks that lead there. -/
inductive EngineMove (e : Engine) : Engine → Prop where
  /-- A read, an ignored write, NOP, or a word ignored in ERROR. -/
  | stay : EngineMove e e
  /-- CLEAR or the platform's reset (R43). -/
  | reset : EngineMove e Engine.reset
  /-- Error entry (R266); ERR_SIZE is raised by no rule (R264). -/
  | error (c : Err) (running : e.state ≠ .error) (raised : c ≠ .none ∧ c ≠ .size) : EngineMove e (e.enterError c)
  /-- INIT with a code that names an algorithm (R103). -/
  | openPlain (a : Alg) (running : e.state ≠ .error) : EngineMove e (e.openCall false a .msg)
  /-- KINIT with a code that names an algorithm (R241). -/
  | openHmac (a : Alg) (running : e.state ≠ .error) : EngineMove e (e.openCall true a .key)
  /-- KBYTE in KEY (R242). -/
  | keyByte (b : Byte) (inKey : e.state = .key) : EngineMove e (e.takeKeyByte b)
  /-- KDONE in KEY after a key byte (R243). -/
  | endKey (inKey : e.state = .key) : EngineMove e e.endKey
  /-- MBYTE in MSG (R105). -/
  | messageByte (b : Byte) (inMsg : e.state = .msg) : EngineMove e (e.absorbMsg b)
  /-- FINAL in MSG (R106). -/
  | endMessage (inMsg : e.state = .msg) : EngineMove e e.endMessage

/-- Where `r` completes with the engine changed by `f`, the engine it answers is that of `f`. -/
theorem eng_of_complete {f : Engine → Engine} {r : Result} {s t : State} (hr : r = complete s f)
    (h : r = .next t) : t.eng = f s.eng := by
  subst hr; cases h; rfl

/-- A command makes one of the moves. -/
theorem engineMove_of_exec {i : Instr} {s t : State} (h : exec i s = .next t) : EngineMove s.eng t.eng := by
  obtain ⟨hx, -⟩ | ⟨-, hx⟩ | ⟨c, hx, he, hc⟩ | ⟨m, a, c, hx, he, hm⟩ | ⟨b, -, hk, hx⟩ | ⟨-, hk, -, hx⟩ |
    ⟨b, -, hm, hx⟩ | ⟨-, hm, hx⟩ := exec_cases i s
  · rw [hx] at h
    cases h
    exact .stay
  · rw [eng_of_complete hx h, clear_eq_reset]
    exact .reset
  · rw [eng_of_complete hx h]
    exact .error c he (by obtain rfl | rfl | rfl := hc <;> decide)
  · rw [eng_of_complete hx h]
    obtain ⟨rfl, rfl⟩ | ⟨rfl, rfl⟩ := hm
    · exact .openPlain a he
    · exact .openHmac a he
  · rw [eng_of_complete hx h]
    exact .keyByte b hk
  · rw [eng_of_complete hx h]
    exact .endKey hk
  · rw [eng_of_complete hx h]
    exact .messageByte b hm
  · rw [eng_of_complete hx h]
    exact .endMessage hm

/-- A word written to CMD makes one of the moves (R100). -/
theorem engineMove_of_command {w : Word} {s t : State} (h : command w s = .next t) : EngineMove s.eng t.eng := by
  obtain ⟨i, -, hx⟩ | ⟨-, -, hx⟩ | ⟨-, he, hx⟩ := command_cases w s
  · exact engineMove_of_exec (hx ▸ h)
  · rw [hx] at h
    cases h
    exact .stay
  · rw [eng_of_complete hx h]
    exact .error .cmd he (by decide)

/-- A step of the machine makes one of the moves. -/
theorem engineMove_of_step {s t : State} (h : step s = .next t) : EngineMove s.eng t.eng := by
  obtain ⟨a, rest, -, ha⟩ := step_cases s t h
  obtain heng | ⟨-, heng⟩ | ⟨_, _, w, -, hw⟩ := perform_cases a _ t ha
  · rw [heng]
    exact .stay
  · rw [heng]
    exact .reset
  · exact engineMove_of_command (s := { s with host := rest }) hw

/-! The fields KDONE leaves and those the hash operations keep. -/

section fields

variable (b : Byte) (e : Engine)

@[simp] theorem endKey_state : e.endKey.state = .msg := rfl
@[simp] theorem endKey_err : e.endKey.err = e.err := by simp [Engine.endKey]
@[simp] theorem endKey_hmac : e.endKey.hmac = e.hmac := by simp [Engine.endKey]
@[simp] theorem endKey_alg : e.endKey.alg = e.alg := by simp [Engine.endKey]
@[simp] theorem endKey_kcnt : e.endKey.kcnt = e.kcnt := by simp [Engine.endKey]
@[simp] theorem endKey_idb : e.endKey.idb = e.idb := by simp [Engine.endKey]
@[simp] theorem endKey_pos : e.endKey.pos = 0 := by simp [Engine.endKey]
@[simp] theorem endKey_mlen : e.endKey.mlen = 512 := by simp [Engine.endKey]

/-- FINAL writes ID in an HMAC call only (R106, R244). -/
theorem endMessage_idb : e.endMessage.idb =
    if e.hmac then storeFrom (Vector.replicate 32 0) 0 e.finish.digestBytes else e.idb := by
  unfold Engine.endMessage
  split <;> simp

end fields

/-! The control fields (R31, R33, R34). -/

/-- An open or finished call has its control fields in agreement when no error stands in ERR. -/
theorem controlInv_of_call {e : Engine} (herr : e.err = .none) (hrun : e.state ≠ .error) (hcall : e.state ≠ .idle)
    (hkey : e.state = .key → e.hmac = true) : e.controlInv := by
  refine ⟨by simp [herr, hrun], by simp [herr], fun h => absurd h hcall, hkey⟩

/-- The reset engine has its control fields in agreement (R43). -/
theorem controlInv_reset : Engine.reset.controlInv := by decide

/-- Every move keeps the control fields in agreement: outside ERROR the invariant says that ERR is 0, and no move of a
running call writes it. -/
theorem EngineMove.keeps_controlInv {e f : Engine} (h : EngineMove e f) (he : e.controlInv) : f.controlInv := by
  have ⟨herriff, _, _, hhmac⟩ := he
  have herr : e.state ≠ .error → e.err = .none := herriff.mpr
  cases h with
  | stay => exact he
  | reset => exact controlInv_reset
  | error c _ hc => exact ⟨by simp [hc.1], hc.2, by simp, by simp⟩
  | openPlain a hrun => exact controlInv_of_call (herr hrun) (by simp) (by simp) (by simp)
  | openHmac a hrun => exact controlInv_of_call (herr hrun) (by simp) (by simp) (by simp)
  | keyByte b hk =>
    exact controlInv_of_call (by simp [hk, herr]) (by simp [hk]) (by simp [hk]) (by simpa using hhmac)
  | endKey hk => exact controlInv_of_call (by simp [hk, herr]) (by simp) (by simp) (by simp)
  | messageByte b hm =>
    exact controlInv_of_call (by simp [hm, herr]) (by simp [hm]) (by simp [hm]) (by simp [hm])
  | endMessage hm => exact controlInv_of_call (by simp [hm, herr]) (by simp) (by simp) (by simp)

/-- Settles O56: every step is a move of the engine, and every move keeps the control fields in agreement. -/
theorem everyStepKeepsControlInv : Obligations.EveryStepKeepsControlInv :=
  fun _ _ he h => (engineMove_of_step h).keeps_controlInv he

/-! The counters J, KCNT, MLEN and POS (R27, R28, R30, R37). -/

/-- A compression leaves J at 0 and nothing else in the packer writes it (R30). -/
theorem absorbMsg_j {e : Engine} (b : Byte) (hj : e.j = 0) : (e.absorbMsg b).j = 0 := by
  rw [Engine.absorbMsg, countByte_j, absorb_cases]
  split <;> simp [hj]

theorem takeKeyByte_j {e : Engine} (b : Byte) (hj : e.j = 0) : (e.takeKeyByte b).j = 0 := by
  rw [Engine.takeKeyByte, countKeyByte_j]
  exact absorbMsg_j b (by simpa using hj)

theorem endKey_j {e : Engine} (hj : e.j = 0) : e.endKey.j = 0 := by
  have hnorm : e.normaliseKey.j = 0 := by
    unfold Engine.normaliseKey
    split <;> simp [hj]
  exact absorbAll_keeps (fun f => f.j = 0) (fun b _ => absorbMsg_j b) _ _ (by simpa using hnorm)

/-- MLEN is a whole number of bytes and POS that number modulo 64 (R27, R28). -/
def countsBytes (mlen : BitVec 64) (pos : BitVec 6) : Prop :=
  mlen.toNat % 8 = 0 ∧ pos.toNat = mlen.toNat / 8 % 64

/-- One more byte counted in both, through the wrap of MLEN at 2^64. -/
theorem countsBytes_succ {mlen : BitVec 64} {pos : BitVec 6} (h : countsBytes mlen pos) :
    countsBytes (mlen + 8) (pos + 1) := by
  unfold countsBytes at *
  bv_omega

/-- KCNT as a number after one more key byte: it saturates at 65 (R37). -/
theorem takeKeyByte_kcnt_toNat (b : Byte) (e : Engine) : (e.takeKeyByte b).kcnt.toNat =
    if e.kcnt.toNat < 65 then e.kcnt.toNat + 1 else e.kcnt.toNat := by
  have hlt : e.kcnt < 65 ↔ e.kcnt.toNat < 65 := by bv_omega
  rw [takeKeyByte_kcnt]
  simp only [hlt]
  split
  · bv_omega
  · rfl

/-- While KCNT counts the key bytes, MLEN counts their bits (R37). -/
theorem takeKeyByte_mlen_eq {e : Engine} (b : Byte) (h : e.kcnt.toNat ≤ 64 → e.mlen.toNat = 8 * e.kcnt.toNat)
    (hle : (e.takeKeyByte b).kcnt.toNat ≤ 64) :
    (e.takeKeyByte b).mlen.toNat = 8 * (e.takeKeyByte b).kcnt.toNat := by
  rw [takeKeyByte_kcnt_toNat] at hle ⊢
  by_cases hlt : e.kcnt.toNat < 65
  · rw [if_pos hlt] at hle ⊢
    rw [takeKeyByte_mlen]
    bv_omega
  · rw [if_neg hlt] at hle
    omega

/-- The reset engine has its counters in agreement (R43). -/
theorem counterInv_reset : Engine.reset.counterInv := by decide

/-- Every move keeps the counters in agreement: a byte moves MLEN, POS and KCNT together, a hash that starts or ends sets
them to fixed values. -/
theorem EngineMove.keeps_counterInv {e f : Engine} (h : EngineMove e f) (he : e.counterInv) : f.counterInv := by
  have ⟨hj, hkcnt, hopen, hkey, _⟩ := he
  cases h with
  | stay => exact he
  | reset => exact counterInv_reset
  | error c _ _ => exact ⟨hj, hkcnt, by simp, by simp, by simp⟩
  | openPlain a _ => exact ⟨by simp, by simp, by simp, by simp, by simp⟩
  | openHmac a _ => exact ⟨by simp, by simp, by simp, by simp, by simp⟩
  | keyByte b hk =>
    have hle : (e.takeKeyByte b).kcnt.toNat ≤ 65 := by
      rw [takeKeyByte_kcnt_toNat]
      split <;> omega
    have hcounts : countsBytes (e.takeKeyByte b).mlen (e.takeKeyByte b).pos := by
      rw [takeKeyByte_mlen, takeKeyByte_pos]
      exact countsBytes_succ (hopen (.inl hk))
    exact ⟨takeKeyByte_j b hj, hle, fun _ => hcounts, fun _ => takeKeyByte_mlen_eq b (hkey hk), by simp [hk]⟩
  | endKey hk => exact ⟨endKey_j hj, by simpa using hkcnt, by simp, by simp, by simp⟩
  | messageByte b hm =>
    have hcounts : countsBytes (e.absorbMsg b).mlen (e.absorbMsg b).pos := by
      rw [absorbMsg_mlen, absorbMsg_pos]
      exact countsBytes_succ (hopen (.inr hm))
    exact ⟨absorbMsg_j b hj, by simpa using hkcnt, fun _ => hcounts, by simp [hm], by simp [hm]⟩
  | endMessage hm => exact ⟨by simp, by simpa using hkcnt, by simp, by simp, by simp⟩

/-- Settles O57: every step is a move of the engine, and every move keeps the counters in agreement. -/
theorem everyStepKeepsCounterInv : Obligations.EveryStepKeepsCounterInv :=
  fun _ _ he h => (engineMove_of_step h).keeps_counterInv he

/-! The register files H, ID and KB (R22, R36, R38). -/

/-- The registers of H the algorithm does not use are 0 (R22). -/
def Engine.unusedZero (e : Engine) : Prop := ∀ i, i < 8 → e.alg.arity ≤ i → e.hAt i = 0

/-- Only ALG and H say which registers are unused and what they hold. -/
theorem unusedZero_congr {e f : Engine} (ha : f.alg = e.alg) (hh : f.h = e.h) (he : e.unusedZero) : f.unusedZero := by
  unfold Engine.unusedZero Engine.hAt at *
  rwa [ha, hh]

/-- The feed-forward of a core writes only the registers its algorithm uses (R147). -/
theorem getAt_blockFn_of_arity_le (a : Alg) (h : Vector Word 8) (w : Vector Word 80) (k : Nat) (hk : a.arity ≤ k) :
    getAt (blockFn a h w) k 0 = getAt h k 0 := by
  cases a <;> simp only [Alg.arity] at hk
  · rw [blockFn, md4Block, getAt_feedForward _ _ _ _ _ (by simp [Regs4.list]), if_neg (by simp [Regs4.list]; omega)]
  · rw [blockFn, md5Block, getAt_feedForward _ _ _ _ _ (by simp [Regs4.list]), if_neg (by simp [Regs4.list]; omega)]
  · rw [blockFn, sha1Block, getAt_feedForward _ _ _ _ _ (by simp [Regs5.list]), if_neg (by simp [Regs5.list]; omega)]
  · rw [blockFn, sha256Block, getAt_feedForward _ _ _ _ _ (by simp [Regs8.list]), if_neg (by simp [Regs8.list]; omega)]

/-- An initial value has as many words as the algorithm has registers (R47). -/
theorem iv_length (a : Alg) : a.iv.length = a.arity := by cases a <;> rfl

theorem unusedZero_of_iv {e : Engine} (hh : e.h = hashState e.alg.iv) : e.unusedZero := by
  intro i hi ha
  rw [Engine.hAt, hh, getAt_hashState, if_pos hi, List.getD_eq_default _ _ (by rwa [iv_length])]

theorem compress_unusedZero {e : Engine} (he : e.unusedZero) : e.compress.unusedZero := by
  intro i hi ha
  rw [compress_alg] at ha
  rw [Engine.hAt, compress_h, getAt_blockFn_of_arity_le _ _ _ _ ha]
  exact he i hi ha

theorem absorb_unusedZero (b : Byte) {e : Engine} (he : e.unusedZero) : (e.absorb b).unusedZero := by
  have hput : (e.putByte e.pos b).advance.unusedZero := unusedZero_congr rfl rfl he
  rw [absorb_cases]
  split
  · exact compress_unusedZero hput
  · exact hput

theorem absorbMsg_unusedZero (b : Byte) {e : Engine} (he : e.unusedZero) : (e.absorbMsg b).unusedZero :=
  unusedZero_congr rfl rfl (absorb_unusedZero b he)

theorem absorbAll_unusedZero (bs : List Byte) {e : Engine} (he : e.unusedZero) : (e.absorbAll bs).unusedZero :=
  absorbAll_keeps Engine.unusedZero (fun b _ => absorbMsg_unusedZero b) bs e he

theorem finish_unusedZero {e : Engine} (he : e.unusedZero) : e.finish.unusedZero := by
  have hpad : (Engine.padZeros 63 (e.absorb 0x80)).unusedZero :=
    padZeros_keeps Engine.unusedZero (fun b _ => absorb_unusedZero b) _ _ (absorb_unusedZero _ he)
  exact compress_unusedZero (unusedZero_congr rfl rfl hpad)

/-- A hash started afresh has the IV and zeros in H, whatever stood there. -/
theorem restartHash_unusedZero (e : Engine) : e.restartHash.unusedZero := unusedZero_of_iv rfl

theorem takeKeyByte_unusedZero (b : Byte) {e : Engine} (he : e.unusedZero) : (e.takeKeyByte b).unusedZero :=
  unusedZero_congr (by simp [Engine.takeKeyByte]) (by simp [Engine.takeKeyByte])
    (absorbMsg_unusedZero b (unusedZero_congr (keepKeyByte_alg b e) (keepKeyByte_h b e) he))

theorem endKey_unusedZero (e : Engine) : e.endKey.unusedZero :=
  unusedZero_congr rfl rfl (absorbAll_unusedZero (padBlock Config.ipadByte e.normaliseKey.kb)
    (restartHash_unusedZero e.normaliseKey))

theorem hmacOuter_unusedZero (e : Engine) : e.hmacOuter.unusedZero :=
  finish_unusedZero (absorbAll_unusedZero _ (absorbAll_unusedZero _ (restartHash_unusedZero e.keepInner)))

theorem endMessage_unusedZero {e : Engine} (he : e.unusedZero) : e.endMessage.unusedZero := by
  cases hm : e.hmac with
  | true =>
    have hh : e.endMessage.h = e.finish.hmacOuter.h := by simp [Engine.endMessage, hm]
    exact unusedZero_congr (by simp) hh (hmacOuter_unusedZero e.finish)
  | false =>
    have hh : e.endMessage.h = e.finish.h := by simp [Engine.endMessage, hm]
    exact unusedZero_congr (by simp) hh (finish_unusedZero he)

/-- The bytes of ID beyond the digest are 0 (R38). -/
def Engine.idTailZero (e : Engine) : Prop := ∀ i, i < 32 → e.alg.digestBytes ≤ i → getAt e.idb i 0 = 0

/-- A digest has four bytes for each register (R35, R117). -/
theorem digestBytes_length (e : Engine) : e.digestBytes.length = e.alg.digestBytes := by
  simp [Engine.digestBytes, digestBytesOf, bytesOf, Alg.digestBytes, Nat.mul_comm]

/-- Bytes stored over zeros leave zeros after them. -/
theorem getAt_storeFrom_zeros {n : Nat} (bs : List Byte) (i : Nat) (h : bs.length ≤ i) :
    getAt (storeFrom (Vector.replicate n 0) 0 bs) i 0 = 0 := by
  rw [getAt_storeFrom, if_neg (by omega), getAt_replicate]

theorem endMessage_idTailZero {e : Engine} (he : e.idTailZero) : e.endMessage.idTailZero := by
  intro i hi ha
  rw [endMessage_alg] at ha
  rw [endMessage_idb]
  split
  · exact getAt_storeFrom_zeros _ _ (by rwa [digestBytes_length, finish_alg])
  · exact he i hi ha

/-- In a call that collects a key, the key so far stands over zeros (R36). -/
def Engine.keyTailZero (e : Engine) : Prop := ∀ i, i < 64 → e.kcnt.toNat ≤ i → getAt e.kb i 0 = 0

theorem takeKeyByte_keyTailZero (b : Byte) {e : Engine} (he : e.keyTailZero) : (e.takeKeyByte b).keyTailZero := by
  intro i hi hle
  rw [takeKeyByte_kcnt_toNat] at hle
  have hlt : e.kcnt.toNat < i := by split at hle <;> omega
  rw [takeKeyByte_kb]
  split
  · rw [getAt_setAt_ne _ _ _ _ _ (by omega)]
    exact he i hi (by omega)
  · exact he i hi (by omega)

/-- The reset engine has its register files in order (R43). -/
theorem registerInv_reset : Engine.reset.registerInv := by decide

/-- A call just opened has its IV over zeros in H and no key material. -/
theorem openCall_registerInv (m : Bool) (a : Alg) (c : Ctl) (e : Engine) (hm : c = .key → m = true) :
    (e.openCall m a c).registerInv :=
  ⟨unusedZero_of_iv rfl, by simp, by simp, hm, by simp⟩

/-- Every move keeps the register files in order: H through the compressions, KB through KBYTE, ID through the end of an
HMAC call; KBYTE and KDONE happen in an HMAC call only. -/
theorem EngineMove.keeps_registerInv {e f : Engine} (h : EngineMove e f) (he : e.registerInv) : f.registerInv := by
  have ⟨hregs, hid, hkb, hhmac, hplain⟩ := he
  cases h with
  | stay => exact he
  | reset => exact registerInv_reset
  | error c _ _ => exact ⟨hregs, hid, by simp, by simp, hplain⟩
  | openPlain a _ => exact openCall_registerInv false a .msg e (by simp)
  | openHmac a _ => exact openCall_registerInv true a .key e (by simp)
  | keyByte b hk =>
    exact ⟨takeKeyByte_unusedZero b hregs, by simpa using hid, fun _ => takeKeyByte_keyTailZero b (hkb hk),
      by simpa using hhmac, by simp [hhmac hk]⟩
  | endKey hk => exact ⟨endKey_unusedZero e, by simpa using hid, by simp, by simp, by simp [hhmac hk]⟩
  | messageByte b hm =>
    exact ⟨absorbMsg_unusedZero b hregs, by simpa using hid, by simp [hm], by simp [hm], by simpa using hplain⟩
  | endMessage hm =>
    refine ⟨endMessage_unusedZero hregs, endMessage_idTailZero hid, by simp, by simp, ?_⟩
    rw [endMessage_hmac, endMessage_kb, endMessage_kcnt, endMessage_idb]
    exact fun hf => by simpa [hf] using hplain hf

/-- Settles O58: every step is a move of the engine, and every move keeps the register files in order. -/
theorem everyStepKeepsRegisterInv : Obligations.EveryStepKeepsRegisterInv :=
  fun _ _ he h => (engineMove_of_step h).keeps_registerInv he

/-- Settles O59: the base case of the three invariants. -/
theorem resetMeetsTheInvariants : Obligations.ResetMeetsTheInvariants :=
  ⟨controlInv_reset, counterInv_reset, registerInv_reset⟩

/-- Settles O60: of a command's moves only error entry and CLEAR write ERR. -/
theorem errIsWrittenOnlyByErrorEntryAndClear : Obligations.ErrIsWrittenOnlyByErrorEntryAndClear := by
  intro i s t h hne
  obtain ⟨hx, -⟩ | ⟨hi, hx⟩ | ⟨c, hx, -⟩ | ⟨m, a, c, hx, -⟩ | ⟨b, -, -, hx⟩ | ⟨-, -, -, hx⟩ | ⟨b, -, -, hx⟩ |
    ⟨-, -, hx⟩ := exec_cases i s
  · rw [hx] at h
    cases h
    exact absurd rfl hne
  · exact .inr ⟨hi, eng_of_complete hx h⟩
  · exact .inl (by rw [eng_of_complete hx h, enterError_state])
  · exact absurd (by rw [eng_of_complete hx h, openCall_err]) hne
  · exact absurd (by rw [eng_of_complete hx h, takeKeyByte_err]) hne
  · exact absurd (by rw [eng_of_complete hx h, endKey_err]) hne
  · exact absurd (by rw [eng_of_complete hx h, absorbMsg_err]) hne
  · exact absurd (by rw [eng_of_complete hx h, endMessage_err]) hne

end Sys2Proof.Machine

/-! Proofs of 20_memory.md: the accesses of the register space (R60 to R69, R118). -/

namespace Sys2Proof.Machine

/-- An access that does not exist is refused, read or write (R62). -/
theorem perform_of_not_exists {addr n : Nat} (h : accessExists addr n ≠ true) (s : State) (v : Word) :
    perform (.read addr n) s = .refused .noSuchAccess ∧ perform (.write addr n v) s = .refused .noSuchAccess := by
  constructor
  · rw [perform, busRead, if_neg h]
  · rw [perform, busWrite, if_neg h]

/-- A command completes, whatever the state: its errors are next states (R266). -/
theorem exec_completes (i : Instr) (s : State) : ∃ t, exec i s = .next t := by
  obtain ⟨hx, -⟩ | ⟨-, hx⟩ | ⟨_, hx, -⟩ | ⟨_, _, _, hx, -⟩ | ⟨_, -, -, hx⟩ | ⟨-, -, -, hx⟩ | ⟨_, -, -, hx⟩ |
    ⟨-, -, hx⟩ := exec_cases i s
  all_goals exact ⟨_, hx⟩

/-- Every word written to CMD is taken, the illegal ones as errors (R100). -/
theorem command_completes (w : Word) (s : State) : ∃ t, command w s = .next t := by
  obtain ⟨i, -, hx⟩ | ⟨-, -, hx⟩ | ⟨-, -, hx⟩ := command_cases w s
  · rw [hx]
    exact exec_completes i s
  · exact ⟨s, hx⟩
  · exact ⟨_, hx⟩

/-- A write that exists is admitted: as a command at CMD, as nothing elsewhere (R63, R64). -/
theorem perform_write_completes {addr n : Nat} (h : accessExists addr n = true) (s : State) (v : Word) :
    ∃ t, perform (.write addr n v) s = .next t := by
  by_cases h0 : addr = 0
  · obtain ⟨rfl, -, -⟩ := (accessExists_iff addr n).mp h
    subst h0
    rw [perform_write_cmd]
    exact command_completes v s
  · exact ⟨s, perform_write_other s addr n v h h0⟩

/-- CMD and the offsets below DOUT other than that of STATUS read 0 (R63, R64). -/
theorem readRegister_eq_zero (e : Engine) {addr : Nat} (hstatus : addr ≠ 0x04) (hdout : addr < 0x20) :
    e.readRegister addr = 0 := by
  rw [Engine.readRegister, if_neg hstatus, if_neg (by omega)]

/-- The reserved offsets 08 to 1C are accesses that exist (R62, R64). -/
theorem accessExists_reserved {k : Nat} (hk : k < 6) : accessExists (0x08 + 4 * k) 4 = true :=
  (accessExists_iff _ _).mpr ⟨rfl, by omega, by omega⟩

/-- A list of accesses is performed in order: its first part, then the rest from where that ended (R69). -/
theorem performAll_append {xs ys : List Access} {s t : State} (h : performAll xs s = .next t) :
    performAll (xs ++ ys) s = performAll ys t := by
  induction xs generalizing s with
  | nil =>
    cases h
    rfl
  | cons a xs ih =>
    cases ha : perform a s with
    | next u =>
      rw [performAll_cons a xs s u ha] at h
      rw [List.cons_append, performAll_cons a _ s u ha]
      exact ih h
    | fault r => simp [performAll, ha] at h
    | refused r => simp [performAll, ha] at h

/-- Settles O6: the two cases of the host's list, and the append law of `performAll`. -/
theorem stepPerformsAccessesInOrder : Obligations.StepPerformsAccessesInOrder := by
  refine ⟨?oldest, ?stuck, fun _ _ _ _ => performAll_append⟩
  case oldest =>
    intro s a rest hhost
    rw [step, stepHost, hhost]
  case stuck =>
    intro s hhost
    rw [step, stepHost, hhost]

/-- Settles O7: the offsets are accesses that exist, their registers read 0, and only a write to CMD does anything. -/
theorem mismatchedAccessesAreHarmless : Obligations.MismatchedAccessesAreHarmless := by
  intro s
  refine ⟨?readCmd, fun k hk => ?readReserved, fun v => ?writeStatus, fun k v hk => ?writeReserved,
    fun i v hi => ?writeDout⟩
  case readCmd => rw [perform_read s 0x00 4 (by decide), readRegister_eq_zero _ (by decide) (by decide)]
  case readReserved =>
    rw [perform_read s _ 4 (accessExists_reserved hk), readRegister_eq_zero _ (by omega) (by omega)]
  case writeStatus => exact perform_write_other s 0x04 4 v (by decide) (by decide)
  case writeReserved => exact perform_write_other s _ 4 v (accessExists_reserved hk) (by omega)
  case writeDout => exact perform_write_other s _ 4 v (accessExists_dout hi) (by omega)

/-- Settles O8: the condition of R62 is `accessExists`, which decides between refusal and an answer. -/
theorem onlyAlignedWordAccessesExist : Obligations.OnlyAlignedWordAccessesExist := by
  intro s addr n v
  have hiff : accessExists addr n = true ↔ n = 4 ∧ addr % 4 = 0 ∧ addr ≤ 0x3c := by
    rw [accessExists_iff]
    omega
  rw [← hiff]
  refine ⟨fun hx => perform_of_not_exists hx s v, fun hx => ?_⟩
  obtain ⟨u, hu⟩ := perform_write_completes hx s v
  exact ⟨_, u, perform_read s addr n hx, rfl, hu⟩

end Sys2Proof.Machine

/-! Proofs of 20_memory.md: the byte order of a word and of the digest (R67, R74, R117). -/

namespace Sys2Proof.Machine

/-- Lists of four, one after the other: entry `4 i + k` is entry `k` of the list made for `i`. -/
theorem getElem?_flatMap_four {α : Type} (f : Nat → List α) (hf : ∀ i, (f i).length = 4) {n i k : Nat}
    (hi : i < n) (hk : k < 4) : ((List.range n).flatMap f)[4 * i + k]? = (f i)[k]? := by
  induction n with
  | zero => omega
  | succ n ih =>
    have hlength : ((List.range n).flatMap f).length = 4 * n := by simp [hf, Nat.mul_comm]
    rw [List.range_succ, List.flatMap_append, List.flatMap_singleton]
    obtain hlt | rfl := Nat.lt_succ_iff_lt_or_eq.mp hi
    · rw [List.getElem?_append_left (by omega)]
      exact ih hlt
    · rw [List.getElem?_append_right (by omega), hlength, Nat.add_sub_cancel_left]

/-- The bytes of a word, most significant first (R117). -/
theorem getElem?_bytesOf (x : Word) {k : Nat} (hk : k < 4) : (bytesOf x)[k]? = some (byteAt x (3 - k)) := by
  interval_cases k <;> rfl

/-- Settles O41: the digest is four bytes for each register, those of the rendered word. -/
theorem digestByteOrder : Obligations.DigestByteOrder := by
  refine fun e => ⟨digestBytes_length e, fun i k hi hk => ?_⟩
  have hshift : 8 * (3 - k) = 24 - 8 * k := by omega
  rw [Engine.digestBytes, digestBytesOf, getElem?_flatMap_four _ (fun _ => rfl) hi hk, getElem?_bytesOf _ hk,
    byteAt_renderWord _ _ _ hk, byteAt, byteAt, hshift, Engine.hAt]

end Sys2Proof.Machine

/-! Proofs of 20_memory.md: bytes put into the words of the block buffer (R67, R141). -/

namespace Sys2Proof.Machine

/-- Which byte of a word, by significance, lane `k` is (R141). -/
def lane (little : Bool) (k : Nat) : Nat := if little then k else 3 - k

theorem lane_lt (little : Bool) {k : Nat} (hk : k < 4) : lane little k < 4 := by
  unfold lane
  split <;> omega

/-- Different lanes are different bytes. -/
theorem lane_inj (little : Bool) {j k : Nat} (hj : j < 4) (hk : k < 4) : lane little j = lane little k ↔ j = k := by
  unfold lane
  split <;> omega

/-- Lane `k` begins at the lowest bit of its byte. -/
theorem laneShift_eq (little : Bool) (k : Nat) : laneShift little k = 8 * lane little k := by
  unfold laneShift lane
  split <;> omega

/-- A buffer byte is the byte of its word that its lane names. -/
theorem bufferByte_eq (e : Engine) (q : Nat) :
    e.bufferByte q = byteAt (e.wAt (q / 4)) (lane e.alg.little (q % 4)) := by
  unfold Engine.bufferByte lane
  split <;> rfl

/-- The byte mask of R141 has its low eight bits set. -/
theorem getElem_byteMask (i : Nat) (hi : i < 32) : (255#32)[i] = decide (i < 8) := by
  have hmask : 255#32 = (BitVec.allOnes 8).setWidth 32 := rfl
  rw [← BitVec.getLsbD_eq_getElem, hmask, BitVec.getLsbD_setWidth, BitVec.getLsbD_allOnes]
  simp [hi]

/-- The bytes of a word after lane `k` was written. -/
theorem byteAt_setLane (little : Bool) (k j : Nat) (b : Byte) (x : Word) (hj : j < 4) :
    byteAt (setLane little k b x) j = if j = lane little k then b else byteAt x j := by
  rw [setLane, laneShift_eq]
  ext i hi
  have hbit : 8 * j + i < 32 := by omega
  obtain rfl | hne := eq_or_ne j (lane little k)
  · simp [byteAt, getElem_byteMask, hbit, hi]
  · simp [byteAt, getElem_byteMask, hne, hbit]
    -- a bit of byte `j` is below the byte written, or beyond it
    grind

/-- The word of an offset is the one its byte number falls in. -/
theorem wordIndex_eq (p : BitVec 6) : wordIndex p = p.toNat / 4 := by
  rw [wordIndex, BitVec.extractLsb'_toNat, Nat.shiftRight_eq_div_pow]
  omega

theorem laneIndex_eq (p : BitVec 6) : laneIndex p = p.toNat % 4 := by
  rw [laneIndex, BitVec.extractLsb'_toNat, Nat.shiftRight_eq_div_pow]
  omega

/-- The words of W after PutByte (R141). -/
theorem putByte_wAt (e : Engine) (p : BitVec 6) (b : Byte) (i : Nat) : (e.putByte p b).wAt i =
    if i = p.toNat / 4 then setLane e.alg.little (p.toNat % 4) b (e.wAt i) else e.wAt i := by
  have hin : p.toNat / 4 < 80 := by omega
  rw [Engine.wAt, putByte_w, getAt_setAt, wordIndex_eq, laneIndex_eq]
  by_cases hi : i = p.toNat / 4
  · rw [if_pos ⟨hi, hin⟩, if_pos hi, hi]
  · rw [if_neg (fun h => hi h.1), if_neg hi, Engine.wAt]

/-- PutByte writes its byte at its offset and keeps every other byte of W (R141). -/
theorem bufferByte_putByte (e : Engine) (p : BitVec 6) (b : Byte) (q : Nat) :
    (e.putByte p b).bufferByte q = if q = p.toNat then b else e.bufferByte q := by
  rw [bufferByte_eq, bufferByte_eq, putByte_wAt, putByte_alg]
  by_cases hword : q / 4 = p.toNat / 4
  · have hoffset : q % 4 = p.toNat % 4 ↔ q = p.toNat := by omega
    rw [if_pos hword, byteAt_setLane _ _ _ _ _ (lane_lt _ (by omega))]
    simp only [lane_inj _ (Nat.mod_lt q (by decide)) (Nat.mod_lt p.toNat (by decide)), hoffset]
  · have hne : q ≠ p.toNat := by
      rintro rfl
      exact hword rfl
    rw [if_neg hword, if_neg hne]

/-- A word put together from four bytes is their concatenation (R10). -/
theorem wordOf_eq_append (b3 b2 b1 b0 : Byte) : wordOf b3 b2 b1 b0 = b3 ++ b2 ++ b1 ++ b0 := by
  ext i hi
  simp [wordOf]
  grind

/-- A word put together from four bytes, as a number. -/
theorem toNat_wordOf (b3 b2 b1 b0 : Byte) :
    (wordOf b3 b2 b1 b0).toNat = b3.toNat * 2 ^ 24 + b2.toNat * 2 ^ 16 + b1.toNat * 2 ^ 8 + b0.toNat := by
  rw [wordOf_eq_append, BitVec.toNat_append, BitVec.toNat_append, BitVec.toNat_append,
    ← Nat.shiftLeft_add_eq_or_of_lt b2.isLt, ← Nat.shiftLeft_add_eq_or_of_lt b1.isLt,
    ← Nat.shiftLeft_add_eq_or_of_lt b0.isLt]
  omega

/-- A word is put together from its own four bytes. -/
theorem wordOf_byteAt (x : Word) : wordOf (byteAt x 3) (byteAt x 2) (byteAt x 1) (byteAt x 0) = x := by
  ext i hi
  simp [wordOf, byteAt]
  grind

/-- A word of W is packed from its four bytes in the algorithm's byte order (R67). -/
theorem wAt_eq_packWord (e : Engine) (i : Nat) : e.wAt i = packWord e.alg.little
    (e.bufferByte (4 * i)) (e.bufferByte (4 * i + 1)) (e.bufferByte (4 * i + 2)) (e.bufferByte (4 * i + 3)) := by
  have hbyte : ∀ k, k < 4 → e.bufferByte (4 * i + k) = byteAt (e.wAt i) (lane e.alg.little k) := by
    intro k hk
    rw [bufferByte_eq, Nat.mul_add_div (by decide), Nat.div_eq_of_lt hk, Nat.add_zero, Nat.mul_add_mod,
      Nat.mod_eq_of_lt hk]
  rw [hbyte 1 (by decide), hbyte 2 (by decide), hbyte 3 (by decide)]
  rw [← Nat.add_zero (4 * i), hbyte 0 (by decide)]
  cases hlittle : e.alg.little
  · exact (wordOf_byteAt _).symm
  · exact (wordOf_byteAt _).symm

/-- Settles O26: the word is packed from its four bytes, and those are the bytes put. -/
theorem fourBytesMakeAWordInTheAlgorithmsOrder : Obligations.FourBytesMakeAWordInTheAlgorithmsOrder := by
  intro e p b0 b1 b2 b3 hp
  have h1 : (p + 1).toNat = p.toNat + 1 := by bv_omega
  have h2 : (p + 2).toNat = p.toNat + 2 := by bv_omega
  have h3 : (p + 3).toNat = p.toNat + 3 := by bv_omega
  have hword : 4 * (p.toNat / 4) = p.toNat := by omega
  have hpacked : (((((e.putByte p b0).putByte (p + 1) b1).putByte (p + 2) b2).putByte (p + 3) b3).wAt
      (p.toNat / 4)) = packWord e.alg.little b0 b1 b2 b3 := by
    rw [wAt_eq_packWord, hword]
    simp only [bufferByte_putByte, putByte_alg, h1, h2, h3]
    simp
  rw [hpacked, packWord]
  simp only [little_iff]
  split
  · exact toNat_wordOf b3 b2 b1 b0
  · exact toNat_wordOf b0 b1 b2 b3

end Sys2Proof.Machine

/-! Proofs of 20_memory.md: byte sequences as blocks (R144, R148). -/

namespace Sys2Proof.Machine

/-- Every four bytes make one word. -/
theorem packWords_length (little : Bool) (l : List Byte) : (packWords little l).length = l.length / 4 := by
  fun_induction packWords little l with
  | case1 b0 b1 b2 b3 rest ih =>
    simp only [List.length_cons, ih]
    omega
  | case2 l hshort =>
    have hlt : l.length < 4 := by
      match l, hshort with
      | [], _ => decide
      | [_], _ => simp
      | [_, _], _ => simp
      | [_, _, _], _ => simp
      | b0 :: b1 :: b2 :: b3 :: rest, h => exact absurd rfl (h b0 b1 b2 b3 rest)
    rw [List.length_nil, Nat.div_eq_of_lt hlt]

/-- Whole words of bytes pack apart from what follows them. -/
theorem packWords_append (little : Bool) (n : Nat) (l m : List Byte) (hl : l.length = 4 * n) :
    packWords little (l ++ m) = packWords little l ++ packWords little m := by
  induction n generalizing l with
  | zero =>
    obtain rfl := List.eq_nil_of_length_eq_zero hl
    rfl
  | succ n ih =>
    match l, hl with
    | b0 :: b1 :: b2 :: b3 :: rest, hl =>
      have hrest : rest.length = 4 * n := by
        simp only [List.length_cons] at hl
        omega
      simp only [List.cons_append, packWords, ih rest hrest]
    | [], hl | [_], hl | [_, _], hl | [_, _, _], hl =>
      simp only [List.length_cons, List.length_nil] at hl
      omega

/-- The words of the block buffer are packed from its bytes. -/
theorem map_wAt_eq_packWords (e : Engine) (n : Nat) :
    (List.range n).map e.wAt = packWords e.alg.little ((List.range (4 * n)).map e.bufferByte) := by
  induction n with
  | zero => rfl
  | succ n ih =>
    have hbytes : (List.range (4 * (n + 1))).map e.bufferByte = (List.range (4 * n)).map e.bufferByte ++
        [e.bufferByte (4 * n), e.bufferByte (4 * n + 1), e.bufferByte (4 * n + 2), e.bufferByte (4 * n + 3)] := by
      simp [Nat.mul_add, List.range_succ]
    rw [hbytes, packWords_append _ n _ _ (by simp), ← ih, List.range_succ, List.map_append, List.map_singleton,
      wAt_eq_packWord]
    rfl

/-- The full blocks of a byte sequence, each as 16 words (R148). -/
def fullBlocks (a : Alg) (l : List Byte) : List (List Word) := cutBlocks (l.length / 64) (packWords a.little l)

/-- The bytes of a sequence after its full blocks. -/
def openBytes (l : List Byte) : List Byte := l.drop (64 * (l.length / 64))

section blocks

variable (a : Alg)

theorem fullBlocks_of_lt {l : List Byte} (h : l.length < 64) : fullBlocks a l = [] := by
  rw [fullBlocks, Nat.div_eq_of_lt h, cutBlocks]

theorem openBytes_of_lt {l : List Byte} (h : l.length < 64) : openBytes l = l := by
  rw [openBytes, Nat.div_eq_of_lt h, Nat.mul_zero, List.drop_zero]

/-- The number of blocks cut. -/
theorem cutBlocks_length (n : Nat) (ws : List Word) : (cutBlocks n ws).length = n := by
  induction n generalizing ws with
  | zero => rfl
  | succ n ih => rw [cutBlocks, List.length_cons, ih]

/-- Cutting one more block than the words of a first block need takes that block off. -/
theorem cutBlocks_succ_append (k : Nat) (x y : List Word) (hx : x.length = 16) :
    cutBlocks (k + 1) (x ++ y) = x :: cutBlocks k y := by
  rw [cutBlocks, List.take_left' hx, List.drop_left' hx]

theorem fullBlocks_append {l : List Byte} (m : List Byte) (hl : l.length = 64) :
    fullBlocks a (l ++ m) = packWords a.little l :: fullBlocks a m := by
  have hcount : (l ++ m).length / 64 = m.length / 64 + 1 := by
    rw [List.length_append, hl]
    omega
  rw [fullBlocks, hcount, packWords_append _ 16 _ _ hl, cutBlocks_succ_append _ _ _ (by rw [packWords_length, hl]),
    fullBlocks]

theorem openBytes_append {l : List Byte} (m : List Byte) (hl : l.length = 64) : openBytes (l ++ m) = openBytes m := by
  have hcount : 64 * ((l ++ m).length / 64) = l.length + 64 * (m.length / 64) := by
    rw [List.length_append, hl]
    omega
  rw [openBytes, hcount, List.drop_append, openBytes, List.drop_eq_nil_of_le (by omega), List.nil_append,
    Nat.add_sub_cancel_left]

theorem openBytes_length (l : List Byte) : (openBytes l).length = l.length % 64 := by
  rw [openBytes, List.length_drop]
  omega

/-- The blocks of a sequence padded to 56 modulo 64 with two length words behind it: its full blocks, and a last one of the
open bytes and those two words (R145). -/
theorem cutBlocks_padded {l : List Byte} {ls : List Word} {k : Nat} (hl : l.length = 64 * k + 56) (hls : ls.length = 2) :
    cutBlocks (k + 1) (packWords a.little l ++ ls) = fullBlocks a l ++ [packWords a.little (openBytes l) ++ ls] := by
  induction k generalizing l with
  | zero =>
    have hlt : l.length < 64 := by omega
    have hlast : (packWords a.little l ++ ls).length = 16 := by
      rw [List.length_append, packWords_length, hl, hls]
    rw [fullBlocks_of_lt a hlt, openBytes_of_lt hlt, cutBlocks, List.take_of_length_le hlast.le, cutBlocks,
      List.nil_append]
  | succ k ih =>
    have hfirst : (l.take 64).length = 64 := by
      rw [List.length_take]
      omega
    have hrest : (l.drop 64).length = 64 * k + 56 := by
      rw [List.length_drop]
      omega
    rw [← List.take_append_drop 64 l, packWords_append _ 16 _ _ hfirst, List.append_assoc,
      cutBlocks_succ_append _ _ _ (by rw [packWords_length, hfirst]), ih hrest, fullBlocks_append a _ hfirst,
      openBytes_append _ hfirst, List.cons_append]

end blocks

end Sys2Proof.Machine

/-! Proofs of 20_memory.md: Finish() pads, places the length and compresses (R68, R145, R146). -/

namespace Sys2Proof.Machine

/-- A compression keeps the words of its block (R26, R147). -/
theorem compress_wAt (e : Engine) {i : Nat} (hi : i < 16) : e.compress.wAt i = e.wAt i := by
  rw [Engine.wAt, compress_w]
  cases e.alg
  · rfl
  · rfl
  · exact sha1Schedule_block e.w i hi
  · exact sha256Schedule_other e.w i (.inl hi)

/-- The words of a block written to a block buffer. -/
theorem getAt_blockBuffer_map (f : Nat → Word) {i : Nat} (hi : i < 16) :
    getAt (blockBuffer ((List.range 16).map f)) i 0 = f i := by
  rw [blockBuffer, getAt_foldl_setAt, if_pos ⟨hi, by omega⟩]
  simp [hi]

/-- A compression sees of W the 16 words of its block (R147, R153). -/
theorem compress_h_of_block (e : Engine) :
    e.compress.h = blockFn e.alg e.h (blockBuffer ((List.range 16).map e.wAt)) := by
  rw [compress_h]
  exact blockFn_congr _ _ (fun i hi => (getAt_blockBuffer_map e.wAt hi).symm)

theorem bufferedBytes_length (e : Engine) : e.bufferedBytes.length = e.pos.toNat := by simp [Engine.bufferedBytes]

theorem getElem?_bufferedBytes {e : Engine} {q : Nat} (hq : q < e.pos.toNat) :
    e.bufferedBytes[q]? = some (e.bufferByte q) := by
  rw [Engine.bufferedBytes, List.getElem?_map, List.getElem?_range hq, Option.map_some]

/-- A byte put at POS comes behind the bytes buffered (R142). -/
theorem map_bufferByte_putByte (b : Byte) (e : Engine) :
    (List.range (e.pos.toNat + 1)).map (e.putByte e.pos b).bufferByte = e.bufferedBytes ++ [b] := by
  rw [List.range_succ, List.map_append, List.map_singleton, bufferByte_putByte, if_pos rfl, Engine.bufferedBytes]
  congr 1
  apply List.map_congr_left
  intro q hq
  rw [List.mem_range] at hq
  rw [bufferByte_putByte, if_neg (by omega)]

/-- Absorbing a byte that does not fill the block (R142). -/
theorem absorb_of_not_full (b : Byte) {e : Engine} (hpos : e.pos ≠ 63) :
    (e.absorb b).h = e.h ∧ (e.absorb b).bufferedBytes = e.bufferedBytes ++ [b] := by
  have hnext : (e.absorb b).pos.toNat = e.pos.toNat + 1 := by
    rw [absorb_pos]
    bv_omega
  rw [Engine.bufferedBytes, hnext, absorb_cases, if_neg hpos]
  exact ⟨rfl, map_bufferByte_putByte b e⟩

/-- Absorbing the byte that fills the block compresses the block and empties the buffer (R142). -/
theorem absorb_of_full (b : Byte) {e : Engine} (hpos : e.pos = 63) :
    (e.absorb b).h = blockFn e.alg e.h (blockBuffer (packWords e.alg.little (e.bufferedBytes ++ [b]))) ∧
      (e.absorb b).bufferedBytes = [] := by
  constructor
  · have hblock := map_bufferByte_putByte b e
    rw [hpos] at hblock
    rw [absorb_cases, if_pos hpos, compress_h_of_block, map_wAt_eq_packWords, hpos, ← hblock]
    rfl
  · have hnext : (e.absorb b).pos = 0 := by
      rw [absorb_pos, hpos]
      rfl
    rw [Engine.bufferedBytes, hnext]
    rfl

/-- Absorb of each byte in order (R142). -/
def Engine.absorbBytes (bs : List Byte) (e : Engine) : Engine := bs.foldl (fun e b => e.absorb b) e

/-- The packer as a function on byte sequences: the full blocks of the bytes buffered and absorbed are compressed into H, the
bytes left over are buffered (R142, R148). -/
theorem absorbBytes_blocks (bs : List Byte) (e : Engine) :
    (e.absorbBytes bs).h = foldBlocks e.alg e.h (fullBlocks e.alg (e.bufferedBytes ++ bs)) ∧
      (e.absorbBytes bs).bufferedBytes = openBytes (e.bufferedBytes ++ bs) := by
  induction bs generalizing e with
  | nil =>
    have hlt : (e.bufferedBytes ++ []).length < 64 := by
      rw [List.append_nil, bufferedBytes_length]
      exact e.pos.isLt
    rw [fullBlocks_of_lt _ hlt, openBytes_of_lt hlt, List.append_nil]
    exact ⟨rfl, rfl⟩
  | cons b bs ih =>
    have hstep : e.absorbBytes (b :: bs) = (e.absorb b).absorbBytes bs := rfl
    have hsplit : e.bufferedBytes ++ b :: bs = (e.bufferedBytes ++ [b]) ++ bs := by simp
    obtain ⟨hh, hbytes⟩ := ih (e.absorb b)
    rw [hstep, hsplit, hh, hbytes, absorb_alg]
    by_cases hpos : e.pos = 63
    · obtain ⟨hh, hbytes⟩ := absorb_of_full b hpos
      have hfull : (e.bufferedBytes ++ [b]).length = 64 := by
        rw [List.length_append, bufferedBytes_length, hpos]
        rfl
      rw [hh, hbytes, fullBlocks_append _ _ hfull, openBytes_append _ hfull]
      exact ⟨rfl, rfl⟩
    · obtain ⟨hh, hbytes⟩ := absorb_of_not_full b hpos
      rw [hh, hbytes]
      exact ⟨rfl, rfl⟩

/-- The padding of R144: the 80 byte and the zeros up to 56 modulo 64. -/
def Engine.padding (e : Engine) : List Byte := 0x80 :: List.replicate (padCount e.pos.toNat) 0

/-- The bytes of the hash's last blocks before the length: those buffered, then the padding (R144). -/
def Engine.paddedBytes (e : Engine) : List Byte := e.bufferedBytes ++ e.padding

/-- The engine of Finish() before it places the length (R146). -/
def Engine.padded (e : Engine) : Engine := Engine.padZeros 63 (e.absorb 0x80)

/-- The two length words behind the padding (R145). -/
def Engine.lengthList (e : Engine) : List Word :=
  [(lengthWords e.alg.little e.mlen).1, (lengthWords e.alg.little e.mlen).2]

section finish

variable (e : Engine)

theorem finish_eq : e.finish = e.padded.placeLength.compress := rfl

theorem tailWords_eq : e.tailWords = packWords e.alg.little e.paddedBytes ++ e.lengthList := by
  rw [Engine.tailWords, Engine.paddedBytes, Engine.padding, List.append_assoc]
  rfl

theorem lengthList_length : e.lengthList.length = 2 := rfl

/-- Finish() pads by absorbing the bytes of the padding (R146). -/
theorem padded_eq_absorbBytes : e.padded = e.absorbBytes e.padding := by
  have hcount : (56 - (e.absorb 0x80).pos).toNat = padCount e.pos.toNat := by
    rw [absorb_pos, padCount]
    bv_omega
  rw [Engine.padded, padZeros_eq _ _ (by bv_omega), hcount]
  rfl

theorem padded_alg : e.padded.alg = e.alg := by simp [Engine.padded]

theorem padded_mlen : e.padded.mlen = e.mlen := by simp [Engine.padded]

/-- The padding compresses the full blocks of the padded bytes (R146). -/
theorem padded_h : e.padded.h = foldBlocks e.alg e.h (fullBlocks e.alg e.paddedBytes) := by
  rw [padded_eq_absorbBytes]
  exact (absorbBytes_blocks e.padding e).1

/-- The padding leaves the other bytes in the buffer (R146). -/
theorem padded_bufferedBytes : e.padded.bufferedBytes = openBytes e.paddedBytes := by
  rw [padded_eq_absorbBytes]
  exact (absorbBytes_blocks e.padding e).2

theorem padded_pos : e.padded.pos = 56 := padZeros_pos _

/-- The padded bytes come to 56 modulo 64, in one block exactly when POS is at most 55 (R144, R146). -/
theorem paddedBytes_length : e.paddedBytes.length = 64 * (if e.pos.toNat ≤ 55 then 0 else 1) + 56 := by
  have hlt : e.pos.toNat < 64 := e.pos.isLt
  rw [Engine.paddedBytes, List.length_append, bufferedBytes_length, Engine.padding, List.length_cons,
    List.length_replicate, padCount]
  split <;> omega

/-- The blocks of Finish(): the full ones among the padded bytes, and the last one with the length (R145, R146). -/
theorem tailBlocks_eq : e.tailBlocks =
    fullBlocks e.alg e.paddedBytes ++ [packWords e.alg.little (openBytes e.paddedBytes) ++ e.lengthList] := by
  have hcount : e.tailWords.length / 16 = (if e.pos.toNat ≤ 55 then 0 else 1) + 1 := by
    rw [tailWords_eq, List.length_append, packWords_length, paddedBytes_length, lengthList_length]
    split <;> rfl
  rw [Engine.tailBlocks, hcount, tailWords_eq, cutBlocks_padded _ (paddedBytes_length e) rfl]

theorem tailBlocks_length : e.tailBlocks.length = if e.pos.toNat ≤ 55 then 1 else 2 := by
  rw [tailBlocks_eq, List.length_append, fullBlocks, cutBlocks_length, paddedBytes_length]
  split <;> rfl

theorem placeLength_wAt (i : Nat) : e.placeLength.wAt i =
    if i = 15 then (lengthWords e.alg.little e.mlen).2
    else if i = 14 then (lengthWords e.alg.little e.mlen).1 else e.wAt i := by
  rw [Engine.wAt, placeLength_w, getAt_setAt, getAt_setAt]
  simp [Engine.wAt]

/-- The block Finish() compresses last: the open bytes of the padded ones, and the length (R145, R146). -/
theorem finish_lastBlock : (List.range 16).map e.padded.placeLength.wAt =
    packWords e.alg.little (openBytes e.paddedBytes) ++ e.lengthList := by
  have hwords : (List.range 14).map e.padded.placeLength.wAt = (List.range 14).map e.padded.wAt := by
    apply List.map_congr_left
    intro i hi
    rw [List.mem_range] at hi
    rw [placeLength_wAt, if_neg (by omega), if_neg (by omega)]
  have hlength : [e.padded.placeLength.wAt 14, e.padded.placeLength.wAt 15] = e.lengthList := by
    simp [placeLength_wAt, padded_alg, padded_mlen, Engine.lengthList]
  have hrange : List.range 16 = List.range 14 ++ [14, 15] := rfl
  rw [hrange, List.map_append, hwords, map_wAt_eq_packWords, padded_alg, ← padded_bufferedBytes,
    Engine.bufferedBytes, padded_pos, ← hlength]
  rfl

/-- The registers after Finish() (R146). -/
theorem finish_h : e.finish.h = foldBlocks e.alg e.h e.tailBlocks := by
  rw [finish_eq, compress_h_of_block, finish_lastBlock, placeLength_alg, placeLength_h, padded_alg, padded_h,
    tailBlocks_eq,
    foldBlocks, foldBlocks, List.foldl_append, List.foldl_cons, List.foldl_nil]

/-- The block words after Finish(): those of the padded buffer, and the length (R145). -/
theorem finish_wAt {i : Nat} (hi : i < 16) : e.finish.wAt i =
    if i = 15 then (lengthWords e.alg.little e.mlen).2
    else if i = 14 then (lengthWords e.alg.little e.mlen).1 else e.padded.wAt i := by
  rw [finish_eq, compress_wAt _ hi, placeLength_wAt, padded_alg, padded_mlen]

/-- The bytes before the length in the last block are the open ones among the padded bytes (R146). -/
theorem finish_bufferByte {q : Nat} (hq : q < 56) : (openBytes e.paddedBytes)[q]? = some (e.finish.bufferByte q) := by
  have hlast : e.finish.bufferByte q = e.padded.bufferByte q := by
    rw [bufferByte_eq, bufferByte_eq, finish_wAt e (by omega), if_neg (by omega), if_neg (by omega), finish_alg,
      padded_alg]
  have hopen : q < e.padded.pos.toNat := by
    rw [padded_pos]
    exact hq
  rw [← padded_bufferedBytes, hlast, getElem?_bufferedBytes hopen]

/-- The padded bytes one by one (R144). -/
theorem getElem?_paddedBytes {i : Nat} (hi : i < e.paddedBytes.length) : e.paddedBytes[i]? =
    some (if i < e.pos.toNat then e.bufferByte i else if i = e.pos.toNat then 0x80 else 0x00) := by
  rw [Engine.paddedBytes, List.length_append, Engine.padding, List.length_cons, List.length_replicate,
    bufferedBytes_length] at hi
  rw [Engine.paddedBytes]
  split
  next hlt =>
    rw [List.getElem?_append_left (by rwa [bufferedBytes_length]), getElem?_bufferedBytes hlt]
  next hge =>
    rw [List.getElem?_append_right (by rw [bufferedBytes_length]; omega), bufferedBytes_length, Engine.padding]
    split
    next heq => rw [heq, Nat.sub_self, List.getElem?_cons_zero]
    next hne =>
      obtain ⟨n, hn⟩ : ∃ n, i - e.pos.toNat = n + 1 := ⟨i - e.pos.toNat - 1, by omega⟩
      rw [hn, List.getElem?_cons_succ, List.getElem?_replicate_of_lt (by omega)]

/-- The last block's bytes before the length: the buffered ones, 80 and zeros where all fit, zeros only where the 80 went
into the block before (R146). -/
theorem finish_bufferByte_eq {q : Nat} (hq : q < 56) : e.finish.bufferByte q =
    if e.pos.toNat ≤ 55 ∧ q < e.pos.toNat then e.bufferByte q
    else if e.pos.toNat ≤ 55 ∧ q = e.pos.toNat then 0x80 else 0x00 := by
  have hlength := paddedBytes_length e
  have hpos : e.pos.toNat < 64 := e.pos.isLt
  have hbyte := finish_bufferByte e hq
  rw [openBytes, List.getElem?_drop, getElem?_paddedBytes e (by omega), Option.some.injEq] at hbyte
  rw [← hbyte, hlength]
  by_cases h : e.pos.toNat ≤ 55
  · simp [h]
  · have h1 : ¬ 64 + q < e.pos.toNat := by omega
    have h2 : 64 + q ≠ e.pos.toNat := by omega
    simp [h, h1, h2]

end finish

/-- Settles O27: the padded bytes are one or two blocks with the length; the last one stays in the buffer. -/
theorem finishPadsAndPlacesTheLength : Obligations.FinishPadsAndPlacesTheLength := by
  intro e
  refine ⟨finish_h e, tailBlocks_length e, finish_pos e, finish_mlen e, ?lengthFirst, ?lengthSecond,
    fun q hq => finish_bufferByte_eq e hq⟩
  case lengthFirst =>
    rw [finish_wAt e (by decide), if_neg (by decide), if_pos rfl, lengthWords]
    simp only [little_iff]
    split <;> rfl
  case lengthSecond =>
    rw [finish_wAt e (by decide), if_pos rfl, lengthWords]
    simp only [little_iff]
    split <;> rfl

end Sys2Proof.Machine

/-! Proofs of 30_encoding.md: the decoder and the encoder of command words (R81 to R91). -/

namespace Sys2Proof.Machine

/-- A format N command is decoded when ARG is 0 (R81). -/
theorem formatN_eq_instr {w : Word} {i j : Instr} (h : formatN w i = .instr j) : argOf w = 0 ∧ i = j := by
  unfold formatN at h
  split at h
  next harg => exact ⟨harg, by cases h; rfl⟩
  next => cases h

/-- A word that decodes to a command has that command's fields (R82, R84). -/
theorem fields_of_decode {w : Word} {i : Instr} (h : decode w = .instr i) :
    opcOf w = i.opcode ∧ argOf w = i.argument ∧ rsvOf w = 0 := by
  revert h
  fun_cases decode w with
  | case1 | case10 =>
    rintro ⟨⟩
  | case2 hrsv hopc | case6 hrsv _ _ _ _ hopc | case8 hrsv _ _ _ _ _ _ hopc | case9 hrsv _ _ _ _ _ _ _ hopc =>
    intro h
    obtain ⟨harg, rfl⟩ := formatN_eq_instr h
    exact ⟨hopc, harg, not_not.mp hrsv⟩
  | case3 hrsv _ hopc | case4 hrsv _ _ hopc | case5 hrsv _ _ _ hopc | case7 hrsv _ _ _ _ _ hopc =>
    rintro ⟨⟩
    exact ⟨hopc, rfl, not_not.mp hrsv⟩

/-- A word is its three fields side by side (R81, R82). -/
theorem append_fields (w : Word) : rsvOf w ++ argOf w ++ opcOf w = w := by
  ext k hk
  simp [rsvOf, argOf, opcOf]
  grind

/-- The three fields determine the word (R82). -/
theorem word_ext {v w : Word} (hopc : opcOf v = opcOf w) (harg : argOf v = argOf w) (hrsv : rsvOf v = rsvOf w) :
    v = w := by
  rw [← append_fields v, ← append_fields w, hopc, harg, hrsv]

/-- The fields of a word as numbers (R82). -/
theorem opcOf_toNat (w : Word) : (opcOf w).toNat = w.toNat % 256 := by
  rw [opcOf, BitVec.extractLsb'_toNat, Nat.shiftRight_zero]

theorem argOf_toNat (w : Word) : (argOf w).toNat = w.toNat / 256 % 256 := by
  rw [argOf, BitVec.extractLsb'_toNat, Nat.shiftRight_eq_div_pow]

theorem rsvOf_toNat (w : Word) : (rsvOf w).toNat = w.toNat / 65536 := by
  rw [rsvOf, BitVec.extractLsb'_toNat, Nat.shiftRight_eq_div_pow]
  exact Nat.mod_eq_of_lt (by omega)

/-- The fields of an encoded command (R81). -/
theorem fields_encode (i : Instr) : opcOf (encode i) = i.opcode ∧ argOf (encode i) = i.argument ∧ rsvOf (encode i) = 0 :=
  Laws.EncodedFields.commandWord_fields i.opcode i.argument

/-- A word with a command's fields is that command's word (R81, R84). -/
theorem eq_encode_of_fields {w : Word} {i : Instr} (h : opcOf w = i.opcode ∧ argOf w = i.argument ∧ rsvOf w = 0) :
    w = encode i := by
  obtain ⟨hopc, harg, hrsv⟩ := h
  obtain ⟨hopc', harg', hrsv'⟩ := fields_encode i
  exact word_ext (hopc.trans hopc'.symm) (harg.trans harg'.symm) (hrsv.trans hrsv'.symm)

/-- Encoding the command a word decodes to gives the word back (R91). -/
theorem encode_of_decode {w : Word} {i : Instr} (h : decode w = .instr i) : encode i = w :=
  (eq_encode_of_fields (fields_of_decode h)).symm

/-- A word decodes to a command exactly when it is that command's word (R91). -/
theorem decode_eq_instr_iff (w : Word) (i : Instr) : decode w = .instr i ↔ w = encode i := by
  constructor
  · exact fun h => (encode_of_decode h).symm
  · rintro rfl
    exact decode_encode i

/-- The word of a command as a number: the operand above the opcode (R81). -/
theorem encode_toNat (i : Instr) : (encode i).toNat = 256 * i.argument.toNat + i.opcode.toNat := by
  obtain ⟨hopc, harg, hrsv⟩ := fields_encode i
  rw [← hopc, ← harg, opcOf_toNat, argOf_toNat]
  have hzero : (encode i).toNat / 65536 = 0 := by rw [← rsvOf_toNat, hrsv]; rfl
  omega

/-- Settles O1: decoding is the inverse of encoding, and the number of a command's word is its operand above its opcode. -/
theorem decodeAndEncodeAgree : Obligations.DecodeAndEncodeAgree := by
  refine ⟨decode_encode, fun _ _ => encode_of_decode, fun w i => ?_⟩
  rw [decode_eq_instr_iff, ← BitVec.toNat_inj, encode_toNat]
  cases i <;> exact Iff.rfl

/-- A word with a command's fields decodes to it (R84, R91). -/
theorem decode_of_fields {w : Word} {i : Instr} (hopc : opcOf w = i.opcode) (harg : argOf w = i.argument)
    (hrsv : rsvOf w = 0) : decode w = .instr i :=
  (decode_eq_instr_iff w i).mpr (eq_encode_of_fields ⟨hopc, harg, hrsv⟩)

/-- The negation of R86's three conditions, on the number of a word: RSV is 0, the opcode is below 8, and ARG is 0 where the
opcode is of format N. -/
def wellFormedNumber (n : Nat) : Prop :=
  n / 65536 = 0 ∧ n % 256 < 8 ∧ (n % 256 ∈ [0x00, 0x04, 0x06, 0x07] → n / 256 % 256 = 0)

/-- The number of a command's word meets none of R86's conditions. -/
theorem wellFormedNumber_encode (i : Instr) : wellFormedNumber (encode i).toNat := by
  obtain ⟨hopc, harg, hrsv⟩ := fields_encode i
  rw [wellFormedNumber, ← opcOf_toNat, ← argOf_toNat, ← rsvOf_toNat, hopc, harg, hrsv]
  cases i <;> simp [Instr.opcode, Instr.argument]

/-- A word none of R86's conditions makes illegal is a command: each of the eight opcodes has one (R84). -/
theorem exists_decode_of_wellFormedNumber {w : Word} (h : wellFormedNumber w.toNat) : ∃ i, decode w = .instr i := by
  obtain ⟨hrsv, hopc, harg⟩ := h
  rw [← rsvOf_toNat] at hrsv
  rw [← opcOf_toNat] at hopc harg
  rw [← argOf_toNat] at harg
  have hrsv : rsvOf w = 0 := BitVec.eq_of_toNat_eq hrsv
  have hcode : opcOf w = BitVec.ofNat 8 (opcOf w).toNat := by simp
  have hzero : (opcOf w).toNat ∈ [0x00, 0x04, 0x06, 0x07] → argOf w = 0 := fun hn => BitVec.eq_of_toNat_eq (harg hn)
  generalize (opcOf w).toNat = n at hopc hcode hzero
  interval_cases n
  · exact ⟨.nop, decode_of_fields hcode (hzero (by decide)) hrsv⟩
  · exact ⟨.init (argOf w), decode_of_fields hcode rfl hrsv⟩
  · exact ⟨.kinit (argOf w), decode_of_fields hcode rfl hrsv⟩
  · exact ⟨.kbyte (argOf w), decode_of_fields hcode rfl hrsv⟩
  · exact ⟨.kdone, decode_of_fields hcode (hzero (by decide)) hrsv⟩
  · exact ⟨.mbyte (argOf w), decode_of_fields hcode rfl hrsv⟩
  · exact ⟨.final, decode_of_fields hcode (hzero (by decide)) hrsv⟩
  · exact ⟨.clear, decode_of_fields hcode (hzero (by decide)) hrsv⟩

/-- R86: a word is a command exactly when none of the three conditions makes it illegal. -/
theorem exists_decode_iff (w : Word) : (∃ i, decode w = .instr i) ↔ wellFormedNumber w.toNat := by
  refine ⟨?_, exists_decode_of_wellFormedNumber⟩
  rintro ⟨i, hi⟩
  rw [← encode_of_decode hi]
  exact wellFormedNumber_encode i

/-- An illegal word raises ERR_CMD, and is ignored in ERROR (R86, R265). -/
theorem command_of_illegal {w : Word} (hw : ∀ i, decode w ≠ .instr i) (s : State) :
    command w s = if s.eng.state = .error then .next s else .next (s.inError .cmd) := by
  obtain ⟨i, hi, -⟩ | ⟨-, herr, hx⟩ | ⟨-, hrun, hx⟩ := command_cases w s
  · exact absurd hi (hw i)
  · rw [hx, if_pos herr]
  · rw [hx, if_neg hrun, raise_eq, State.inError]

/-- Settles O2: the words that decode are those of `wellFormedNumber`, and the others are taken as illegal. -/
theorem illegalWordsRaiseErrCmd : Obligations.IllegalWordsRaiseErrCmd :=
  fun w => ⟨exists_decode_iff w, fun s hw => command_of_illegal hw s⟩

/-- The three checks of a word are the negation of R86's three conditions. -/
theorem wordWellFormed_iff (w : Word) : wordWellFormed w = true ↔ wellFormedNumber w.toNat := by
  simp only [wordWellFormed, reservedIsZero, opcodeIsKnown, argumentIsAllowed, wellFormedNumber, Bool.and_eq_true,
    Bool.or_eq_true, Bool.not_eq_true', decide_eq_true_eq, ← Bool.not_eq_true, List.contains_iff_mem, and_assoc,
    imp_iff_not_or]

/-- The pairs of ARG and OPC of the well-formed words, for `n` values of ARG: ARG 0 with each opcode of format N, and every
ARG with each of the others (R88). -/
def wellFormedFields (n : Nat) : Finset (Nat × Nat) := {0} ×ˢ {0, 4, 6, 7} ∪ Finset.range n ×ˢ {1, 2, 3, 5}

/-- R88's sum: four words of format N, and one for each ARG for each of the four opcodes of formats A and B. -/
theorem wellFormedFields_card (n : Nat) : (wellFormedFields n).card = 4 + n * 4 := by
  have hdisjoint : Disjoint (({0} : Finset Nat) ×ˢ ({0, 4, 6, 7} : Finset Nat)) (Finset.range n ×ˢ {1, 2, 3, 5}) :=
    Finset.disjoint_product.mpr (.inr (by decide))
  rw [wellFormedFields, Finset.card_union_of_disjoint hdisjoint, Finset.card_product, Finset.card_product,
    Finset.card_range]
  rfl

theorem mem_wellFormedFields {n : Nat} (hn : 0 < n) (p : Nat × Nat) : p ∈ wellFormedFields n ↔
    p.1 < n ∧ p.2 < 8 ∧ (p.2 ∈ [0x00, 0x04, 0x06, 0x07] → p.1 = 0) := by
  simp only [wellFormedFields, Finset.mem_union, Finset.mem_product, Finset.mem_singleton, Finset.mem_insert,
    Finset.mem_range, List.mem_cons, List.not_mem_nil, or_false]
  omega

/-- Different pairs of fields make different numbers: OPC is below 256. -/
theorem number_injOn_wellFormedFields {n : Nat} (hn : 0 < n) :
    Set.InjOn (fun p : Nat × Nat => 256 * p.1 + p.2) (wellFormedFields n) := by
  rintro ⟨a, o⟩ hp ⟨a', o'⟩ hp' heq
  rw [Finset.mem_coe, mem_wellFormedFields hn] at hp hp'
  dsimp only at *
  rw [Prod.mk.injEq]
  omega

/-- The well-formed numbers are those put together from a pair of fields (R81). -/
theorem filter_wellFormed_eq_image :
    (Finset.range (2 ^ 32)).filter (fun n => wordWellFormed (BitVec.ofNat 32 n) = true) =
      (wellFormedFields 256).image (fun p => 256 * p.1 + p.2) := by
  ext n
  simp only [Finset.mem_filter, Finset.mem_range, wordWellFormed_iff, Finset.mem_image,
    mem_wellFormedFields (show 0 < 256 by decide), wellFormedNumber, BitVec.toNat_ofNat]
  constructor
  · rintro ⟨hn, hw⟩
    rw [Nat.mod_eq_of_lt hn] at hw
    obtain ⟨hrsv, hopc, harg⟩ := hw
    rw [Nat.mod_eq_of_lt (show n / 256 < 256 by omega)] at harg
    exact ⟨(n / 256, n % 256), ⟨by omega, hopc, harg⟩, Nat.div_add_mod n 256⟩
  · rintro ⟨⟨a, o⟩, ⟨ha, ho, harg⟩, rfl⟩
    dsimp only at *
    have hn : 256 * a + o < 2 ^ 32 := by omega
    have hopc : (256 * a + o) % 256 = o := by omega
    have hquot : (256 * a + o) / 256 % 256 = a := by omega
    rw [Nat.mod_eq_of_lt hn, hopc, hquot]
    exact ⟨hn, by omega, ho, harg⟩

/-- Settles O3: the checks on a word are R86's, and the words that pass are counted through their fields. -/
theorem wellFormedWordsNumber1028 : Obligations.WellFormedWordsNumber1028 := by
  refine ⟨fun w => (wordWellFormed_iff w).trans (exists_decode_iff w).symm, ?_⟩
  rw [filter_wellFormed_eq_image, Finset.card_image_of_injOn (number_injOn_wellFormedFields (by decide)),
    wellFormedFields_card]

/-- Settles O4: the words of the table are the encodings of their commands. -/
theorem tableWordsDecode : Obligations.TableWordsDecode :=
  ⟨decode_encode .nop, decode_encode (.init 3), decode_encode (.init 255), decode_encode (.kinit 1),
    decode_encode (.kbyte 0xab), decode_encode .kdone, decode_encode (.mbyte 0x61), decode_encode .final,
    decode_encode .clear⟩

end Sys2Proof.Machine

/-! Proofs of 30_encoding.md: absorbing a message and finishing hashes it (R120, R148, R149), which the pseudo-instructions
rest on. -/

namespace Sys2Proof.Machine

section blocks

variable (a : Alg)

/-- The blocks of a sequence continued: those it has, then those of its open bytes continued. -/
theorem blocks_append_openBytes (l m : List Byte) :
    fullBlocks a (l ++ m) = fullBlocks a l ++ fullBlocks a (openBytes l ++ m) ∧
      openBytes (l ++ m) = openBytes (openBytes l ++ m) := by
  induction hn : l.length / 64 generalizing l with
  | zero =>
    have hlt : l.length < 64 := by omega
    rw [fullBlocks_of_lt a hlt, openBytes_of_lt hlt]
    exact ⟨rfl, rfl⟩
  | succ n ih =>
    have hfirst : (l.take 64).length = 64 := by
      rw [List.length_take]
      omega
    obtain ⟨hblocks, hopen⟩ := ih (l.drop 64) (by rw [List.length_drop]; omega)
    rw [← List.take_append_drop 64 l, List.append_assoc, fullBlocks_append a _ hfirst, fullBlocks_append a _ hfirst,
      openBytes_append _ hfirst, openBytes_append _ hfirst, hblocks, hopen]
    exact ⟨rfl, rfl⟩

/-- A padded message comes to 56 modulo 64 (R144). -/
theorem padMessage_length (m : List Byte) : (padMessage m).length = 64 * ((m.length + 8) / 64) + 56 := by
  rw [padMessage, List.length_append, List.length_append, List.length_replicate, padCount]
  simp only [List.length_cons, List.length_nil]
  omega

/-- The packed message: the full blocks of the padded one, and a last block of its open bytes and the length (R148). -/
theorem packMessage_eq (m : List Byte) : packMessage a m = fullBlocks a (padMessage m) ++
    [packWords a.little (openBytes (padMessage m)) ++
      [(lengthWords a.little (messageBits m)).1, (lengthWords a.little (messageBits m)).2]] := by
  have hcount : (messageWords a m).length / 16 = (m.length + 8) / 64 + 1 := by
    rw [messageWords, List.length_append, packWords_length, padMessage_length]
    simp only [List.length_cons, List.length_nil]
    omega
  rw [packMessage, hcount, messageWords, cutBlocks_padded a (padMessage_length m) rfl]

end blocks

/-- What of an engine the packer hashes with: the algorithm, the registers, the bytes buffered and the length counted. -/
def Engine.hashPart (e : Engine) : Alg × Vector Word 8 × List Byte × BitVec 64 := (e.alg, e.h, e.bufferedBytes, e.mlen)

theorem hashPart_eq_iff {e f : Engine} :
    e.hashPart = f.hashPart ↔ e.alg = f.alg ∧ e.h = f.h ∧ e.bufferedBytes = f.bufferedBytes ∧ e.mlen = f.mlen := by
  simp only [Engine.hashPart, Prod.mk.injEq]

/-- POS counts the bytes buffered (R27). -/
theorem pos_eq_of_bufferedBytes {e f : Engine} (h : e.bufferedBytes = f.bufferedBytes) : e.pos = f.pos := by
  rw [← BitVec.toNat_inj, ← bufferedBytes_length, h, bufferedBytes_length]

/-- One message byte in the packer: the bytes buffered and it are compressed where they fill a block, else buffered
(R142). -/
theorem absorbMsg_blocks (b : Byte) (e : Engine) :
    (e.absorbMsg b).h = foldBlocks e.alg e.h (fullBlocks e.alg (e.bufferedBytes ++ [b])) ∧
      (e.absorbMsg b).bufferedBytes = openBytes (e.bufferedBytes ++ [b]) := absorbBytes_blocks [b] e

/-- Absorbing a byte works on the hashing part alone (R142, R143). -/
theorem absorbMsg_hashPart_congr (b : Byte) {e f : Engine} (h : e.hashPart = f.hashPart) :
    (e.absorbMsg b).hashPart = (f.absorbMsg b).hashPart := by
  obtain ⟨halg, hh, hbytes, hmlen⟩ := hashPart_eq_iff.mp h
  simp only [Engine.hashPart, absorbMsg_blocks, absorbMsg_alg, absorbMsg_mlen, halg, hh, hbytes, hmlen]

/-- Absorbing bytes works on the hashing part alone. -/
theorem absorbAll_hashPart_congr (bs : List Byte) {e f : Engine} (h : e.hashPart = f.hashPart) :
    (e.absorbAll bs).hashPart = (f.absorbAll bs).hashPart := by
  induction bs generalizing e f with
  | nil => exact h
  | cons b bs ih => exact ih (absorbMsg_hashPart_congr b h)

/-- The digest Finish() leaves comes from the hashing part alone (R146). -/
theorem finish_digestBytes_congr {e f : Engine} (h : e.hashPart = f.hashPart) :
    e.finish.digestBytes = f.finish.digestBytes := by
  obtain ⟨halg, hh, hbytes, hmlen⟩ := hashPart_eq_iff.mp h
  have htail : e.tailWords = f.tailWords := by
    simp only [tailWords_eq, Engine.paddedBytes, Engine.padding, Engine.lengthList, pos_eq_of_bufferedBytes hbytes, halg,
      hbytes, hmlen]
  rw [Engine.digestBytes, Engine.digestBytes, finish_h, finish_h, Engine.tailBlocks, Engine.tailBlocks, htail, finish_alg,
    finish_alg, halg, hh]

theorem foldBlocks_append (a : Alg) (h : Vector Word 8) (xs ys : List (List Word)) :
    foldBlocks a h (xs ++ ys) = foldBlocks a (foldBlocks a h xs) ys := List.foldl_append

/-- The bytes of a message absorbed: its full blocks are compressed, the bytes left over are buffered (R142, R148). -/
theorem absorbAll_blocks (bs : List Byte) (e : Engine) :
    (e.absorbAll bs).h = foldBlocks e.alg e.h (fullBlocks e.alg (e.bufferedBytes ++ bs)) ∧
      (e.absorbAll bs).bufferedBytes = openBytes (e.bufferedBytes ++ bs) := by
  induction bs generalizing e with
  | nil =>
    have hlt : (e.bufferedBytes ++ []).length < 64 := by
      rw [List.append_nil, bufferedBytes_length]
      exact e.pos.isLt
    rw [fullBlocks_of_lt _ hlt, openBytes_of_lt hlt, List.append_nil]
    exact ⟨rfl, rfl⟩
  | cons b bs ih =>
    have hsplit : e.bufferedBytes ++ b :: bs = (e.bufferedBytes ++ [b]) ++ bs := by simp
    obtain ⟨hblocks, hopen⟩ := blocks_append_openBytes e.alg (e.bufferedBytes ++ [b]) bs
    obtain ⟨hh, hbytes⟩ := absorbMsg_blocks b e
    obtain ⟨ihh, ihbytes⟩ := ih (e.absorbMsg b)
    rw [hsplit, hblocks, hopen, foldBlocks_append, ← hh, ← hbytes, absorbAll_cons]
    rw [absorbMsg_alg] at ihh
    exact ⟨ihh, ihbytes⟩

/-- From an empty buffer, absorbing a message and finishing folds the block function over the packed message (R149). -/
theorem finish_absorbAll_h (e : Engine) (m : List Byte) (hpos : e.pos = 0) (hmlen : e.mlen = 0) :
    (e.absorbAll m).finish.h = foldBlocks e.alg e.h (packMessage e.alg m) := by
  have hempty : e.bufferedBytes = [] := List.eq_nil_of_length_eq_zero (by rw [bufferedBytes_length, hpos]; rfl)
  obtain ⟨hh, hbytes⟩ := absorbAll_blocks m e
  rw [hempty, List.nil_append] at hh hbytes
  have hpadding : (e.absorbAll m).padding = [0x80] ++ List.replicate (padCount m.length) 0 := by
    have hcount : padCount (e.absorbAll m).pos.toNat = padCount m.length := by
      rw [← bufferedBytes_length, hbytes, openBytes_length, padCount, padCount, Nat.mod_mod]
    rw [Engine.padding, hcount]
    rfl
  have hpadded : (e.absorbAll m).paddedBytes = openBytes m ++ ([0x80] ++ List.replicate (padCount m.length) 0) := by
    rw [Engine.paddedBytes, hbytes, hpadding]
  have hbits : (e.absorbAll m).mlen = messageBits m := by
    rw [absorbAll_mlen, hmlen, zero_add, messageBits]
  obtain ⟨hblocks, hopen⟩ := blocks_append_openBytes e.alg m ([0x80] ++ List.replicate (padCount m.length) 0)
  rw [finish_h, tailBlocks_eq, Engine.lengthList, absorbAll_alg, hpadded, hbits, hh, packMessage_eq, padMessage,
    List.append_assoc, hblocks, hopen, List.append_assoc, foldBlocks_append _ _ (fullBlocks _ m)]

/-- Absorbing a message into a hash at its start and finishing leaves the digest of the message (R120). -/
theorem finish_absorbAll_digestBytes {e : Engine} (m : List Byte) (hpos : e.pos = 0) (hmlen : e.mlen = 0)
    (hiv : e.h = hashState e.alg.iv) : (e.absorbAll m).finish.digestBytes = digest e.alg m := by
  rw [Engine.digestBytes, finish_absorbAll_h e m hpos hmlen, finish_alg, absorbAll_alg, hiv, digest]

/-- The digest of a message hashed inside a call (R243, R244). -/
theorem finish_absorbAll_restartHash (e : Engine) (m : List Byte) :
    (e.restartHash.absorbAll m).finish.digestBytes = digest e.alg m := by
  have hiv : e.restartHash.h = hashState e.restartHash.alg.iv := by rw [restartHash_h, restartHash_alg]
  rw [finish_absorbAll_digestBytes m (restartHash_pos e) (restartHash_mlen e) hiv, restartHash_alg]

end Sys2Proof.Machine

/-! Proofs of 30_encoding.md: the HMAC controller computes the HMAC (R242 to R246), which the pseudo-instruction HMAC rests
on. -/

namespace Sys2Proof.Machine

/-- ExecKBYTE of each byte of a key in order (R242). -/
def Engine.takeKey (ks : List Byte) (e : Engine) : Engine := ks.foldl (fun e b => e.takeKeyByte b) e

@[simp] theorem takeKey_nil (e : Engine) : e.takeKey [] = e := rfl

@[simp] theorem takeKey_cons (b : Byte) (ks : List Byte) (e : Engine) :
    e.takeKey (b :: ks) = (e.takeKeyByte b).takeKey ks := rfl

/-- What a property every KBYTE keeps says of a key. -/
theorem takeKey_keeps (P : Engine → Prop) (h : ∀ b e, P e → P (e.takeKeyByte b)) (ks : List Byte) (e : Engine) (he : P e) :
    P (e.takeKey ks) := by
  induction ks generalizing e with
  | nil => exact he
  | cons b ks ih => exact ih _ (h b e he)

@[simp] theorem takeKey_state (ks : List Byte) (e : Engine) : (e.takeKey ks).state = e.state :=
  takeKey_keeps (fun f => f.state = e.state) (by simp_all) ks e rfl

@[simp] theorem takeKey_hmac (ks : List Byte) (e : Engine) : (e.takeKey ks).hmac = e.hmac :=
  takeKey_keeps (fun f => f.hmac = e.hmac) (by simp_all) ks e rfl

@[simp] theorem takeKey_alg (ks : List Byte) (e : Engine) : (e.takeKey ks).alg = e.alg :=
  takeKey_keeps (fun f => f.alg = e.alg) (by simp_all) ks e rfl

/-- KCNT after a key: the number of its bytes, saturating at 65 (R37, R242). -/
theorem takeKey_kcnt (ks : List Byte) (e : Engine) (h : e.kcnt.toNat ≤ 65) :
    (e.takeKey ks).kcnt.toNat = min 65 (e.kcnt.toNat + ks.length) := by
  induction ks generalizing e with
  | nil =>
    rw [takeKey_nil, List.length_nil]
    omega
  | cons b ks ih =>
    have hstep := takeKeyByte_kcnt_toNat b e
    rw [takeKey_cons, ih _ (by split at hstep <;> omega), hstep, List.length_cons]
    split <;> omega

/-- KCNT is not 0 after a key of at least one byte (R37). -/
theorem takeKey_kcnt_ne_zero {k : List Byte} (hk : k ≠ []) (e : Engine) (hle : e.kcnt.toNat ≤ 65) :
    (e.takeKey k).kcnt ≠ 0 := by
  intro hzero
  have hkcnt := takeKey_kcnt k e hle
  rw [hzero] at hkcnt
  have hpos := List.length_pos_of_ne_nil hk
  have hmin : min 65 (e.kcnt.toNat + k.length) = 0 := hkcnt.symm
  omega

/-- A key of at most a block is stored byte by byte (R242). -/
theorem takeKey_kb (ks : List Byte) (e : Engine) (h : e.kcnt.toNat + ks.length ≤ 64) :
    (e.takeKey ks).kb = storeFrom e.kb e.kcnt.toNat ks := by
  induction ks generalizing e with
  | nil => rfl
  | cons b ks ih =>
    rw [List.length_cons] at h
    have hlt : e.kcnt < 64 := by bv_omega
    have hcount : (e.takeKeyByte b).kcnt.toNat = e.kcnt.toNat + 1 := by
      rw [takeKeyByte_kcnt_toNat, if_pos (by omega)]
    rw [takeKey_cons, ih _ (by omega), hcount, takeKeyByte_kb, if_pos hlt, storeFrom]

/-- A key byte is absorbed as a message byte is: KB and KCNT take no part in hashing (R242). -/
theorem takeKeyByte_hashPart (b : Byte) (e : Engine) : (e.takeKeyByte b).hashPart = (e.absorbMsg b).hashPart := by
  have hcount : ∀ f : Engine, f.countKeyByte.hashPart = f.hashPart := by
    intro f
    unfold Engine.countKeyByte
    split <;> rfl
  have hkeep : (e.keepKeyByte b).hashPart = e.hashPart := by
    unfold Engine.keepKeyByte
    split <;> rfl
  rw [Engine.takeKeyByte, hcount]
  exact absorbMsg_hashPart_congr b hkeep

/-- A key is absorbed as a message is (R242). -/
theorem takeKey_hashPart (ks : List Byte) (e : Engine) : (e.takeKey ks).hashPart = (e.absorbAll ks).hashPart := by
  induction ks generalizing e with
  | nil => rw [takeKey_nil, absorbAll_nil]
  | cons b ks ih =>
    rw [takeKey_cons, absorbAll_cons, ih, absorbAll_hashPart_congr ks (takeKeyByte_hashPart b e)]

/-- Bytes stored over zeros, as a list. -/
theorem toList_storeFrom_zeros {n : Nat} {bs : List Byte} (h : bs.length ≤ n) :
    (storeFrom (Vector.replicate n 0) 0 bs).toList = bs ++ List.replicate (n - bs.length) 0 := by
  have hlength : (bs ++ List.replicate (n - bs.length) (0 : Byte)).length = n := by
    rw [List.length_append, List.length_replicate]
    omega
  rw [toList_eq_map_getAt _ 0]
  refine List.ext_getElem (by simpa using hlength.symm) (fun i hi hi' => ?_)
  rw [List.getElem_map, List.getElem_range, getAt_storeFrom, getAt_replicate]
  rw [hlength] at hi'
  by_cases hlt : i < bs.length
  · rw [if_pos (by omega), List.getElem_append_left hlt, Nat.sub_zero, List.getD_eq_getElem _ _ hlt]
  · rw [if_neg (by omega), List.getElem_append_right (by omega), List.getElem_replicate]

/-- A digest has four bytes for each register (R35). -/
theorem digest_length (a : Alg) (m : List Byte) : (digest a m).length = a.digestBytes :=
  digestBytes_length { Engine.reset with alg := a, h := foldBlocks a (hashState a.iv) (packMessage a m) }

theorem digestBytes_le (a : Alg) : a.digestBytes ≤ 32 := by cases a <;> decide

/-- The key at block length, its digest in the place of a long key, with zeros behind (R245). -/
theorem blockKey_eq (a : Alg) (k : List Byte) : blockKey a k =
    (if 64 < k.length then digest a k else k) ++
      List.replicate (64 - (if 64 < k.length then digest a k else k).length) 0 := by
  unfold blockKey Config.blockBytes
  split <;> rfl

/-- KDONE leaves in KB the key at block length (R243, R245). -/
theorem normaliseKey_kb_toList (a : Alg) (k : List Byte) (e : Engine) :
    ((e.openCall true a .key).takeKey k).normaliseKey.kb.toList = blockKey a k := by
  have hzero : (0 : BitVec 7).toNat = 0 := rfl
  have hkcnt := takeKey_kcnt k (e.openCall true a .key) (by simp)
  rw [openCall_kcnt, hzero, Nat.zero_add] at hkcnt
  rw [blockKey_eq]
  by_cases hlong : 64 < k.length
  · have hfull : ((e.openCall true a .key).takeKey k).kcnt = 65 := by
      apply BitVec.eq_of_toNat_eq
      rw [hkcnt, Nat.min_eq_left hlong]
      rfl
    have hdigest : ((e.openCall true a .key).takeKey k).finish.digestBytes = digest a k := by
      rw [finish_digestBytes_congr (takeKey_hashPart k _)]
      exact finish_absorbAll_digestBytes k rfl rfl rfl
    have hshort : (digest a k).length ≤ 64 := by
      rw [digest_length]
      exact (digestBytes_le a).trans (by decide)
    rw [if_pos hlong, Engine.normaliseKey, if_pos hfull, keyFromDigest_kb, hdigest, toList_storeFrom_zeros hshort]
  · have hopen : ((e.openCall true a .key).takeKey k).kcnt ≠ 65 := by
      intro h
      rw [h] at hkcnt
      have hmin : min 65 k.length = 65 := hkcnt.symm
      omega
    have hkb : ((e.openCall true a .key).takeKey k).kb = storeFrom (Vector.replicate 64 0) 0 k :=
      takeKey_kb k _ (by rw [openCall_kcnt, hzero]; omega)
    rw [if_neg hlong, Engine.normaliseKey, if_neg hopen, hkb, toList_storeFrom_zeros (by omega)]

/-- The end of an HMAC call: the outer hash over the opad block and the inner digest (R244). -/
theorem endMessage_digestBytes_of_hmac {e : Engine} (hmac : e.hmac = true) :
    e.endMessage.digestBytes = digest e.alg (xorAll Config.opadByte e.kb.toList ++ e.finish.digestBytes) := by
  have hlength : e.finish.digestBytes.length = e.alg.digestBytes := by rw [digestBytes_length, finish_alg]
  have hinner : e.finish.keepInner.idb.toList.take e.finish.keepInner.alg.digestBytes = e.finish.digestBytes := by
    rw [keepInner_idb, keepInner_alg, finish_alg, toList_storeFrom_zeros (hlength.trans_le (digestBytes_le _)), ← hlength,
      List.take_left]
  have houter : e.endMessage.digestBytes = e.finish.hmacOuter.digestBytes := by
    rw [Engine.endMessage, if_pos hmac]
    generalize e.finish.hmacOuter = f
    rfl
  have hpad : padBlock Config.opadByte e.finish.keepInner.kb = xorAll Config.opadByte e.kb.toList := by
    rw [keepInner_kb, finish_kb, padBlock, xorAll]
  rw [houter, Engine.hmacOuter, Engine.absorbOuter, hinner, ← absorbAll_append,
    finish_absorbAll_restartHash, hpad, keepInner_alg, finish_alg]

/-- The engine at the end of an HMAC call (R241 to R244). -/
def Engine.afterHmacCall (a : Alg) (k m : List Byte) (e : Engine) : Engine :=
  (((e.openCall true a .key).takeKey k).endKey.absorbAll m).endMessage

/-- An HMAC call ends with the HMAC in its registers (R245, R246). -/
theorem afterHmacCall_digestBytes (a : Alg) (k m : List Byte) (e : Engine) : (e.afterHmacCall a k m).digestBytes =
    digest a (xorAll Config.opadByte (blockKey a k) ++ digest a (xorAll Config.ipadByte (blockKey a k) ++ m)) := by
  have hkey := normaliseKey_kb_toList a k e
  have halg : ((e.openCall true a .key).takeKey k).alg = a := by simp
  have hmac : ((e.openCall true a .key).takeKey k).hmac = true := by simp
  unfold Engine.afterHmacCall
  generalize (e.openCall true a .key).takeKey k = f at hkey halg hmac
  have hpad : f.endKey.hashPart =
      (f.normaliseKey.restartHash.absorbAll (padBlock Config.ipadByte f.normaliseKey.kb)).hashPart := rfl
  have hkb : f.endKey.kb = f.normaliseKey.kb := startInner_kb f.normaliseKey
  have hinner : (f.endKey.absorbAll m).finish.digestBytes = digest a (xorAll Config.ipadByte (blockKey a k) ++ m) := by
    rw [finish_digestBytes_congr (absorbAll_hashPart_congr m hpad), ← absorbAll_append, finish_absorbAll_restartHash,
      normaliseKey_alg, halg, padBlock, ← xorAll, hkey]
  rw [endMessage_digestBytes_of_hmac (by rw [absorbAll_hmac, endKey_hmac, hmac]), absorbAll_alg, endKey_alg, halg,
    absorbAll_kb, hkb, hkey, hinner]

end Sys2Proof.Machine

/-! Proofs of 30_encoding.md: the lines DIGEST, HMAC and RD DIGEST as accesses performed (R89, R90, R120, R246). -/

namespace Sys2Proof.Machine

section commands

variable {s : State}

/-- The access of a command executes it (R39, R100). -/
theorem perform_commandAccess (i : Instr) (s : State) : perform (commandAccess i) s = exec i s := by
  rw [commandAccess, perform_write_cmd, command, decode_encode]

theorem exec_init_operand (a : Alg) (hrun : s.eng.state ≠ .error) :
    exec (.init a.operand) s = complete s (Engine.openCall false a .msg) := by
  rw [Alg.operand, exec, execInit, unlessError_ok _ _ hrun, withAlg_some _ _ a _ (ofCode_code a)]

theorem exec_kinit_operand (a : Alg) (hrun : s.eng.state ≠ .error) :
    exec (.kinit a.operand) s = complete s (Engine.openCall true a .key) := by
  rw [Alg.operand, exec, execKinit, unlessError_ok _ _ hrun, withAlg_some _ _ a _ (ofCode_code a)]

theorem exec_kbyte_of_key (b : Byte) (hkey : s.eng.state = .key) :
    exec (.kbyte b) s = complete s (Engine.takeKeyByte b) := by
  rw [exec, execKbyte, unlessError_ok _ _ (by simp [hkey]), requireState_ok _ _ _ hkey]

theorem exec_kdone_of_key (hkey : s.eng.state = .key) (hcount : s.eng.kcnt ≠ 0) :
    exec .kdone s = complete s Engine.endKey := by
  rw [exec, execKdone, unlessError_ok _ _ (by simp [hkey]), requireState_ok _ _ _ hkey, if_neg hcount]

theorem exec_mbyte_of_msg (b : Byte) (hmsg : s.eng.state = .msg) :
    exec (.mbyte b) s = complete s (Engine.absorbMsg b) := by
  rw [exec, execMbyte, unlessError_ok _ _ (by simp [hmsg]), requireState_ok _ _ _ hmsg]

theorem exec_final_of_msg (hmsg : s.eng.state = .msg) : exec .final s = complete s Engine.endMessage := by
  rw [exec, execFinal, unlessError_ok _ _ (by simp [hmsg]), requireState_ok _ _ _ hmsg]

theorem mapEng_mapEng (s : State) (f g : Engine → Engine) : (s.mapEng f).mapEng g = s.mapEng (fun e => g (f e)) := rfl

/-- A command that completes, then the accesses behind it (R69). -/
theorem performAll_command {i : Instr} {f : Engine → Engine} (h : exec i s = complete s f) (xs : List Access) :
    performAll (commandAccess i :: xs) s = performAll xs (s.mapEng f) :=
  performAll_cons _ _ _ _ ((perform_commandAccess i s).trans h)

/-- One command for each byte: where it takes a byte in one STATE and stays there, the bytes are taken in order (R105,
R242). -/
theorem performAll_bytes (one : Byte → Instr) (take : Byte → Engine → Engine) (c : Ctl)
    (hexec : ∀ b s, s.eng.state = c → exec (one b) s = complete s (take b)) (hstate : ∀ b e, (take b e).state = e.state)
    (bs : List Byte) (hs : s.eng.state = c) :
    performAll (bs.map (fun b => commandAccess (one b))) s =
      .next (s.mapEng (fun e => bs.foldl (fun e b => take b e) e)) := by
  induction bs generalizing s with
  | nil => rfl
  | cons b bs ih =>
    rw [List.map_cons, performAll_command (hexec b s hs), ih ((hstate b s.eng).trans hs), mapEng_mapEng]
    rfl

theorem performAll_mbytes (m : List Byte) (hmsg : s.eng.state = .msg) :
    performAll (m.map (fun b => commandAccess (.mbyte b))) s = .next (s.mapEng (Engine.absorbAll m)) :=
  performAll_bytes .mbyte Engine.absorbMsg .msg (fun b _ => exec_mbyte_of_msg b) absorbMsg_state m hmsg

theorem performAll_kbytes (k : List Byte) (hkey : s.eng.state = .key) :
    performAll (k.map (fun b => commandAccess (.kbyte b))) s = .next (s.mapEng (Engine.takeKey k)) :=
  performAll_bytes .kbyte Engine.takeKeyByte .key (fun b _ => exec_kbyte_of_key b) takeKeyByte_state k hkey

/-- The message of a call and its end: MBYTE of each byte, then FINAL (R134, R135). -/
theorem performAll_message (m : List Byte) (hmsg : s.eng.state = .msg) :
    performAll (m.map (fun b => commandAccess (.mbyte b)) ++ [commandAccess .final]) s =
      .next (s.mapEng (fun e => (e.absorbAll m).endMessage)) := by
  have hfinal : (s.mapEng (Engine.absorbAll m)).eng.state = .msg := by rw [mapEng_eng, absorbAll_state, hmsg]
  rw [performAll_append (performAll_mbytes m hmsg), performAll_command (exec_final_of_msg hfinal), performAll_nil,
    mapEng_mapEng]

/-- The engine at the end of a plain call (R103 to R106). -/
def Engine.afterPlainCall (a : Alg) (m : List Byte) (e : Engine) : Engine :=
  ((e.openCall false a .msg).absorbAll m).endMessage

/-- The accesses of a plain call run from any state but ERROR (R120, R134). -/
theorem performAll_digestAccesses (a : Alg) (m : List Byte) (hrun : s.eng.state ≠ .error) :
    performAll (digestAccesses a m) s = .next (s.mapEng (Engine.afterPlainCall a m)) := by
  rw [digestAccesses, List.cons_append, performAll_command (exec_init_operand a hrun), performAll_message m rfl,
    mapEng_mapEng]
  rfl

/-- The accesses of an HMAC call with a key of at least one byte run from any state but ERROR (R135, R246). -/
theorem performAll_hmacAccesses (a : Alg) {k : List Byte} (m : List Byte) (hk : k ≠ []) (hrun : s.eng.state ≠ .error) :
    performAll (hmacAccesses a k m) s = .next (s.mapEng (Engine.afterHmacCall a k m)) := by
  have hkey : (s.mapEng (Engine.openCall true a .key)).eng.state = .key := rfl
  have hkeyed : ((s.mapEng (Engine.openCall true a .key)).mapEng (Engine.takeKey k)).eng.state = .key :=
    (takeKey_state k _).trans hkey
  have hcount := takeKey_kcnt_ne_zero hk (s.eng.openCall true a .key) (by simp)
  have hsplit : hmacAccesses a k m = commandAccess (.kinit a.operand) :: (k.map (fun b => commandAccess (.kbyte b)) ++
      commandAccess .kdone :: (m.map (fun b => commandAccess (.mbyte b)) ++ [commandAccess .final])) := by
    simp [hmacAccesses]
  rw [hsplit, performAll_command (exec_kinit_operand a hrun), performAll_append (performAll_kbytes k hkey),
    performAll_command (exec_kdone_of_key hkeyed hcount), performAll_message m (endKey_state _), mapEng_mapEng,
    mapEng_mapEng, mapEng_mapEng]
  rfl

end commands

/-- A plain call ends with the digest in its registers (R120). -/
theorem afterPlainCall_digestBytes (a : Alg) (m : List Byte) (e : Engine) :
    (e.afterPlainCall a m).digestBytes = digest a m := by
  have hplain : ((e.openCall false a .msg).absorbAll m).hmac ≠ true := by simp
  rw [Engine.afterPlainCall, Engine.endMessage, if_neg hplain]
  exact finish_absorbAll_digestBytes (e := e.openCall false a .msg) m rfl rfl rfl

theorem afterPlainCall_state (a : Alg) (m : List Byte) (e : Engine) : (e.afterPlainCall a m).state = .done :=
  endMessage_state _

theorem afterHmacCall_state (a : Alg) (k m : List Byte) (e : Engine) : (e.afterHmacCall a k m).state = .done :=
  endMessage_state _

/-- Reads of DOUT registers answer their words in order and leave the engine alone (R65, R111). -/
theorem performAll_doutReads {n : Nat} (hn : n ≤ 8) (s : State) :
    performAll (doutReads n) s = .next { s with replies := s.replies ++ (List.range n).map s.eng.dout } := by
  induction n with
  | zero =>
    rw [List.range_zero, List.map_nil, List.append_nil]
    rfl
  | succ n ih =>
    have hlast : doutReads (n + 1) = doutReads n ++ [.read (0x20 + 4 * n) 4] := by
      rw [doutReads, doutReads, List.range_succ, List.map_append, List.map_singleton]
    rw [hlast, performAll_append (ih (by omega)),
      performAll_cons _ _ _ _ (perform_read _ _ _ (accessExists_dout (by omega))), performAll_nil, readRegister_dout,
      List.append_assoc, List.range_succ, List.map_append, List.map_singleton]

/-- In DONE the rendered words of DOUT spell the digest bytes (R117, R133). -/
theorem render_dout {e : Engine} (hdone : e.state = .done) :
    render ((List.range e.alg.arity).map e.dout) = e.digestBytes.flatMap hexOfByte := by
  have hwords : (List.range e.alg.arity).map e.dout = (List.range e.alg.arity).map e.outWord := by
    apply List.map_congr_left
    intro i hi
    exact dout_eq_renderWord hdone (List.mem_range.mp hi)
  rw [hwords, render, List.flatMap_map, Engine.digestBytes, digestBytesOf, List.flatMap_assoc]
  rfl

/-- A call's line, then RD DIGEST: where the line's accesses end in DONE with nothing read, the digest is read out behind the
replies there were (R90). -/
theorem runScript_call {l : Line} {xs : List Access} {s t : State} (hline : l.assemble s.eng.alg = some xs)
    (hrun : performAll xs s = .next t) (hdone : t.eng.state = .done) (hreplies : t.replies = s.replies) :
    ∃ u, runScript [l, .rdDigest] s = some (.next u) ∧ u.eng.state = .done ∧
      render (u.replies.drop s.replies.length) = t.eng.digestBytes.flatMap hexOfByte := by
  have hread : Line.assemble t.eng.alg .rdDigest = some (doutReads t.eng.alg.arity) := rfl
  refine ⟨{ t with replies := t.replies ++ (List.range t.eng.alg.arity).map t.eng.dout }, ?_, hdone, ?_⟩
  · simp only [runScript, hline, hrun, hread, performAll_doutReads (arity_le _)]
  · rw [hreplies, List.drop_left, render_dout hdone]

/-- The number an algorithm's code is written as is the operand of its opening commands (R85, R89). -/
theorem ofNat_code (a : Alg) : BitVec.ofNat 8 a.code.toNat = a.operand := by cases a <;> rfl

theorem code_toNat_lt (a : Alg) : a.code.toNat < 256 := a.code.isLt.trans (by decide)

/-- The data of a line, one command for each byte (R90). -/
theorem dataAccesses_of_bytes {x : Data} {m : List Byte} (hx : x.bytes = .ok m) (one : Byte → Instr) :
    dataAccesses one x = some (m.map (fun b => commandAccess (one b))) := by
  rw [dataAccesses, hx]

/-- DIGEST stands for the accesses of a plain call (R90). -/
theorem assemble_digest (alg a : Alg) {x : Data} {m : List Byte} (hx : x.bytes = .ok m) :
    Line.assemble alg (.digest a.code.toNat x) = some (digestAccesses a m) := by
  rw [Line.assemble, Line.wellFormed, decide_eq_true (code_toNat_lt a), if_pos rfl, Line.expand,
    dataAccesses_of_bytes hx, ofNat_code]
  rfl

/-- HMAC stands for the accesses of an HMAC call (R90). -/
theorem assemble_hmac (alg a : Alg) {y x : Data} {k m : List Byte} (hy : y.bytes = .ok k) (hx : x.bytes = .ok m) :
    Line.assemble alg (.hmac a.code.toNat y x) = some (hmacAccesses a k m) := by
  rw [Line.assemble, Line.wellFormed, decide_eq_true (code_toNat_lt a), if_pos rfl, Line.expand,
    dataAccesses_of_bytes hx, dataAccesses_of_bytes hy, ofNat_code]
  rfl

/-- Settles O52: the two lines stand for the accesses of a call, which end it in DONE with its result, and RD DIGEST reads
that out. -/
theorem pseudoInstructionsReadOutTheResult : Obligations.PseudoInstructionsReadOutTheResult := by
  constructor
  · intro a x m s hx hrun
    have hread := runScript_call (assemble_digest s.eng.alg a hx) (performAll_digestAccesses a m hrun)
      (afterPlainCall_state a m s.eng) (mapEng_replies s _)
    rwa [mapEng_eng, afterPlainCall_digestBytes] at hread
  · intro a y x k m s hy hx hk hrun
    obtain ⟨t, ht, hdone, hread⟩ := runScript_call (assemble_hmac s.eng.alg a hy hx) (performAll_hmacAccesses a m hk hrun)
      (afterHmacCall_state a k m s.eng) (mapEng_replies s _)
    rw [mapEng_eng, afterHmacCall_digestBytes] at hread
    exact ⟨t, _, ht, hdone, if_neg hk, hread⟩

end Sys2Proof.Machine

/-! Proofs of 40_commands.md: what a command does in each STATE (R100 to R103). -/

namespace Sys2Proof.Machine

section commands

variable {s : State}

/-- In ERROR every command but CLEAR is ignored (R267). -/
theorem exec_of_error {i : Instr} (hi : i ≠ .clear) (herr : s.eng.state = .error) : exec i s = .next s := by
  cases i with
  | clear => exact absurd rfl hi
  | nop | init a | kinit a | kbyte b | kdone | mbyte b | final => exact unlessError_error s _ herr

/-- NOP leaves every state as it is, ERROR too (R102). -/
theorem exec_nop (s : State) : exec .nop s = .next s := by
  rw [exec, execNop, unlessError, ite_self]

/-- The one STATE in which a command is legal, for those that have one (R101). -/
def requiredState : Instr → Option Ctl
  | .kbyte _ | .kdone => some .key
  | .mbyte _ | .final => some .msg
  | .nop | .init _ | .kinit _ | .clear => none

/-- Outside the STATE it is legal in, a command raises ERR_SEQ (R265). -/
theorem exec_of_wrong_state {i : Instr} {c : Ctl} (hi : requiredState i = some c) (hrun : s.eng.state ≠ .error)
    (hc : s.eng.state ≠ c) : exec i s = .next (s.inError .seq) := by
  cases i with
  | nop | init a | kinit a | clear => cases hi
  | kbyte b | kdone | mbyte b | final =>
    cases hi
    exact (unlessError_ok s _ hrun).trans (requireState_bad s _ _ hc)

/-- INIT and KINIT with a code that names no algorithm raise ERR_ALG (R263). -/
theorem exec_init_of_four_le {a : Byte} (hrun : s.eng.state ≠ .error) (ha : 4 ≤ a.toNat) :
    exec (.init a) s = .next (s.inError .alg) :=
  (unlessError_ok s _ hrun).trans (withAlg_none s a _ (ofCode_none a ha))

theorem exec_kinit_of_four_le {a : Byte} (hrun : s.eng.state ≠ .error) (ha : 4 ≤ a.toNat) :
    exec (.kinit a) s = .next (s.inError .alg) :=
  (unlessError_ok s _ hrun).trans (withAlg_none s a _ (ofCode_none a ha))

/-- KDONE without a key byte raises ERR_KEY (R262). -/
theorem exec_kdone_of_no_key (hkey : s.eng.state = .key) (hcount : s.eng.kcnt = 0) :
    exec .kdone s = .next (s.inError .key) := by
  rw [exec, execKdone, unlessError_ok _ _ (by simp [hkey]), requireState_ok _ _ _ hkey, if_pos hcount]
  rfl

end commands

/-- Settles O16: each way a command can go completes with another engine, and that alone. -/
theorem everyCommandCompletes : Obligations.EveryCommandCompletes := by
  intro i s
  obtain ⟨hx, -⟩ | ⟨-, hx⟩ | ⟨_, hx, -⟩ | ⟨_, _, _, hx, -⟩ | ⟨_, -, -, hx⟩ | ⟨-, -, -, hx⟩ | ⟨_, -, -, hx⟩ |
    ⟨-, -, hx⟩ := exec_cases i s
  all_goals exact ⟨_, hx, rfl, rfl⟩

/-- The one well-formed word with opcode 0 is the all-zero word (R84, R86). -/
theorem decode_ne_instr_of_opcode_zero {w : Word} (hopc : w.toNat % 256 = 0) (hw : w ≠ 0) (i : Instr) :
    decode w ≠ .instr i := by
  intro hdec
  obtain ⟨hcode, -⟩ := fields_of_decode hdec
  have hzero : i.opcode.toNat = 0 := by rw [← hcode, opcOf_toNat, hopc]
  have hnop : i = .nop := by
    cases i with
    | nop => rfl
    | init a | kinit a | kbyte b | kdone | mbyte b | final | clear => cases hzero
  exact hw ((decode_eq_instr_iff w .nop).mp (hnop ▸ hdec))

/-- Settles O17: NOP's meaning is the state itself, and a word with its opcode that is not its word decodes to nothing. -/
theorem nopChangesNothing : Obligations.NopChangesNothing := by
  refine ⟨rfl, fun s => ⟨exec_nop s, exec_nop s⟩, fun w s hopc hw hrun => ?_⟩
  rw [command_of_illegal (decode_ne_instr_of_opcode_zero hopc hw) s, if_neg hrun]

/-- Settles O18: INIT with an algorithm's code is `openCall`, whose fields are the call state of R21 and the IV of R47. -/
theorem initOpensAPlainCall : Obligations.InitOpensAPlainCall := by
  refine ⟨fun a => encode_toNat (.init a), fun a s hrun => ?opens, fun a s => exec_init_of_four_le,
    fun a s => exec_of_error (by simp)⟩
  refine ⟨_, exec_init_operand a hrun, ⟨rfl, rfl⟩, rfl, rfl, rfl, rfl, ?iv, rfl, rfl, rfl, rfl, rfl, rfl, rfl, rfl⟩
  rw [mapEng_eng, openCall_h]
  cases a <;> rfl

/-! The transition table (R101). -/

section table

variable {i : Instr} {c : Ctl}

theorem transitionCell_error (hi : i ≠ .clear) (noKey : Bool) : transitionCell i .error noKey = .ignored := by
  cases i with
  | clear => exact absurd rfl hi
  | nop | init a | kinit a | kbyte b | kdone | mbyte b | final => rfl

theorem transitionCell_nop (hc : c ≠ .error) (noKey : Bool) : transitionCell .nop c noKey = .goes c := by
  cases c with
  | error => exact absurd rfl hc
  | idle | key | msg | done => rfl

theorem transitionCell_init (a : Byte) (hc : c ≠ .error) (noKey : Bool) :
    transitionCell (.init a) c noKey = if a.toNat ≤ 3 then .goes .msg else .raises .alg := by
  cases c with
  | error => exact absurd rfl hc
  | idle | key | msg | done => rfl

theorem transitionCell_kinit (a : Byte) (hc : c ≠ .error) (noKey : Bool) :
    transitionCell (.kinit a) c noKey = if a.toNat ≤ 3 then .goes .key else .raises .alg := by
  cases c with
  | error => exact absurd rfl hc
  | idle | key | msg | done => rfl

theorem transitionCell_of_wrong_state {r : Ctl} (hi : requiredState i = some r) (hrun : c ≠ .error) (hc : c ≠ r)
    (noKey : Bool) : transitionCell i c noKey = .raises .seq := by
  cases i with
  | nop | init a | kinit a | clear => cases hi
  | kbyte b | kdone =>
    cases hi
    cases c with
    | error => exact absurd rfl hrun
    | key => exact absurd rfl hc
    | idle | msg | done => rfl
  | mbyte b | final =>
    cases hi
    cases c with
    | error => exact absurd rfl hrun
    | msg => exact absurd rfl hc
    | idle | key | done => rfl

end table

/-- `t` is what a cell of the transition table says of a command in `s`. -/
def meetsCell (s t : State) : Cell → Prop
  | .goes c => t.eng.state = c
  | .raises c => t = s.inError c
  | .ignored => t = s

/-- Every command does what its cell says: in ERROR by R267, outside the STATE it is legal in by R265, else by its own
meaning. -/
theorem exec_meetsCell (i : Instr) (s : State) :
    ∃ t, exec i s = .next t ∧ meetsCell s t (transitionCell i s.eng.state (s.eng.kcnt == 0)) := by
  by_cases hclear : i = .clear
  · subst hclear
    exact ⟨_, rfl, rfl⟩
  by_cases herr : s.eng.state = .error
  · exact ⟨s, exec_of_error hclear herr, by rw [herr, transitionCell_error hclear]; rfl⟩
  by_cases hwrong : ∃ r, requiredState i = some r ∧ s.eng.state ≠ r
  · obtain ⟨r, hi, hr⟩ := hwrong
    exact ⟨_, exec_of_wrong_state hi herr hr, by rw [transitionCell_of_wrong_state hi herr hr]; rfl⟩
  have hright : ∀ r, requiredState i = some r → s.eng.state = r :=
    fun r hi => not_not.mp (fun hr => hwrong ⟨r, hi, hr⟩)
  cases i with
  | clear => exact absurd rfl hclear
  | nop => exact ⟨s, exec_nop s, by rw [transitionCell_nop herr]; rfl⟩
  | init a =>
    rw [transitionCell_init a herr]
    split
    next ha =>
      obtain ⟨g, -, rfl⟩ := ofCode_some a ha
      exact ⟨_, exec_init_operand g herr, rfl⟩
    next ha => exact ⟨_, exec_init_of_four_le herr (by omega), rfl⟩
  | kinit a =>
    rw [transitionCell_kinit a herr]
    split
    next ha =>
      obtain ⟨g, -, rfl⟩ := ofCode_some a ha
      exact ⟨_, exec_kinit_operand g herr, rfl⟩
    next ha => exact ⟨_, exec_kinit_of_four_le herr (by omega), rfl⟩
  | kbyte b =>
    have hkey := hright .key rfl
    refine ⟨_, exec_kbyte_of_key b hkey, ?_⟩
    rw [hkey]
    exact (takeKeyByte_state b s.eng).trans hkey
  | kdone =>
    have hkey := hright .key rfl
    rw [hkey]
    by_cases hcount : s.eng.kcnt = 0
    · rw [beq_iff_eq.mpr hcount]
      exact ⟨_, exec_kdone_of_no_key hkey hcount, rfl⟩
    · rw [beq_eq_false_iff_ne.mpr hcount]
      exact ⟨_, exec_kdone_of_key hkey hcount, rfl⟩
  | mbyte b =>
    have hmsg := hright .msg rfl
    refine ⟨_, exec_mbyte_of_msg b hmsg, ?_⟩
    rw [hmsg]
    exact (absorbMsg_state b s.eng).trans hmsg
  | final =>
    have hmsg := hright .msg rfl
    refine ⟨_, exec_final_of_msg hmsg, ?_⟩
    rw [hmsg]
    rfl

/-- Settles O12: `exec_meetsCell` for the commands, `command_of_illegal` for the row of the illegal words. -/
theorem transitionTable : Obligations.TransitionTable :=
  ⟨exec_meetsCell, fun _ s hw => command_of_illegal hw s⟩

end Sys2Proof.Machine

/-! Proofs of 40_commands.md: a call as a whole (R119, R120). -/

namespace Sys2Proof.Machine

/-- Settles O43: the accesses of a plain call end in `afterPlainCall`, whose digest is that of the message. -/
theorem plainCallComputesTheDigest : Obligations.PlainCallComputesTheDigest := by
  intro a m s hrun
  refine ⟨_, performAll_digestAccesses a m hrun, ⟨rfl, rfl⟩, ?_⟩
  rw [mapEng_eng]
  exact ⟨afterPlainCall_state a m s.eng, by simp [Engine.afterPlainCall], by simp [Engine.afterPlainCall],
    by simp [Engine.afterPlainCall], afterPlainCall_digestBytes a m s.eng⟩

/-- Opening a call writes every item of the engine but ERR, so of the engine before only ERR is left (R103, R241). -/
theorem openCall_eq_of_err {e f : Engine} (herr : e.err = f.err) (hmac : Bool) (a : Alg) (c : Ctl) :
    e.openCall hmac a c = f.openCall hmac a c := by
  simp only [Engine.openCall, Engine.loadIV, Engine.resetCallState, herr]

/-- The call's accesses, run from two engines with the same ERR, end in the same engine. -/
theorem performAll_call_eq_of_err {a : Alg} {k m : List Byte} {s₁ s₂ : State} (hrun₁ : s₁.eng.state ≠ .error)
    (hrun₂ : s₂.eng.state ≠ .error) (herr : s₁.eng.err = s₂.eng.err) {xs : List Access}
    (hxs : xs = digestAccesses a m ∨ (k ≠ [] ∧ xs = hmacAccesses a k m)) :
    ∃ t₁ t₂, performAll xs s₁ = .next t₁ ∧ performAll xs s₂ = .next t₂ ∧ t₁.eng = t₂.eng := by
  obtain rfl | ⟨hk, rfl⟩ := hxs
  · refine ⟨_, _, performAll_digestAccesses a m hrun₁, performAll_digestAccesses a m hrun₂, ?_⟩
    rw [mapEng_eng, mapEng_eng, Engine.afterPlainCall, Engine.afterPlainCall, openCall_eq_of_err herr]
  · refine ⟨_, _, performAll_hmacAccesses a m hk hrun₁, performAll_hmacAccesses a m hk hrun₂, ?_⟩
    rw [mapEng_eng, mapEng_eng, Engine.afterHmacCall, Engine.afterHmacCall, openCall_eq_of_err herr]

/-- Settles O45: outside ERROR the invariant says that ERR is 0, and a call forgets every other item of the engine where it
opens. -/
theorem callsArePure : Obligations.CallsArePure := by
  intro a k m s₁ s₂ hrun₁ hrun₂ hinv₁ hinv₂ xs hxs
  obtain ⟨herr₁, -⟩ := hinv₁
  obtain ⟨herr₂, -⟩ := hinv₂
  have herr : s₁.eng.err = s₂.eng.err := (herr₁.mpr hrun₁).trans (herr₂.mpr hrun₂).symm
  obtain ⟨t₁, t₂, ht₁, ht₂, heng⟩ := performAll_call_eq_of_err hrun₁ hrun₂ herr hxs
  refine ⟨t₁, t₂, ht₁, ht₂, ?_⟩
  rw [heng]
  exact ⟨rfl, rfl, rfl, rfl, rfl, fun _ => rfl⟩

end Sys2Proof.Machine

/-! Proofs of 40_commands.md: MBYTE and FINAL, and what the packer does not write (R105, R106, R244). -/

namespace Sys2Proof.Machine

/-- `f` is `e` where the packer writes nothing for `e`'s algorithm: ALG, SV from the arity on, and W past the block and its
schedule (R25, R26). -/
def keepsUnwritten (e f : Engine) : Prop :=
  f.alg = e.alg ∧ (∀ i, e.alg.arity ≤ i → getAt f.sv i 0 = getAt e.sv i 0) ∧ sameRestOfW e f

namespace keepsUnwritten

variable {d e f : Engine}

theorem trans (hde : keepsUnwritten d e) (hef : keepsUnwritten e f) : keepsUnwritten d f := by
  obtain ⟨ha, hsv, hw⟩ := hde
  obtain ⟨ha', hsv', hw'⟩ := hef
  rw [ha] at hsv'
  unfold sameRestOfW at hw'
  rw [ha] at hw'
  exact ⟨ha'.trans ha, fun i hi => (hsv' i hi).trans (hsv i hi), fun i hi hr => (hw' i hi hr).trans (hw i hi hr)⟩

/-- An operation that writes of ALG, SV and W the block buffer at most. -/
theorem of_eq (ha : f.alg = e.alg) (hsv : f.sv = e.sv) (hw : ∀ i, 16 ≤ i → f.wAt i = e.wAt i) : keepsUnwritten e f :=
  ⟨ha, fun i _ => by rw [hsv], fun i hi _ => hw i hi⟩

theorem refl (e : Engine) : keepsUnwritten e e := of_eq rfl rfl (fun _ _ => rfl)

end keepsUnwritten

section unwritten

variable (b : Byte) (e : Engine)

/-- A byte put at POS leaves W past the block buffer alone (R141). -/
theorem putByte_wAt_of_le (p : BitVec 6) {i : Nat} (hi : 16 ≤ i) : (e.putByte p b).wAt i = e.wAt i := by
  rw [putByte_wAt, if_neg (by omega)]

/-- A compression leaves W alone where no schedule writes (R26, R147). -/
theorem compress_sameRestOfW : sameRestOfW e e.compress := by
  intro i hi hrest
  rw [Engine.wAt, compress_w]
  cases ha : e.alg with
  | md4 | md5 => rfl
  | sha1 =>
    rw [ha] at hrest
    simp [Alg.little] at hrest
  | sha256 =>
    rw [ha] at hrest
    obtain hlittle | ⟨-, hle⟩ := hrest
    · cases hlittle
    · exact sha256Schedule_other e.w i (.inr hle)

theorem compress_keepsUnwritten : keepsUnwritten e e.compress := by
  refine ⟨compress_alg e, fun i hi => ?_, compress_sameRestOfW e⟩
  rw [compress_sv, getAt_saveFirst _ _ _ _ (arity_le _), if_neg (by omega)]

theorem absorb_keepsUnwritten : keepsUnwritten e (e.absorb b) := by
  have hput : keepsUnwritten e (e.putByte e.pos b).advance :=
    .of_eq rfl rfl (fun i hi => putByte_wAt_of_le b e e.pos hi)
  rw [absorb_cases]
  split
  · exact hput.trans (compress_keepsUnwritten _)
  · exact hput

theorem absorbMsg_keepsUnwritten : keepsUnwritten e (e.absorbMsg b) :=
  (absorb_keepsUnwritten b e).trans (.of_eq rfl rfl (fun _ _ => rfl))

theorem absorbAll_keepsUnwritten (bs : List Byte) : keepsUnwritten e (e.absorbAll bs) :=
  absorbAll_keeps (keepsUnwritten e) (fun b f hf => hf.trans (absorbMsg_keepsUnwritten b f)) bs e (.refl e)

theorem padded_keepsUnwritten : keepsUnwritten e e.padded :=
  padZeros_keeps (keepsUnwritten e) (fun b f hf => hf.trans (absorb_keepsUnwritten b f)) 63 _
    (absorb_keepsUnwritten 0x80 e)

theorem placeLength_keepsUnwritten : keepsUnwritten e e.placeLength :=
  .of_eq rfl rfl (fun i hi => by rw [placeLength_wAt, if_neg (by omega), if_neg (by omega)])

theorem finish_keepsUnwritten : keepsUnwritten e e.finish :=
  ((padded_keepsUnwritten e).trans (placeLength_keepsUnwritten _)).trans (compress_keepsUnwritten _)

/-- The outer hash starts in the registers the inner one leaves (R244). -/
theorem restartHash_keepInner_keepsUnwritten : keepsUnwritten e e.keepInner.restartHash := by
  refine .of_eq ?_ ?_ (fun i _ => ?_)
  · rw [restartHash_alg, keepInner_alg]
  · rw [restartHash_sv, keepInner_sv]
  · rw [Engine.wAt, restartHash_w, keepInner_w, Engine.wAt]

end unwritten

/-! MBYTE (R105). -/

section messageByte

variable (b : Byte) {e : Engine}

/-- The words of the block after a byte is absorbed are those of the buffer with the byte put, compressed or not (R142). -/
theorem absorb_wAt {i : Nat} (hi : i < 16) : (e.absorb b).wAt i = (e.putByte e.pos b).wAt i := by
  rw [absorb_cases]
  split
  · exact compress_wAt _ hi
  · rfl

/-- The bytes of the block after a byte is absorbed: the byte at POS, the others as they were (R142). -/
theorem bufferByte_absorb {q : Nat} (hq : q < 64) :
    (e.absorb b).bufferByte q = if q = e.pos.toNat then b else e.bufferByte q := by
  rw [← bufferByte_putByte, bufferByte_eq, bufferByte_eq, absorb_wAt b (by omega), absorb_alg, putByte_alg]

/-- Absorbing a byte that does not fill the block writes no register and no word past the block (R142). -/
theorem absorb_registers_of_not_full (hpos : e.pos ≠ 63) : (e.absorb b).h = e.h ∧ (e.absorb b).sv = e.sv ∧
    (e.absorb b).j = e.j ∧ ∀ i, 16 ≤ i → (e.absorb b).wAt i = e.wAt i := by
  rw [absorb_cases, if_neg hpos]
  exact ⟨rfl, rfl, rfl, fun i hi => putByte_wAt_of_le b e e.pos hi⟩

/-- Absorbing the byte that fills the block compresses it: H is the block function of the block, SV the old H, J 0 (R142,
R147). -/
theorem absorb_registers_of_full (hpos : e.pos = 63) :
    (e.absorb b).h = blockFn e.alg e.h (blockBuffer ((List.range 16).map (e.absorb b).wAt)) ∧ (e.absorb b).j = 0 ∧
      ∀ i, getAt (e.absorb b).sv i 0 = if i < e.alg.arity then e.hAt i else getAt e.sv i 0 := by
  have hblock : (List.range 16).map (e.absorb b).wAt = (List.range 16).map (e.putByte e.pos b).advance.wAt :=
    List.map_congr_left (fun i hi => absorb_wAt b (List.mem_range.mp hi))
  rw [hblock, absorb_cases, if_pos hpos, compress_h_of_block, compress_j, compress_sv]
  exact ⟨rfl, rfl, fun i => getAt_saveFirst _ _ _ i (arity_le _)⟩

/-- AbsorbMsg is what R142 and R143 say of it. -/
theorem absorbedByte_absorbMsg (e : Engine) : absorbedByte b e (e.absorbMsg b) := by
  refine ⟨absorbMsg_pos b e, absorbMsg_mlen b e, fun q => bufferByte_absorb b, absorb_registers_of_not_full b, fun hpos => ?_⟩
  obtain ⟨hh, hj, hsv⟩ := absorb_registers_of_full b hpos
  obtain ⟨-, -, hrest⟩ := absorb_keepsUnwritten b e
  exact ⟨hh, hj, fun i _ => hsv i, hrest⟩

/-- AbsorbMsg touches no control field and no HMAC register (R105). -/
theorem sameControlAndKey_absorbMsg (e : Engine) : sameControlAndKey e (e.absorbMsg b) :=
  ⟨absorbMsg_state b e, absorbMsg_err b e, absorbMsg_hmac b e, absorbMsg_alg b e, absorbMsg_kb b e, absorbMsg_kcnt b e,
    absorbMsg_idb b e⟩

end messageByte

/-- Settles O20: MBYTE in MSG is `absorbMsg`; elsewhere it is out of sequence, or ignored. -/
theorem mbyteAbsorbsOneByte : Obligations.MbyteAbsorbsOneByte := by
  refine ⟨fun b => encode_toNat (.mbyte b), fun b s hmsg => ?absorbs, fun b s => exec_of_wrong_state rfl,
    fun b s => exec_of_error (by simp)⟩
  exact ⟨_, exec_mbyte_of_msg b hmsg, ⟨rfl, rfl⟩, sameControlAndKey_absorbMsg b s.eng, absorbedByte_absorbMsg b s.eng⟩

/-! FINAL in a plain call (R106). -/

section finish

variable (e : Engine)

/-- SV after Finish(): the registers before the last block, and the rest of SV as it was (R25, R146). -/
theorem getAt_finish_sv (i : Nat) : getAt e.finish.sv i 0 =
    if i < e.alg.arity then getAt (foldBlocks e.alg e.h e.tailBlocks.dropLast) i 0 else getAt e.sv i 0 := by
  obtain ⟨-, hsv, -⟩ := padded_keepsUnwritten e
  rw [finish_eq, compress_sv, getAt_saveFirst _ _ _ _ (arity_le _), placeLength_alg, placeLength_h, placeLength_sv,
    padded_alg, padded_h, tailBlocks_eq, List.dropLast_concat]
  split
  · rfl
  next hi => exact hsv i (by omega)

/-- The block buffer after Finish() holds the last block (R146). -/
theorem finish_wAt_eq_getLast? : some ((List.range 16).map e.finish.wAt) = e.tailBlocks.getLast? := by
  have hkept : (List.range 16).map e.finish.wAt = (List.range 16).map e.padded.placeLength.wAt :=
    List.map_congr_left (fun i hi => compress_wAt _ (List.mem_range.mp hi))
  rw [hkept, finish_lastBlock, tailBlocks_eq, List.getLast?_concat]

theorem endMessage_of_plain (hplain : e.hmac = false) : e.endMessage = { e.finish with state := .done } := by
  rw [Engine.endMessage, hplain, if_neg (by decide)]

end finish

/-- Settles O23: FINAL in MSG is `endMessage`, in a plain call Finish() with STATE at DONE; elsewhere it is out of sequence,
or ignored. -/
theorem finalEndsAPlainCall : Obligations.FinalEndsAPlainCall := by
  refine ⟨rfl, fun s hmsg hplain => ?ends, fun s => exec_of_wrong_state rfl, fun s => exec_of_error (by simp)⟩
  refine ⟨_, exec_final_of_msg hmsg, ⟨rfl, rfl⟩, ?_⟩
  obtain ⟨-, -, hrest⟩ := finish_keepsUnwritten s.eng
  rw [mapEng_eng, endMessage_of_plain _ hplain]
  exact ⟨rfl, finish_err _, (finish_hmac _).trans hplain, finish_alg _, finish_kb _, finish_kcnt _, finish_idb _,
    finish_mlen _, finish_pos _, finish_j _, finish_h _, tailBlocks_length _, fun i _ => getAt_finish_sv _ i,
    finish_wAt_eq_getLast? _, hrest⟩

/-! FINAL in an HMAC call (R106, R244). -/

section wholeMessage

variable {e : Engine} (m : List Byte) (hpos : e.pos = 0) (hmlen : e.mlen = 0)

/-- The number of blocks of a packed message (R148). -/
theorem packMessage_length (a : Alg) (m : List Byte) : (packMessage a m).length = (m.length + 8) / 64 + 1 := by
  rw [packMessage_eq, List.length_append, fullBlocks, cutBlocks_length, padMessage_length, List.length_singleton]
  omega

include hpos

/-- A message absorbed from an empty buffer: its full blocks are compressed, the bytes left over are buffered (R142). -/
theorem absorbAll_blocks_of_empty : (e.absorbAll m).h = foldBlocks e.alg e.h (fullBlocks e.alg m) ∧
    (e.absorbAll m).bufferedBytes = openBytes m := by
  have hempty : e.bufferedBytes = [] := List.eq_nil_of_length_eq_zero (by rw [bufferedBytes_length, hpos]; rfl)
  have hblocks := absorbAll_blocks m e
  rwa [hempty, List.nil_append] at hblocks

include hmlen

/-- A message absorbed from an empty buffer leaves to Finish() the packed blocks behind the full ones (R148, R149). -/
theorem packMessage_eq_fullBlocks_append :
    packMessage e.alg m = fullBlocks e.alg m ++ (e.absorbAll m).tailBlocks := by
  obtain ⟨-, hbytes⟩ := absorbAll_blocks_of_empty m hpos
  have hcount : padCount (e.absorbAll m).pos.toNat = padCount m.length := by
    rw [← bufferedBytes_length, hbytes, openBytes_length, padCount, padCount, Nat.mod_mod]
  have hpadded : (e.absorbAll m).paddedBytes = openBytes m ++ ([0x80] ++ List.replicate (padCount m.length) 0) := by
    rw [Engine.paddedBytes, hbytes, Engine.padding, hcount, List.singleton_append]
  have hbits : (e.absorbAll m).mlen = messageBits m := by rw [absorbAll_mlen, hmlen, zero_add, messageBits]
  obtain ⟨hblocks, hopen⟩ := blocks_append_openBytes e.alg m ([0x80] ++ List.replicate (padCount m.length) 0)
  rw [tailBlocks_eq, Engine.lengthList, absorbAll_alg, hpadded, hbits, packMessage_eq, padMessage, List.append_assoc m,
    hblocks, hopen, List.append_assoc]

/-- SV after a whole message: the registers before the last packed block (R25, R149). -/
theorem getAt_finish_absorbAll_sv (i : Nat) : getAt (e.absorbAll m).finish.sv i 0 =
    if i < e.alg.arity then getAt (foldBlocks e.alg e.h (packMessage e.alg m).dropLast) i 0 else getAt e.sv i 0 := by
  obtain ⟨hh, -⟩ := absorbAll_blocks_of_empty m hpos
  obtain ⟨-, hsv, -⟩ := absorbAll_keepsUnwritten e m
  rw [getAt_finish_sv, packMessage_eq_fullBlocks_append m hpos hmlen, absorbAll_alg]
  split
  · rw [List.dropLast_append_of_ne_nil (by simp [tailBlocks_eq]), foldBlocks_append, ← hh]
  next hi => exact hsv i (by omega)

/-- The block buffer after a whole message holds the last packed block (R149). -/
theorem finish_absorbAll_wAt_eq_getLast? :
    some ((List.range 16).map (e.absorbAll m).finish.wAt) = (packMessage e.alg m).getLast? := by
  rw [finish_wAt_eq_getLast?, packMessage_eq_fullBlocks_append m hpos hmlen,
    List.getLast?_append_of_ne_nil _ (by simp [tailBlocks_eq])]

end wholeMessage

section outer

variable (e : Engine)

/-- The message of the outer hash: the opad block and the inner digest (R244). -/
def Engine.outerMessage (e : Engine) : List Byte := xorAll Config.opadByte e.kb.toList ++ e.finish.digestBytes

theorem finish_digestBytes_length : e.finish.digestBytes.length = e.alg.digestBytes := by
  rw [digestBytes_length, finish_alg]

theorem outerMessage_length : e.outerMessage.length = 64 + 4 * e.alg.arity := by
  rw [Engine.outerMessage, List.length_append, finish_digestBytes_length, xorAll, List.length_map, Vector.length_toList,
    Alg.digestBytes]

/-- HmacOuter() absorbs the opad block and the inner digest from the IV and finishes (R244). -/
theorem finish_hmacOuter_eq :
    e.finish.hmacOuter = (e.finish.keepInner.restartHash.absorbAll e.outerMessage).finish := by
  have hinner : e.finish.keepInner.idb.toList.take e.finish.keepInner.alg.digestBytes = e.finish.digestBytes := by
    rw [keepInner_idb, keepInner_alg, finish_alg, ← finish_digestBytes_length, toList_storeFrom_zeros,
      List.take_left]
    exact (finish_digestBytes_length e).trans_le (digestBytes_le _)
  rw [Engine.hmacOuter, Engine.absorbOuter, hinner, ← absorbAll_append, keepInner_kb, finish_kb]
  rfl

/-- STATE is no part of W. -/
theorem wAt_with_state (c : Ctl) : Engine.wAt { e with state := c } = e.wAt := rfl

theorem endMessage_of_hmac (hmac : e.hmac = true) : e.endMessage = { e.finish.hmacOuter with state := .done } := by
  rw [Engine.endMessage, if_pos hmac]

/-- MLEN after the outer hash: 512 bits of the pad block and 32 for each register (R244). -/
theorem finish_hmacOuter_mlen : e.finish.hmacOuter.mlen.toNat = 512 + 32 * e.alg.arity := by
  have harity := arity_le e.alg
  rw [finish_hmacOuter_eq, finish_mlen, absorbAll_mlen, restartHash_mlen, zero_add, outerMessage_length,
    BitVec.toNat_ofNat, Nat.mod_eq_of_lt (by omega)]
  omega

/-- ID after the outer hash: the inner digest, then zeros (R244). -/
theorem getAt_finish_hmacOuter_idb {i : Nat} (hi : i < 32) :
    getAt e.finish.hmacOuter.idb i 0 = e.finish.digestBytes.getD i 0 := by
  rw [hmacOuter_idb]
  by_cases hlt : i < e.finish.digestBytes.length
  · rw [getAt_storeFrom, if_pos (by omega), Nat.sub_zero]
  · rw [getAt_storeFrom_zeros _ _ (by omega), List.getD_eq_default _ _ (by omega)]

/-- The outer hash leaves alone what the packer does not write (R25, R26). -/
theorem finish_hmacOuter_keepsUnwritten : keepsUnwritten e e.finish.hmacOuter := by
  rw [finish_hmacOuter_eq]
  exact (((finish_keepsUnwritten e).trans (restartHash_keepInner_keepsUnwritten _)).trans
    (absorbAll_keepsUnwritten _ _)).trans (finish_keepsUnwritten _)

/-- The registers after the outer hash (R244, R149). -/
theorem finish_hmacOuter_h : e.finish.hmacOuter.h =
    foldBlocks e.alg (hashState e.alg.iv) (packMessage e.alg e.outerMessage) := by
  rw [finish_hmacOuter_eq, finish_absorbAll_h _ _ (restartHash_pos _) (restartHash_mlen _), restartHash_h,
    restartHash_alg, keepInner_alg, finish_alg]

/-- SV after the outer hash: the registers before its last block (R25, R244). -/
theorem getAt_finish_hmacOuter_sv (i : Nat) : getAt e.finish.hmacOuter.sv i 0 = if i < e.alg.arity
    then getAt (foldBlocks e.alg (hashState e.alg.iv) (packMessage e.alg e.outerMessage).dropLast) i 0
    else getAt e.sv i 0 := by
  split
  next hi =>
    rw [finish_hmacOuter_eq, getAt_finish_absorbAll_sv _ (restartHash_pos _) (restartHash_mlen _), restartHash_h,
      restartHash_alg, keepInner_alg, finish_alg, if_pos hi]
  next hi =>
    obtain ⟨-, hsv, -⟩ := finish_hmacOuter_keepsUnwritten e
    exact hsv i (by omega)

/-- The block buffer after the outer hash holds its last block (R244). -/
theorem finish_hmacOuter_wAt_eq_getLast? :
    some ((List.range 16).map e.finish.hmacOuter.wAt) = (packMessage e.alg e.outerMessage).getLast? := by
  rw [finish_hmacOuter_eq, finish_absorbAll_wAt_eq_getLast? _ (restartHash_pos _) (restartHash_mlen _),
    restartHash_alg, keepInner_alg, finish_alg]

/-- The outer hash takes two blocks (R244). -/
theorem packMessage_outerMessage_length : (packMessage e.alg e.outerMessage).length = 2 := by
  have harity := arity_le e.alg
  rw [packMessage_length, outerMessage_length]
  omega

end outer

/-- Settles O24: FINAL in MSG is `endMessage`, in an HMAC call the outer hash of `outerMessage` with STATE at DONE. -/
theorem finalRunsTheOuterHashOfAnHmacCall : Obligations.FinalRunsTheOuterHashOfAnHmacCall := by
  intro s hmsg hmac
  have hinner : s.eng.finish.digestBytes = digestBytesOf s.eng.alg (foldBlocks s.eng.alg s.eng.h s.eng.tailBlocks) := by
    rw [Engine.digestBytes, finish_h, finish_alg]
  obtain ⟨-, -, hrest⟩ := finish_hmacOuter_keepsUnwritten s.eng
  refine ⟨s.mapEng Engine.endMessage, s.eng.finish.digestBytes, exec_final_of_msg hmsg, ⟨rfl, rfl⟩, hinner, ?_⟩
  rw [mapEng_eng, endMessage_of_hmac _ hmac]
  -- the fields of the outer hash's engine, out of the update of STATE
  dsimp only [wAt_with_state, sameRestOfW]
  exact ⟨rfl, by simp, by simp [hmac], by simp, by simp, by simp, hmacOuter_pos _, hmacOuter_j _,
    finish_hmacOuter_mlen _, fun i hi => getAt_finish_hmacOuter_idb _ hi, finish_hmacOuter_h _,
    packMessage_outerMessage_length _, fun i _ => getAt_finish_hmacOuter_sv _ i, finish_hmacOuter_wAt_eq_getLast? _,
    hrest⟩

end Sys2Proof.Machine

/-! Proofs of 41_preprocessor_host.md: hex digits, rendered and read back (R131 to R133, R138). -/

namespace Sys2Proof.Machine

/-- A character of `[0-9a-fA-F]` (R131). -/
def isHexChar (c : Nat) : Prop := (0x30 ≤ c ∧ c ≤ 0x39) ∨ (0x61 ≤ c ∧ c ≤ 0x66) ∨ (0x41 ≤ c ∧ c ≤ 0x46)

theorem exists_hexValue_iff (c : Nat) : (∃ x, hexValue c = some x) ↔ isHexChar c := by
  unfold hexValue isHexChar
  split_ifs <;> simp <;> omega

theorem hexValue_hexDigit {n : Nat} (hn : n < 16) : hexValue (hexDigit n) = some n := by
  interval_cases n <;> rfl

theorem hexDigit_lower {n : Nat} (hn : n < 16) :
    (0x30 ≤ hexDigit n ∧ hexDigit n ≤ 0x39) ∨ (0x61 ≤ hexDigit n ∧ hexDigit n ≤ 0x66) := by
  unfold hexDigit
  split <;> omega

theorem mem_hexOfByte {c : Nat} {b : Byte} (hc : c ∈ hexOfByte b) : ∃ n, n < 16 ∧ c = hexDigit n := by
  have hb := b.isLt
  obtain rfl | rfl : c = hexDigit (b.toNat / 16) ∨ c = hexDigit (b.toNat % 16) := by simpa [hexOfByte] using hc
  · exact ⟨_, by omega, rfl⟩
  · exact ⟨_, by omega, rfl⟩

theorem flatMap_hexOfByte_length (bs : List Byte) : (bs.flatMap hexOfByte).length = 2 * bs.length := by
  induction bs with
  | nil => rfl
  | cons b bs ih =>
    simp [ih, hexOfByte]
    omega

/-- Settles O42: `render_dout` for the spelling, two characters for each of the 4 Arity() digest bytes, and every character
a hex digit of a half byte. -/
theorem renderingSpellsTheDigest : Obligations.RenderingSpellsTheDigest := by
  constructor
  · intro e hdone
    refine ⟨render_dout hdone, ?_⟩
    rw [render_dout hdone, flatMap_hexOfByte_length, digestBytes_length]
    cases e.alg <;> rfl
  · intro ws c hc
    obtain ⟨w, -, hw⟩ := List.mem_flatMap.mp hc
    obtain ⟨b, -, hb⟩ := List.mem_flatMap.mp hw
    obtain ⟨n, hn, rfl⟩ := mem_hexOfByte hb
    exact hexDigit_lower hn

/-- Two hex digits, then text that decodes: one byte more (R131). -/
theorem hexBytes_cons_cons {c d x y : Nat} {t : Text} {bs : List Byte} (hc : hexValue c = some x) (hd : hexValue d = some y)
    (ht : hexBytes t = .ok bs) : hexBytes (c :: d :: t) = .ok (BitVec.ofNat 8 (16 * x + y) :: bs) := by
  rw [hexBytes, hc, hd, ht]

theorem hexBytes_of_error {t : Text} {r : DriverError} (h : hexBytes t = .error r) : r = .inputFormat := by
  fun_induction hexBytes t with
  | case1 => cases h
  | case2 => cases h; rfl
  | case3 => cases h
  | case4 => cases h; rfl

/-- Text of an even number of hex digits decodes (R131). -/
theorem exists_hexBytes {t : Text} (heven : t.length % 2 = 0) (hhex : ∀ c, c ∈ t → isHexChar c) :
    ∃ bs, hexBytes t = .ok bs := by
  induction t using List.twoStepInduction with
  | nil => exact ⟨[], rfl⟩
  | singleton c => simp at heven
  | cons_cons c d t ih _ =>
    obtain ⟨x, hx⟩ := (exists_hexValue_iff c).mpr (hhex c (by simp))
    obtain ⟨y, hy⟩ := (exists_hexValue_iff d).mpr (hhex d (by simp))
    obtain ⟨bs, hbs⟩ := ih (by simp at heven; omega) (fun e he => hhex e (by simp [he]))
    exact ⟨_, hexBytes_cons_cons hx hy hbs⟩

/-- The one induction on hex text that decodes: each two characters are hex digits and give their byte (R131). -/
theorem hexBytes_pairs {t : Text} {bs : List Byte} (h : hexBytes t = .ok bs) :
    2 * bs.length = t.length ∧ (∀ c, c ∈ t → isHexChar c) ∧
      ∀ k x y, t[2 * k]?.bind hexValue = some x → t[2 * k + 1]?.bind hexValue = some y →
        bs[k]? = some (BitVec.ofNat 8 (16 * x + y)) := by
  fun_induction hexBytes t generalizing bs with
  | case1 => cases h; simp
  | case2 => cases h
  | case4 => cases h
  | case3 c d t x y bs ht hy hx ih =>
    cases h
    obtain ⟨hlength, hhex, hpair⟩ := ih ht
    refine ⟨by simp; omega, ?_, ?_⟩
    · intro e he
      obtain rfl | rfl | he : e = c ∨ e = d ∨ e ∈ t := by simpa using he
      · exact (exists_hexValue_iff e).mp ⟨x, hx⟩
      · exact (exists_hexValue_iff e).mp ⟨y, hy⟩
      · exact hhex e he
    · intro k u v hu hv
      cases k with
      | zero =>
        obtain rfl : x = u := by simpa [hx] using hu
        obtain rfl : y = v := by simpa [hy] using hv
        rfl
      | succ k => exact hpair k u v hu hv

/-- A decoded byte spelled as two hex digits decodes to itself (R138). -/
theorem hexBytes_flatMap_hexOfByte (bs : List Byte) : hexBytes (bs.flatMap hexOfByte) = .ok bs := by
  induction bs with
  | nil => rfl
  | cons b bs ih =>
    have hb := b.isLt
    have hbyte : BitVec.ofNat 8 (16 * (b.toNat / 16) + b.toNat % 16) = b := by
      rw [Nat.div_add_mod, BitVec.ofNat_toNat, BitVec.setWidth_eq]
    have hcons := hexBytes_cons_cons (hexValue_hexDigit (n := b.toNat / 16) (by omega))
      (hexValue_hexDigit (n := b.toNat % 16) (by omega)) ih
    rwa [hbyte] at hcons

/-- Text with an odd count or with another character does not decode (R132). -/
theorem hexBytes_eq_inputFormat {t : Text} (h : t.length % 2 = 1 ∨ ∃ c, c ∈ t ∧ ¬ isHexChar c) :
    hexBytes t = .error .inputFormat := by
  cases hbytes : hexBytes t with
  | error r => rw [hexBytes_of_error hbytes]
  | ok bs =>
    obtain ⟨hlength, hhex, -⟩ := hexBytes_pairs hbytes
    obtain hodd | ⟨c, hc, hbad⟩ := h
    · omega
    · exact absurd (hhex c hc) hbad

/-- Input that does not decode is answered before any access (R132, R134). -/
theorem driverDigest_of_error {input : Text} {isHex : Bool} {r : DriverError} (h : toBytes input isHex = .error r) (a : Alg)
    (s : State) : driverDigest a input isHex s = (.error r, s) := by
  rw [driverDigest, h]

/-- Settles O47: hex text decodes where its digits do, pair by pair, and `driverDigest` passes a failure on. -/
theorem hexInputDecodesOrFails : Obligations.HexInputDecodesOrFails := by
  refine ⟨by decide, by decide, ?decodes, ?fails, hexBytes_flatMap_hexOfByte⟩
  case decodes =>
    intro t heven hhex
    obtain ⟨bs, hbs⟩ := exists_hexBytes heven hhex
    obtain ⟨hlength, -, hpair⟩ := hexBytes_pairs hbs
    exact ⟨bs, hbs, hlength, hpair⟩
  case fails =>
    intro t hbad
    have herror : toBytes t true = .error .inputFormat := hexBytes_eq_inputFormat hbad
    exact ⟨herror, driverDigest_of_error herror⟩

end Sys2Proof.Machine

/-! Proofs of 41_preprocessor_host.md: text as UTF-8 (R130). -/

namespace Sys2Proof.Machine

theorem toBytes_text (t : Text) : toBytes t false = textBytes t := rfl

/-- A code point with an encoding, then text with one (R130). -/
theorem textBytes_cons {c : Nat} {t : Text} {bs cs : List Byte} (hc : utf8Bytes c = some bs) (ht : textBytes t = .ok cs) :
    textBytes (c :: t) = .ok (bs ++ cs) := by
  rw [textBytes, hc, ht]

/-- Text that is encoded starts with a code point that is (R130). -/
theorem textBytes_cons_inv {c : Nat} {t : Text} {bs : List Byte} (h : textBytes (c :: t) = .ok bs) :
    ∃ xs ys, utf8Bytes c = some xs ∧ textBytes t = .ok ys ∧ bs = xs ++ ys := by
  rw [textBytes] at h
  split at h
  next xs ys hc ht => cases h; exact ⟨xs, ys, hc, ht, rfl⟩
  · cases h

theorem textBytes_of_error {t : Text} {r : DriverError} (h : textBytes t = .error r) : r = .notText := by
  fun_induction textBytes t with
  | case1 => cases h
  | case2 => cases h
  | case3 => cases h; rfl

theorem textBytes_singleton {c : Nat} {bs : List Byte} (hc : utf8Bytes c = some bs) : toBytes [c] false = .ok bs := by
  rw [toBytes_text, textBytes_cons hc rfl, List.append_nil]

theorem textBytes_append {t u : Text} {bs cs : List Byte} (ht : textBytes t = .ok bs) (hu : textBytes u = .ok cs) :
    textBytes (t ++ u) = .ok (bs ++ cs) := by
  induction t generalizing bs with
  | nil => cases ht; exact hu
  | cons c t ih =>
    obtain ⟨xs, ys, hc, hys, rfl⟩ := textBytes_cons_inv ht
    rw [List.cons_append, textBytes_cons hc (ih hys), List.append_assoc]

/-- ASCII text is encoded as its codes (R130). -/
theorem textBytes_ascii {t : Text} (h : ∀ c, c ∈ t → c ≤ 0x7f) : textBytes t = .ok (t.map (BitVec.ofNat 8)) := by
  induction t with
  | nil => rfl
  | cons c t ih =>
    have hc : utf8Bytes c = some [BitVec.ofNat 8 c] := if_pos (Nat.lt_succ_of_le (h c (by simp)))
    rw [textBytes_cons hc (ih fun d hd => h d (by simp [hd]))]
    rfl

/-- A code point from 80 to 7FF has two bytes (R130). -/
theorem utf8Bytes_two {c : Nat} (hlow : 0x80 ≤ c) (hhigh : c ≤ 0x7ff) :
    utf8Bytes c = some [BitVec.ofNat 8 (0xc0 + c / 64), BitVec.ofNat 8 (0x80 + c % 64)] := by
  rw [utf8Bytes, if_neg (by omega), if_pos (by omega)]

/-- A code point from 800 to FFFF that is no surrogate has three bytes (R130). -/
theorem utf8Bytes_three {c : Nat} (hlow : 0x800 ≤ c) (hhigh : c ≤ 0xffff) (hscalar : ¬ (0xd800 ≤ c ∧ c ≤ 0xdfff)) :
    utf8Bytes c = some [BitVec.ofNat 8 (0xe0 + c / 4096), BitVec.ofNat 8 (0x80 + c / 64 % 64),
      BitVec.ofNat 8 (0x80 + c % 64)] := by
  rw [utf8Bytes, if_neg (by omega), if_neg (by omega), if_neg (by omega), if_pos (by omega)]

/-- A code point from 10000 to 10FFFF has four bytes (R130). -/
theorem utf8Bytes_four {c : Nat} (hlow : 0x10000 ≤ c) (hhigh : c ≤ 0x10ffff) :
    utf8Bytes c = some [BitVec.ofNat 8 (0xf0 + c / 262144), BitVec.ofNat 8 (0x80 + c / 4096 % 64),
      BitVec.ofNat 8 (0x80 + c / 64 % 64), BitVec.ofNat 8 (0x80 + c % 64)] := by
  rw [utf8Bytes, if_neg (by omega), if_neg (by omega), if_neg (by omega), if_neg (by omega), if_pos (by omega)]

/-- A surrogate or a number above 10FFFF has no encoding (log entry 8). -/
theorem utf8Bytes_none {c : Nat} (h : (0xd800 ≤ c ∧ c ≤ 0xdfff) ∨ 0x110000 ≤ c) : utf8Bytes c = none := by
  obtain hsurrogate | hlarge := h
  · rw [utf8Bytes, if_neg (by omega), if_neg (by omega), if_pos (by omega)]
  · rw [utf8Bytes, if_neg (by omega), if_neg (by omega), if_neg (by omega), if_neg (by omega), if_neg (by omega)]

/-- A code point that has an encoding has at least one byte. -/
theorem utf8Bytes_ne_nil (c : Nat) : utf8Bytes c ≠ some [] := by
  unfold utf8Bytes
  split_ifs <;> simp

/-- Every code point of text that is encoded has an encoding. -/
theorem utf8Bytes_of_mem {t : Text} {bs : List Byte} (ht : textBytes t = .ok bs) {c : Nat} (hc : c ∈ t) :
    ∃ xs, utf8Bytes c = some xs := by
  induction t generalizing bs with
  | nil => cases hc
  | cons d t ih =>
    obtain ⟨xs, ys, hd, hys, -⟩ := textBytes_cons_inv ht
    obtain rfl | hc := List.mem_cons.mp hc
    · exact ⟨xs, hd⟩
    · exact ih hys hc

/-- Text that holds a code point without an encoding has none (log entry 8). -/
theorem textBytes_eq_notText {t : Text} {c : Nat} (hc : c ∈ t) (hnone : utf8Bytes c = none) :
    textBytes t = .error .notText := by
  cases ht : textBytes t with
  | error r => rw [textBytes_of_error ht]
  | ok bs =>
    obtain ⟨xs, hsome⟩ := utf8Bytes_of_mem ht hc
    cases hnone.symm.trans hsome

/-- Settles O48: encoding goes code point by code point, and the fields of the bytes of each length are checked by
arithmetic. -/
theorem textInputIsUtf8 : Obligations.TextInputIsUtf8 := by
  refine ⟨fun t h => textBytes_ascii h, fun t u bs cs ht hu => textBytes_append ht hu, ?two, ?three, ?four,
    fun t c hc hbad => textBytes_eq_notText hc (utf8Bytes_none hbad)⟩
  case two =>
    intro c hlow hhigh
    refine ⟨_, _, textBytes_singleton (utf8Bytes_two hlow hhigh), ?_⟩
    simp only [BitVec.toNat_ofNat]
    omega
  case three =>
    intro c hlow hhigh hscalar
    refine ⟨_, _, _, textBytes_singleton (utf8Bytes_three hlow hhigh hscalar), ?_⟩
    simp only [BitVec.toNat_ofNat]
    omega
  case four =>
    intro c hlow hhigh
    refine ⟨_, _, _, _, textBytes_singleton (utf8Bytes_four hlow hhigh), ?_⟩
    simp only [BitVec.toNat_ofNat]
    omega

end Sys2Proof.Machine

/-! Proofs of 41_preprocessor_host.md: a call and its end, as the driver runs them (R134, R137, R269). -/

namespace Sys2Proof.Machine

/-- The driver's error of each code (R269); ERR 0 in ERROR is an internal fault (log entry 14). -/
def Err.driverError : Err → DriverError
  | .key => .key
  | .alg => .unsupportedAlgorithm
  | .size => .size
  | .none => .internal
  | .cmd => .internal
  | .seq => .internal

theorem errorOfStatus_status (e : Engine) : errorOfStatus e.status = e.err.driverError := by
  obtain ⟨-, -, -, -, herr, -⟩ := status_fields e
  rw [errorOfStatus, herr]
  cases e.err <;> rfl

theorem perform_readStatus (s : State) :
    perform (.read 0x04 4) s = .next { s with replies := s.replies ++ [s.eng.status] } := by
  rw [perform_read s 0x04 4 (by decide), readRegister_status]

/-- In ERROR the end of a call maps ERR and clears the engine (R137). -/
theorem endCall_of_error (a : Alg) {s : State} (herror : s.eng.state = .error) :
    endCall a s = (.error s.eng.err.driverError,
      { s with eng := Engine.reset, replies := s.replies ++ [s.eng.status] }) := by
  simp only [endCall, perform_readStatus, List.getLastD_concat, stateOfStatus_status, herror, if_true, reportError,
    perform_clear, errorOfStatus_status]

/-- Settles O51: the state `endCall_of_error` gives. -/
theorem errorsReachTheHostAndAreCleared : Obligations.ErrorsReachTheHostAndAreCleared :=
  fun a _ herror => ⟨_, endCall_of_error a herror, rfl, rfl⟩

/-- In DONE the digest is read and spelled, and the engine left alone (R133). -/
theorem readDigest_of_done {s : State} (hdone : s.eng.state = .done) :
    readDigest s.eng.alg s = (.ok (s.eng.digestBytes.flatMap hexOfByte),
      { s with replies := s.replies ++ (List.range s.eng.alg.arity).map s.eng.dout }) := by
  simp only [readDigest, performAll_doutReads (arity_le _), List.drop_left, render_dout hdone]

/-- A call that ends in DONE returns its digest, and leaves the engine in DONE (R137). -/
theorem endCall_of_done {s : State} (hdone : s.eng.state = .done) :
    ∃ t, endCall s.eng.alg s = (.ok (s.eng.digestBytes.flatMap hexOfByte), t) ∧ t.eng.state = .done := by
  have hcode : Ctl.code .done ≠ Ctl.code .error := by decide
  simp only [endCall, perform_readStatus, List.getLastD_concat, stateOfStatus_status, hdone, if_neg hcode, if_true]
  exact ⟨_, readDigest_of_done (s := { s with replies := s.replies ++ [s.eng.status] }) hdone, hdone⟩

/-- The driver begins a call outside ERROR (R134, R292). -/
theorem clearIfError_leaves_error (s : State) : ∃ t, clearIfError s = .next t ∧ t.eng.state ≠ .error := by
  refine ⟨_, clearIfError_eq s, ?_⟩
  dsimp only
  split
  · decide
  · assumption

/-- From any state a call whose accesses end with `v` in the registers in DONE returns the hex spelling of `v`. -/
theorem runCall_of_done {a : Alg} {as : List Access} {f : Engine → Engine} {v : List Byte}
    (hrun : ∀ {t : State}, t.eng.state ≠ .error → performAll as t = .next (t.mapEng f))
    (hdone : ∀ e, (f e).state = .done) (halg : ∀ e, (f e).alg = a) (hv : ∀ e, (f e).digestBytes = v) (s : State) :
    ∃ t, runCall a as s = (.ok (v.flatMap hexOfByte), t) ∧ t.eng.state = .done := by
  obtain ⟨t, ht, hok⟩ := clearIfError_leaves_error s
  obtain ⟨u, hu, hudone⟩ := endCall_of_done (s := t.mapEng f) (hdone t.eng)
  rw [mapEng_eng, halg, hv] at hu
  exact ⟨u, by simp only [runCall, ht, hrun hok, hu], hudone⟩

theorem afterPlainCall_alg (a : Alg) (m : List Byte) (e : Engine) : (e.afterPlainCall a m).alg = a := by
  simp [Engine.afterPlainCall]

theorem afterHmacCall_alg (a : Alg) (k m : List Byte) (e : Engine) : (e.afterHmacCall a k m).alg = a := by
  simp [Engine.afterHmacCall]

theorem runCall_digestAccesses (a : Alg) (m : List Byte) (s : State) :
    ∃ t, runCall a (digestAccesses a m) s = (.ok ((digest a m).flatMap hexOfByte), t) ∧ t.eng.state = .done :=
  runCall_of_done (performAll_digestAccesses a m) (afterPlainCall_state a m) (afterPlainCall_alg a m)
    (afterPlainCall_digestBytes a m) s

theorem runCall_hmacAccesses (a : Alg) {k : List Byte} (m : List Byte) (hk : k ≠ []) (s : State) :
    ∃ t v, Machine.hmac a k m = some v ∧ runCall a (hmacAccesses a k m) s = (.ok (v.flatMap hexOfByte), t) ∧
      t.eng.state = .done := by
  obtain ⟨t, ht, hdone⟩ := runCall_of_done (performAll_hmacAccesses a m hk) (afterHmacCall_state a k m)
    (afterHmacCall_alg a k m) (afterHmacCall_digestBytes a k m) s
  exact ⟨t, _, if_neg hk, ht, hdone⟩

/-- Settles O49: input that decodes is hashed by a call of its bytes. -/
theorem driverDigestReturnsTheDigest : Obligations.DriverDigestReturnsTheDigest := by
  intro a input isHex m s hm
  rw [driverDigest, hm]
  exact runCall_digestAccesses a m s

end Sys2Proof.Machine

/-! Proofs of 41_preprocessor_host.md: the checks of the driver's `hmac` and its call (R135, R136, R139). -/

namespace Sys2Proof.Machine

/-- The name of each algorithm (R136). -/
def Alg.name : Alg → Text
  | .md4 => [0x4d, 0x44, 0x34]
  | .md5 => [0x4d, 0x44, 0x35]
  | .sha1 => [0x53, 0x48, 0x41, 0x2d, 0x31]
  | .sha256 => [0x53, 0x48, 0x41, 0x2d, 0x32, 0x35, 0x36]

theorem algCode_eq_ok_iff (name : Text) (a : Alg) : algCode name = .ok a ↔ name = a.name := by
  constructor
  · intro h
    unfold algCode at h
    split_ifs at h <;> cases h <;> assumption
  · rintro rfl
    cases a <;> rfl

/-- The lookup fails in one way only (R136). -/
theorem algCode_of_error {name : Text} {r : DriverError} (h : algCode name = .error r) : r = .unsupportedAlgorithm := by
  unfold algCode at h
  split_ifs at h
  cases h
  rfl

theorem exists_error_of_ne_ok {α : Type} {x : Except DriverError α} (h : ∀ a, x ≠ .ok a) : ∃ r, x = .error r := by
  cases x with
  | ok a => exact absurd rfl (h a)
  | error r => exact ⟨r, rfl⟩

theorem algCode_of_unknown {name : Text} (h : ∀ a, algCode name ≠ .ok a) : algCode name = .error .unsupportedAlgorithm := by
  obtain ⟨r, hr⟩ := exists_error_of_ne_ok h
  rw [hr, algCode_of_error hr]

/-- Input fails to decode in one way for each kind of input (R132, log entry 8). -/
theorem toBytes_of_error {t : Text} {isHex : Bool} {r : DriverError} (h : toBytes t isHex = .error r) :
    r = if isHex then .inputFormat else .notText := by
  cases isHex with
  | true => exact hexBytes_of_error h
  | false => exact textBytes_of_error h

/-- The empty input decodes to no bytes, as text and as hex (R130, R131). -/
theorem toBytes_nil (isHex : Bool) : toBytes [] isHex = .ok [] := by cases isHex <;> rfl

/-- Input that decodes to no bytes is empty (log entry 9). -/
theorem toBytes_ne_nil {t : Text} {isHex : Bool} {bs : List Byte} (h : toBytes t isHex = .ok bs) (ht : t ≠ []) : bs ≠ [] := by
  rintro rfl
  cases isHex with
  | true =>
    obtain ⟨hlength, -⟩ := hexBytes_pairs h
    exact ht (List.length_eq_zero_iff.mp hlength.symm)
  | false =>
    cases t with
    | nil => exact ht rfl
    | cons c t =>
      obtain ⟨xs, ys, hc, -, hnil⟩ := textBytes_cons_inv h
      obtain ⟨rfl, -⟩ := List.append_eq_nil_iff.mp hnil.symm
      exact utf8Bytes_ne_nil c hc

theorem mem_of_legal {order : HostErrOrder} (hlegal : order.legal = true) (c : HostCheck) : c ∈ order := by
  simp only [HostErrOrder.legal, Bool.and_eq_true, List.contains_iff_mem] at hlegal
  obtain ⟨⟨⟨⟨-, halgorithm⟩, hformat⟩, hpresent⟩, hmessage⟩ := hlegal
  cases c <;> assumption

section checks

variable {input name key : Text} {hexInput hexKey : Bool} {r : DriverError}

theorem hostCheck_algorithm_of_ok {a : Alg} (h : algCode name = .ok a) :
    hostCheck .algorithm input name key hexInput hexKey = none := by rw [hostCheck, h]

theorem hostCheck_keyFormat_of_ok {k : List Byte} (h : toBytes key hexKey = .ok k) :
    hostCheck .keyFormat input name key hexInput hexKey = none := by rw [hostCheck, h]

theorem hostCheck_keyPresent_of_ne_nil (h : key ≠ []) : hostCheck .keyPresent input name key hexInput hexKey = none :=
  if_neg h

theorem hostCheck_messageFormat_of_ok {m : List Byte} (h : toBytes input hexInput = .ok m) :
    hostCheck .messageFormat input name key hexInput hexKey = none := by rw [hostCheck, h]

theorem hostCheck_algorithm_eq_some_iff :
    hostCheck .algorithm input name key hexInput hexKey = some r ↔ algCode name = .error r := by
  unfold hostCheck
  cases algCode name <;> simp

theorem hostCheck_keyFormat_eq_some_iff :
    hostCheck .keyFormat input name key hexInput hexKey = some r ↔ toBytes key hexKey = .error r := by
  unfold hostCheck
  cases toBytes key hexKey <;> simp

theorem hostCheck_keyPresent_eq_some_iff :
    hostCheck .keyPresent input name key hexInput hexKey = some r ↔ key = [] ∧ r = .key := by
  simp [hostCheck, eq_comm]

theorem hostCheck_messageFormat_eq_some_iff :
    hostCheck .messageFormat input name key hexInput hexKey = some r ↔ toBytes input hexInput = .error r := by
  unfold hostCheck
  cases toBytes input hexInput <;> simp

variable {order : HostErrOrder} {c : HostCheck}

/-- Under a legal order no check is left out (R139). -/
theorem firstFailure_eq_none_iff (hlegal : order.legal = true) :
    firstFailure order input name key hexInput hexKey = none ↔ ∀ c, hostCheck c input name key hexInput hexKey = none := by
  rw [firstFailure, List.findSome?_eq_none_iff]
  exact ⟨fun h c => h c (mem_of_legal hlegal c), fun h c _ => h c⟩

/-- Under a legal order a check that fails makes one of the failing checks the first (R139). -/
theorem exists_firstFailure (hlegal : order.legal = true) (hc : hostCheck c input name key hexInput hexKey = some r) :
    ∃ d q, hostCheck d input name key hexInput hexKey = some q ∧
      firstFailure order input name key hexInput hexKey = some q := by
  cases hfirst : firstFailure order input name key hexInput hexKey with
  | none =>
    rw [(firstFailure_eq_none_iff hlegal).mp hfirst c] at hc
    cases hc
  | some q =>
    obtain ⟨d, -, hd⟩ := List.exists_of_findSome?_eq_some hfirst
    exact ⟨d, q, hd, rfl⟩

/-- Under a legal order the only check that fails is the first that does (R139). -/
theorem firstFailure_of_only (hlegal : order.legal = true) (hc : hostCheck c input name key hexInput hexKey = some r)
    (hothers : ∀ d, d ≠ c → hostCheck d input name key hexInput hexKey = none) :
    firstFailure order input name key hexInput hexKey = some r := by
  obtain ⟨d, q, hd, hfirst⟩ := exists_firstFailure hlegal hc
  have hdc : d = c := by
    by_contra hne
    rw [hothers d hne] at hd
    cases hd
  rw [hfirst, ← hd, hdc, hc]

theorem firstFailure_cons_of_some (hc : hostCheck c input name key hexInput hexKey = some r) (cs : List HostCheck) :
    firstFailure (c :: cs) input name key hexInput hexKey = some r := by
  rw [firstFailure, List.findSome?_cons, hc]

theorem firstFailure_cons_of_none (hc : hostCheck c input name key hexInput hexKey = none) (cs : List HostCheck) :
    firstFailure (c :: cs) input name key hexInput hexKey = firstFailure cs input name key hexInput hexKey := by
  rw [firstFailure, List.findSome?_cons, hc]
  rfl

end checks

/-- Settles O53: either no check fails, or one does and it is the first failure under both orders. -/
theorem hostErrorOrderIsInvisibleForOneFault : Obligations.HostErrorOrderIsInvisibleForOneFault := by
  intro o₁ o₂ input name key hexInput hexKey hlegal₁ hlegal₂ hone
  by_cases hpass : ∀ c, hostCheck c input name key hexInput hexKey = none
  · rw [(firstFailure_eq_none_iff hlegal₁).mpr hpass, (firstFailure_eq_none_iff hlegal₂).mpr hpass]
  · obtain ⟨c, hc⟩ := not_forall.mp hpass
    obtain ⟨r, hr⟩ := Option.ne_none_iff_exists'.mp hc
    have hothers : ∀ d, d ≠ c → hostCheck d input name key hexInput hexKey = none := by
      intro d hd
      by_contra hfail
      exact hd (hone d c (Option.isSome_iff_ne_none.mpr hfail) (Option.isSome_iff_ne_none.mpr hc))
    rw [firstFailure_of_only hlegal₁ hr hothers, firstFailure_of_only hlegal₂ hr hothers]

section hmac

variable {order : HostErrOrder} {input name : Text} {key : Option Text} {hexInput hexKey : Bool} {r : DriverError}

/-- A check that fails is answered before any access (R135). -/
theorem driverHmac_of_failure (h : firstFailure order input name (key.getD []) hexInput hexKey = some r) (s : State) :
    driverHmac order input name key hexInput hexKey s = (.error r, s) := by
  rw [driverHmac, h]

/-- One fault alone is returned, whatever the order (R139). -/
theorem driverHmac_of_only {c : HostCheck} (hlegal : order.legal = true)
    (hc : hostCheck c input name (key.getD []) hexInput hexKey = some r)
    (hothers : ∀ d, d ≠ c → hostCheck d input name (key.getD []) hexInput hexKey = none) (s : State) :
    driverHmac order input name key hexInput hexKey s = (.error r, s) :=
  driverHmac_of_failure (firstFailure_of_only hlegal hc hothers) s

/-- Inputs that pass the checks are given to a call (R135). -/
theorem driverHmac_of_ok {a : Alg} {k m : List Byte} (hlegal : order.legal = true) (hname : algCode name = .ok a)
    (hkey : toBytes (key.getD []) hexKey = .ok k) (hpresent : key.getD [] ≠ []) (hinput : toBytes input hexInput = .ok m)
    (s : State) : driverHmac order input name key hexInput hexKey s = runCall a (hmacAccesses a k m) s := by
  have hpass : ∀ c, hostCheck c input name (key.getD []) hexInput hexKey = none
    | .algorithm => hostCheck_algorithm_of_ok hname
    | .keyFormat => hostCheck_keyFormat_of_ok hkey
    | .keyPresent => hostCheck_keyPresent_of_ne_nil hpresent
    | .messageFormat => hostCheck_messageFormat_of_ok hinput
  rw [driverHmac, (firstFailure_eq_none_iff hlegal).mpr hpass, hname, hkey, hinput]

theorem driverHmac_of_unknown_name {k m : List Byte} (hlegal : order.legal = true) (hname : ∀ a, algCode name ≠ .ok a)
    (hkey : toBytes (key.getD []) hexKey = .ok k) (hpresent : key.getD [] ≠ []) (hinput : toBytes input hexInput = .ok m)
    (s : State) : driverHmac order input name key hexInput hexKey s = (.error .unsupportedAlgorithm, s) :=
  driverHmac_of_only hlegal (hostCheck_algorithm_eq_some_iff.mpr (algCode_of_unknown hname)) (fun
    | .algorithm, hne => absurd rfl hne
    | .keyFormat, _ => hostCheck_keyFormat_of_ok hkey
    | .keyPresent, _ => hostCheck_keyPresent_of_ne_nil hpresent
    | .messageFormat, _ => hostCheck_messageFormat_of_ok hinput) s

theorem driverHmac_of_empty_key {a : Alg} {m : List Byte} (hlegal : order.legal = true) (hname : algCode name = .ok a)
    (hempty : key.getD [] = []) (hinput : toBytes input hexInput = .ok m) (s : State) :
    driverHmac order input name key hexInput hexKey s = (.error .key, s) := by
  have hkey : toBytes (key.getD []) hexKey = .ok [] := by rw [hempty, toBytes_nil]
  exact driverHmac_of_only hlegal (hostCheck_keyPresent_eq_some_iff.mpr ⟨hempty, rfl⟩) (fun
    | .algorithm, _ => hostCheck_algorithm_of_ok hname
    | .keyFormat, _ => hostCheck_keyFormat_of_ok hkey
    | .keyPresent, hne => absurd rfl hne
    | .messageFormat, _ => hostCheck_messageFormat_of_ok hinput) s

theorem driverHmac_of_bad_key {a : Alg} {m : List Byte} (hlegal : order.legal = true) (hname : algCode name = .ok a)
    (hkey : toBytes (key.getD []) hexKey = .error r) (hinput : toBytes input hexInput = .ok m) (s : State) :
    driverHmac order input name key hexInput hexKey s = (.error r, s) := by
  have hpresent : key.getD [] ≠ [] := by
    intro hempty
    rw [hempty, toBytes_nil] at hkey
    cases hkey
  exact driverHmac_of_only hlegal (hostCheck_keyFormat_eq_some_iff.mpr hkey) (fun
    | .algorithm, _ => hostCheck_algorithm_of_ok hname
    | .keyFormat, hne => absurd rfl hne
    | .keyPresent, _ => hostCheck_keyPresent_of_ne_nil hpresent
    | .messageFormat, _ => hostCheck_messageFormat_of_ok hinput) s

theorem driverHmac_of_bad_message {a : Alg} {k : List Byte} (hlegal : order.legal = true) (hname : algCode name = .ok a)
    (hkey : toBytes (key.getD []) hexKey = .ok k) (hpresent : key.getD [] ≠ []) (hinput : toBytes input hexInput = .error r)
    (s : State) : driverHmac order input name key hexInput hexKey s = (.error r, s) :=
  driverHmac_of_only hlegal (hostCheck_messageFormat_eq_some_iff.mpr hinput) (fun
    | .algorithm, _ => hostCheck_algorithm_of_ok hname
    | .keyFormat, _ => hostCheck_keyFormat_of_ok hkey
    | .keyPresent, _ => hostCheck_keyPresent_of_ne_nil hpresent
    | .messageFormat, hne => absurd rfl hne) s

/-- Of the four faults one at least makes a check fail (R135, R136). -/
theorem exists_failing_check {key : Text} (h : (∀ a, algCode name ≠ .ok a) ∨ key = [] ∨ (∀ k, toBytes key hexKey ≠ .ok k) ∨
    ∀ m, toBytes input hexInput ≠ .ok m) : ∃ c r, hostCheck c input name key hexInput hexKey = some r := by
  obtain hname | hempty | hkey | hinput := h
  · exact ⟨.algorithm, _, hostCheck_algorithm_eq_some_iff.mpr (algCode_of_unknown hname)⟩
  · exact ⟨.keyPresent, _, hostCheck_keyPresent_eq_some_iff.mpr ⟨hempty, rfl⟩⟩
  · obtain ⟨r, hr⟩ := exists_error_of_ne_ok hkey
    exact ⟨.keyFormat, r, hostCheck_keyFormat_eq_some_iff.mpr hr⟩
  · obtain ⟨r, hr⟩ := exists_error_of_ne_ok hinput
    exact ⟨.messageFormat, r, hostCheck_messageFormat_eq_some_iff.mpr hr⟩

/-- The fault a failing check stands for (R135). -/
theorem fault_of_hostCheck {c : HostCheck} {key : Text} (h : hostCheck c input name key hexInput hexKey = some r) :
    (r = .unsupportedAlgorithm ∧ ∀ a, algCode name ≠ .ok a) ∨ (r = .key ∧ key = []) ∨
      toBytes key hexKey = .error r ∨ toBytes input hexInput = .error r := by
  cases c with
  | algorithm =>
    have hr := hostCheck_algorithm_eq_some_iff.mp h
    exact .inl ⟨algCode_of_error hr, fun a ha => by cases ha.symm.trans hr⟩
  | keyFormat => exact .inr (.inr (.inl (hostCheck_keyFormat_eq_some_iff.mp h)))
  | keyPresent => exact .inr (.inl (hostCheck_keyPresent_eq_some_iff.mp h).symm)
  | messageFormat => exact .inr (.inr (.inr (hostCheck_messageFormat_eq_some_iff.mp h)))

end hmac

/-- Settles O50: the four names, the call of inputs that pass the checks, each fault alone, several faults in any legal order
(the first failing check's), and several in the order of R135. -/
theorem driverHmacReturnsTheHmac : Obligations.DriverHmacReturnsTheHmac := by
  refine ⟨algCode_eq_ok_iff, fun _ => algCode_of_unknown, ?result, ?unknownName, ?emptyKey, ?badKey, ?badMessage, ?faults, ?ofR135⟩
  case result =>
    intro order input name key hexInput hexKey a k m s hlegal hname hkey hpresent hinput
    rw [driverHmac_of_ok (key := some key) hlegal hname hkey hpresent hinput]
    exact runCall_hmacAccesses a m (toBytes_ne_nil hkey hpresent) s
  case unknownName =>
    intro order input name key hexInput hexKey k m s hlegal hname hkey hpresent hinput
    exact driverHmac_of_unknown_name (key := some key) hlegal hname hkey hpresent hinput s
  case emptyKey =>
    intro order input name hexInput hexKey a m s hlegal hname hinput
    exact ⟨driverHmac_of_empty_key hlegal hname rfl hinput s, driverHmac_of_empty_key hlegal hname rfl hinput s⟩
  case badKey =>
    intro order input name key hexInput a m s hlegal hname hkey hinput
    obtain ⟨r, hr⟩ := exists_error_of_ne_ok hkey
    rw [driverHmac_of_bad_key (key := some key) hlegal hname hr hinput, hexBytes_of_error hr]
  case badMessage =>
    intro order input name key hexKey a k s hlegal hname hkey hpresent hinput
    obtain ⟨r, hr⟩ := exists_error_of_ne_ok hinput
    rw [driverHmac_of_bad_message (key := some key) hlegal hname hkey hpresent hr, hexBytes_of_error hr]
  case faults =>
    intro order input name key hexInput hexKey s hlegal hfault
    obtain ⟨c, _, hc⟩ := exists_failing_check hfault
    obtain ⟨d, r, hd, hfirst⟩ := exists_firstFailure hlegal hc
    exact ⟨r, driverHmac_of_failure hfirst s, fault_of_hostCheck hd⟩
  case ofR135 =>
    intro input name key hexInput hexKey s
    refine ⟨fun hname => driverHmac_of_failure ?_ s, fun a r hname hkey => ⟨driverHmac_of_failure ?_ s, toBytes_of_error hkey⟩,
      fun a hname hempty => driverHmac_of_failure ?_ s⟩
    · exact firstFailure_cons_of_some (hostCheck_algorithm_eq_some_iff.mpr (algCode_of_unknown hname)) _
    · exact (firstFailure_cons_of_none (hostCheck_algorithm_of_ok hname) _).trans
        (firstFailure_cons_of_some (hostCheck_keyFormat_eq_some_iff.mpr hkey) _)
    · have hkey : toBytes (key.getD []) hexKey = .ok [] := by rw [hempty, toBytes_nil]
      exact (firstFailure_cons_of_none (hostCheck_algorithm_of_ok hname) _).trans
        ((firstFailure_cons_of_none (hostCheck_keyFormat_of_ok hkey) _).trans
          (firstFailure_cons_of_some (hostCheck_keyPresent_eq_some_iff.mpr ⟨hempty, rfl⟩) _))

end Sys2Proof.Machine

/-! Proofs of 42_word_packer.md: the packer's operations and the packed message (R141, R147 to R151). -/

namespace Sys2Proof.Machine

/-- Settles O25: the byte lanes and the words of W after PutByte; a PutByte writes W alone. -/
theorem putByteWritesOneLane : Obligations.PutByteWritesOneLane := by
  intro e p q b
  refine ⟨?lane, fun i hi => ?otherWord, rfl⟩
  case lane => simp only [bufferByte_putByte, BitVec.toNat_inj]
  case otherWord => rw [putByte_wAt, if_neg hi]

/-- Settles O28: absorbing leaves the full blocks compressed and the open bytes buffered, and Finish() compresses the rest. -/
theorem packerAgreesWithPackedMessage : Obligations.PackerAgreesWithPackedMessage := finish_absorbAll_h

/-- Blocks cut from words enough for all of them have 16 words each (R148). -/
theorem length_of_mem_cutBlocks {n : Nat} {ws x : List Word} (hws : 16 * n ≤ ws.length) (hx : x ∈ cutBlocks n ws) :
    x.length = 16 := by
  induction n generalizing ws with
  | zero => exact absurd hx List.not_mem_nil
  | succ n ih =>
    rw [cutBlocks, List.mem_cons] at hx
    obtain rfl | hx := hx
    · rw [List.length_take]
      omega
    · exact ih (by rw [List.length_drop]; omega) hx

theorem length_of_mem_packMessage {a : Alg} {m : List Byte} {x : List Word} (hx : x ∈ packMessage a m) : x.length = 16 :=
  length_of_mem_cutBlocks (Nat.mul_div_le _ _) hx

/-- The words of the last packed block before the length (R148). -/
def lastBlockWords (a : Alg) (m : List Byte) : List Word := packWords a.little (openBytes (padMessage m))

theorem lastBlockWords_length (a : Alg) (m : List Byte) : (lastBlockWords a m).length = 14 := by
  rw [lastBlockWords, packWords_length, openBytes_length, padMessage_length]
  omega

/-- The last packed block ends in the two length words (R145, R148). -/
theorem packMessage_getLast? (a : Alg) (m : List Byte) : (packMessage a m).getLast? = some (lastBlockWords a m ++
    [(lengthWords a.little (messageBits m)).1, (lengthWords a.little (messageBits m)).2]) := by
  rw [packMessage_eq, List.getLast?_concat, lastBlockWords]

theorem messageBits_toNat (m : List Byte) : (messageBits m).toNat = 8 * m.length % 2 ^ 64 := BitVec.toNat_ofNat _ _

/-- A 64-bit number is its high word and its low word (R145). -/
theorem toNat_high_low (n : BitVec 64) :
    (n.extractLsb' 32 32).toNat * 2 ^ 32 + (n.extractLsb' 0 32).toNat = n.toNat := by
  rw [BitVec.extractLsb'_toNat, BitVec.extractLsb'_toNat, Nat.shiftRight_eq_div_pow, Nat.shiftRight_zero]
  omega

/-- Settles O29: the blocks are cut from whole blocks of words, and the last one ends in the two length words. -/
theorem packedBlocksHoldTheLengthLast : Obligations.PackedBlocksHoldTheLengthLast := by
  intro a m
  have hlength := lastBlockWords_length a m
  refine ⟨packMessage_length a m, fun x => length_of_mem_packMessage, _, packMessage_getLast? a m, fun ha => ?_,
    fun ha => ?_⟩
  -- words 14 and 15 stand behind the 14 words before the length; only which of them is the high one differs
  all_goals
    rw [List.getD_append_right _ _ _ _ hlength.le, List.getD_append_right _ _ _ _ (by omega), hlength, ha,
      ← messageBits_toNat]
    exact toNat_high_low (messageBits m)

section compress

variable (e : Engine)

/-- A compression leaves the registers its algorithm does not use alone (R22). -/
theorem compress_hAt_of_arity_le {i : Nat} (hi : e.alg.arity ≤ i) : e.compress.hAt i = e.hAt i := by
  rw [Engine.hAt, compress_h, getAt_blockFn_of_arity_le _ _ _ _ hi, Engine.hAt]

/-- SV after a compression: the registers before it, and the rest of SV as it was (R25). -/
theorem getAt_compress_sv (i : Nat) :
    getAt e.compress.sv i 0 = if i < e.alg.arity then e.hAt i else getAt e.sv i 0 := by
  rw [compress_sv, getAt_saveFirst _ _ _ _ (arity_le _), Engine.hAt]

/-- A compression touches no control field and no HMAC register (R147). -/
theorem sameControlAndKey_compress : sameControlAndKey e e.compress :=
  ⟨compress_state e, compress_err e, compress_hmac e, compress_alg e, compress_kb e, compress_kcnt e, compress_idb e⟩

end compress

/-- Settles O40: each register after a compression, one lemma for each. -/
theorem compressReadsAndWrites : Obligations.CompressReadsAndWrites := fun e =>
  ⟨compress_h_of_block e, fun _ => compress_hAt_of_arity_le e, fun i _ => getAt_compress_sv e i, compress_j e,
    fun _ => compress_wAt e, compress_w e, compress_sameRestOfW e, sameControlAndKey_compress e, compress_pos e,
    compress_mlen e⟩

end Sys2Proof.Machine

/-! Word arithmetic (R11): the model's rotations are those of the word type. -/

namespace Sys2Proof.Machine

theorem rotl_eq_rotateLeft (x : Word) {n : Nat} (h : n < 32) : rotl x n = x.rotateLeft n := by
  rw [BitVec.rotateLeft_eq_rotateLeftAux_of_lt h, BitVec.rotateLeftAux, rotl]

theorem rotr_eq_rotateRight (x : Word) {n : Nat} (h : n < 32) : rotr x n = x.rotateRight n := by
  rw [BitVec.rotateRight_eq_rotateRightAux_of_lt h, BitVec.rotateRightAux, rotr]

/-- Rotating left by the rest of the width is rotating right (R208). -/
theorem rotl_sub_eq_rotr (x : Word) {n : Nat} (h : n ≤ 32) : rotl x (32 - n) = rotr x n := by
  rw [rotl, rotr, Nat.sub_sub_self h, BitVec.or_comm]

end Sys2Proof.Machine

/-! Proofs of 43_md4.md: MD4's round table, and what the four cores share with it: the round, the rewritings of the round
functions and the worked blocks. -/

namespace Sys2Proof.Machine

/-- Round `j` of MD4 stands in phase `j / 16`, and 48 rounds make three phases. -/
theorem apply_md4Phase {α : Type} (f : Nat → α) {j : Nat} (hj : j < 48) :
    f (j / 16) = if j < 16 then f 0 else if j < 32 then f 1 else f 2 := by
  split
  · rw [Nat.div_eq_of_lt ‹_›]
  · split
    · rw [show j / 16 = 1 by omega]
    · rw [show j / 16 = 2 by omega]

/-- Settles O33: the block words and rotations by evaluation, the constants and functions phase by phase. -/
theorem md4RoundTable : Obligations.Md4RoundTable :=
  ⟨by decide, by decide, fun _ hj => apply_md4Phase md4K hj, fun _ x y z hj => apply_md4Phase (md4Fn · x y z) hj⟩

/-- MD4's rotation amounts are below the word's width (R165). -/
theorem md4Rot_lt {j : Nat} (hj : j < 48) : md4Rot j < 32 := by
  have hall : ∀ j, j < 48 → md4Rot j < 32 := by decide
  exact hall j hj

/-- MD5's rotation amounts are below the word's width (R185). -/
theorem md5Rot_lt {j : Nat} (hj : j < 64) : md5Rot j < 32 := by
  have hall : ∀ j, j < 64 → md5Rot j < 32 := by decide
  exact hall j hj

theorem bigSigma0_eq_rotateRight (x : Word) :
    bigSigma0 x = x.rotateRight 2 ^^^ x.rotateRight 13 ^^^ x.rotateRight 22 := by
  simp (disch := decide) only [bigSigma0, rotr_eq_rotateRight]

theorem bigSigma1_eq_rotateRight (x : Word) :
    bigSigma1 x = x.rotateRight 6 ^^^ x.rotateRight 11 ^^^ x.rotateRight 25 := by
  simp (disch := decide) only [bigSigma1, rotr_eq_rotateRight]

/-- Settles O37: each core's round is its definition, every rotation amount in it being below the word's width. -/
theorem roundUpdates : Obligations.RoundUpdates := by
  refine ⟨fun j r x hj => ?md4, fun j r x hj => ?md5, fun j r w => ?sha1,
    fun j r w => ⟨sha256T1 j r w, sha256T2 r, ?t1, ?t2, rfl⟩⟩
  case md4 => rw [md4Round, rotl_eq_rotateLeft _ (md4Rot_lt hj)]
  case md5 => rw [md5Round, rotl_eq_rotateLeft _ (md5Rot_lt hj)]
  case sha1 => simp (disch := decide) only [sha1Round, rotl_eq_rotateLeft]
  case t1 => rw [sha256T1, bigSigma1_eq_rotateRight, fnCh]
  case t2 => rw [sha256T2, bigSigma0_eq_rotateRight, fnMaj]

section functions

variable (x y z : Word)

/-- `x` chooses between `y` and `z` bit by bit (R169). -/
theorem fnF_eq_xor : fnF x y z = z ^^^ (x &&& (y ^^^ z)) := by
  ext i hi
  simp only [fnF, BitVec.getElem_or, BitVec.getElem_and, BitVec.getElem_not, BitVec.getElem_xor]
  cases x[i]
  · simp
  · simp [Bool.xor_left_comm]

/-- The two halves of a choice share no bit, so `^^^` joins them as `|||` does (R224). -/
theorem fnCh_eq_fnF : fnCh x y z = fnF x y z := by
  ext i hi
  simp only [fnCh, fnF, BitVec.getElem_or, BitVec.getElem_and, BitVec.getElem_not, BitVec.getElem_xor]
  cases x[i] <;> simp

/-- `z` meets `x` and `y` in their union (R169). -/
theorem fnG_eq_or : fnG x y z = (x &&& y) ||| (z &&& (x ||| y)) := by
  rw [fnG, BitVec.and_or_distrib_left, BitVec.and_comm z x, BitVec.and_comm z y, BitVec.or_assoc]

/-- Of the pairs of three bits, none, one or all three are both set, so their parity is 1 exactly when some pair is (R224). -/
theorem fnMaj_eq_fnG : fnMaj x y z = fnG x y z := by
  ext i hi
  simp only [fnMaj, fnG, BitVec.getElem_or, BitVec.getElem_and, BitVec.getElem_xor]
  cases x[i] <;> cases y[i] <;> simp

/-- MD5's G chooses between `x` and `y` by `z` (R182). -/
theorem fnG5_eq_fnF : fnG5 x y z = fnF z x y := by
  rw [fnG5, fnF, BitVec.and_comm x, BitVec.and_comm y]

end functions

/-- Settles O38: one lemma for each rewriting. -/
theorem roundFunctionLaws : Obligations.RoundFunctionLaws := fun x y z =>
  ⟨fnF_eq_xor x y z, fnG_eq_or x y z, fnG5_eq_fnF x y z, fnCh_eq_fnF x y z, fnMaj_eq_fnG x y z,
    rotl_sub_eq_rotr x (n := 2) (by decide)⟩

/-- Settles O39: the kernel runs each core on the block of "abc". -/
theorem workedBlocks : Obligations.WorkedBlocks := by
  refine ⟨?md4, ?md5, ?sha1, ?sha256⟩
  case md4 => decide +kernel
  case md5 => decide +kernel
  case sha1 => decide +kernel
  case sha256 => decide +kernel

end Sys2Proof.Machine

/-! Proofs of 44_md5.md: MD5's round table. -/

namespace Sys2Proof.Machine

/-- Round `j` of MD5 stands in phase `j / 16`; the first 48 rounds make three phases as MD4's do, the last 16 the fourth. -/
theorem apply_md5Phase {α : Type} (f : Nat → α) {j : Nat} (hj : j < 64) :
    f (j / 16) = if j < 16 then f 0 else if j < 32 then f 1 else if j < 48 then f 2 else f 3 := by
  by_cases hlast : j < 48
  · rw [apply_md4Phase f hlast, if_pos hlast]
  · rw [show j / 16 = 3 by omega, if_neg (by omega), if_neg (by omega), if_neg hlast]

/-- Settles O34: the block words and rotations by evaluation, the functions phase by phase. -/
theorem md5RoundTable : Obligations.Md5RoundTable :=
  ⟨by decide, by decide, fun _ x y z hj => apply_md5Phase (md5Fn · x y z) hj⟩

end Sys2Proof.Machine

/-! Proofs of 45_sha1.md: SHA-1's message schedule and its round table. -/

namespace Sys2Proof.Machine

/-- Writing a word from index `i` on changes nothing below `i`. -/
theorem agreeBelow_setAt_self {i k : Nat} (v : Vector Word 80) (x : Word) (h : i ≤ k) : agreeBelow i (setAt v k x) v :=
  fun j hj => getAt_setAt_ne v k j x 0 (by omega)

/-- A schedule that makes each word of earlier words obeys its recurrence at the end too: no word is written twice. -/
theorem getAt_foldl_range'_eq {expand : Vector Word 80 → Nat → Vector Word 80} {word : Vector Word 80 → Nat → Word}
    (hexpand : ∀ v i, expand v i = setAt v i (word v i))
    (hword : ∀ v w i, 16 ≤ i → agreeBelow i v w → word v i = word w i) (n : Nat) (hn : 16 + n ≤ 80) (w : Vector Word 80)
    {i : Nat} (hi : 16 ≤ i) (hin : i < 16 + n) :
    getAt ((List.range' 16 n).foldl expand w) i 0 = word ((List.range' 16 n).foldl expand w) i := by
  induction n with
  | zero => omega
  | succ n ih =>
    rw [List.range'_1_concat, List.foldl_concat, hexpand, hword _ _ i hi (agreeBelow_setAt_self _ _ (by omega))]
    obtain hlt | rfl : i < 16 + n ∨ i = 16 + n := by omega
    · rw [getAt_setAt_ne _ _ _ _ _ hlt.ne, ih (by omega) hlt]
    · rw [getAt_setAt_self _ _ _ _ (by omega)]

/-- Word `i` of SHA-1's schedule, from earlier words (R202). -/
def sha1ScheduleWord (w : Vector Word 80) (i : Nat) : Word :=
  (getAt w (i - 3) 0 ^^^ getAt w (i - 8) 0 ^^^ getAt w (i - 14) 0 ^^^ getAt w (i - 16) 0).rotateLeft 1

theorem sha1Expand_eq_setAt (w : Vector Word 80) (i : Nat) : sha1Expand w i = setAt w i (sha1ScheduleWord w i) := by
  rw [sha1Expand, rotl_eq_rotateLeft _ (by decide), sha1ScheduleWord]

theorem sha1ScheduleWord_congr (v w : Vector Word 80) (i : Nat) (hi : 16 ≤ i) (h : agreeBelow i v w) :
    sha1ScheduleWord v i = sha1ScheduleWord w i := by
  rw [sha1ScheduleWord, h (i - 3) (by omega), h (i - 8) (by omega), h (i - 14) (by omega), h (i - 16) (by omega),
    sha1ScheduleWord]

theorem getAt_sha1Schedule (w : Vector Word 80) {i : Nat} (hi : 16 ≤ i) (hi79 : i ≤ 79) :
    getAt (sha1Schedule w) i 0 = sha1ScheduleWord (sha1Schedule w) i := by
  unfold sha1Schedule
  exact getAt_foldl_range'_eq sha1Expand_eq_setAt sha1ScheduleWord_congr 64 (by decide) w hi (by omega)

/-- Settles O31: the schedule keeps the block words, and each later word is made of earlier ones. -/
theorem sha1ScheduleRecurrence : Obligations.Sha1ScheduleRecurrence := fun w =>
  ⟨sha1Schedule_block w, fun _ => getAt_sha1Schedule w⟩

/-- Round `j` of SHA-1 stands in quarter `j / 20`, and 80 rounds make four quarters. -/
theorem apply_sha1Quarter {α : Type} (f : Nat → α) {j : Nat} (hj : j < 80) :
    f (j / 20) = if j < 20 then f 0 else if j < 40 then f 1 else if j < 60 then f 2 else f 3 := by
  split
  · rw [Nat.div_eq_of_lt ‹_›]
  · split
    · rw [show j / 20 = 1 by omega]
    · split
      · rw [show j / 20 = 2 by omega]
      · rw [show j / 20 = 3 by omega]

/-- Settles O36: the function and the constant quarter by quarter. -/
theorem sha1RoundTable : Obligations.Sha1RoundTable := fun _ b c d hj =>
  ⟨apply_sha1Quarter (sha1Fn · b c d) hj, apply_sha1Quarter sha1K hj⟩

end Sys2Proof.Machine

/-! Proofs of 46_sha256.md: SHA-256's message schedule and its constants. -/

namespace Sys2Proof.Machine

theorem sigma0_eq_rotateRight (x : Word) : sigma0 x = x.rotateRight 7 ^^^ x.rotateRight 18 ^^^ (x >>> 3) := by
  simp (disch := decide) only [sigma0, shr, rotr_eq_rotateRight]

theorem sigma1_eq_rotateRight (x : Word) : sigma1 x = x.rotateRight 17 ^^^ x.rotateRight 19 ^^^ (x >>> 10) := by
  simp (disch := decide) only [sigma1, shr, rotr_eq_rotateRight]

/-- Word `i` of SHA-256's schedule, from earlier words (R223). -/
def sha256ScheduleWord (w : Vector Word 80) (i : Nat) : Word :=
  getAt w (i - 16) 0 + sigma0 (getAt w (i - 15) 0) + getAt w (i - 7) 0 + sigma1 (getAt w (i - 2) 0)

theorem sha256Expand_eq_setAt (w : Vector Word 80) (i : Nat) : sha256Expand w i = setAt w i (sha256ScheduleWord w i) := by
  rw [sha256Expand, sha256ScheduleWord]

theorem sha256ScheduleWord_congr (v w : Vector Word 80) (i : Nat) (hi : 16 ≤ i) (h : agreeBelow i v w) :
    sha256ScheduleWord v i = sha256ScheduleWord w i := by
  rw [sha256ScheduleWord, h (i - 16) (by omega), h (i - 15) (by omega), h (i - 7) (by omega), h (i - 2) (by omega),
    sha256ScheduleWord]

theorem getAt_sha256Schedule (w : Vector Word 80) {i : Nat} (hi : 16 ≤ i) (hi63 : i ≤ 63) :
    getAt (sha256Schedule w) i 0 = sha256ScheduleWord (sha256Schedule w) i := by
  unfold sha256Schedule
  exact getAt_foldl_range'_eq sha256Expand_eq_setAt sha256ScheduleWord_congr 48 (by decide) w hi (by omega)

/-- Settles O32: the schedule keeps the words outside 16 to 63, and each of these is made of earlier ones; the model's
rotations and shift are the word type's. -/
theorem sha256ScheduleRecurrence : Obligations.Sha256ScheduleRecurrence := fun w =>
  ⟨sha256Schedule_other w, fun i hi hi63 => by
    rw [getAt_sha256Schedule w hi hi63, sha256ScheduleWord, sigma0_eq_rotateRight, sigma1_eq_rotateRight]⟩

/-- Settles O35: two closed facts about 8 and 64 table entries; the kernel finds each root's whole part among 0 to 4 for the
square roots and 0 to 6 for the cube roots, and compares the powers. -/
theorem sha256ConstantsAreRootsOfPrimes : Obligations.Sha256ConstantsAreRootsOfPrimes := by
  refine ⟨?squareRoots, ?cubeRoots⟩
  case squareRoots => decide
  case cubeRoots =>
    rintro j _ hj rfl
    revert j
    decide

end Sys2Proof.Machine

/-! Proofs of 47_hmac.md: KINIT and KBYTE (R241, R242). -/

namespace Sys2Proof.Machine

/-- Settles O19: KINIT with an algorithm's code is `openCall`, whose fields are the call state of R21 and the IV of R47. -/
theorem kinitOpensAnHmacCall : Obligations.KinitOpensAnHmacCall := by
  refine ⟨fun a => encode_toNat (.kinit a), fun a s hrun => ?opens, fun a s => exec_kinit_of_four_le,
    fun a s => exec_of_error (by simp)⟩
  refine ⟨_, exec_kinit_operand a hrun, ⟨rfl, rfl⟩, rfl, rfl, rfl, rfl, fun i hi => ?iv, rfl, rfl, rfl, rfl, rfl, rfl, rfl,
    rfl⟩
  rw [mapEng_eng, Engine.hAt, openCall_h, getAt_hashState, if_pos hi]

section keyByte

variable (b : Byte) (e : Engine)

/-- What a byte absorbed does to the packer's registers says nothing of KB and KCNT, before it and after it. -/
theorem absorbedByte_keepKeyByte (c : Byte) (f : Engine) : absorbedByte b (e.keepKeyByte c) f ↔ absorbedByte b e f := by
  unfold Engine.keepKeyByte
  split
  · exact Iff.rfl
  · exact Iff.rfl

theorem absorbedByte_countKeyByte (f : Engine) : absorbedByte b e f.countKeyByte ↔ absorbedByte b e f := by
  unfold Engine.countKeyByte
  split
  · exact Iff.rfl
  · exact Iff.rfl

/-- A key byte is absorbed as a message byte is (R242). -/
theorem absorbedByte_takeKeyByte : absorbedByte b e (e.takeKeyByte b) := by
  rw [Engine.takeKeyByte, absorbedByte_countKeyByte, ← absorbedByte_keepKeyByte b e b]
  exact absorbedByte_absorbMsg b (e.keepKeyByte b)

/-- One of the first 64 key bytes is kept at its number, and no other byte of KB changes (R242). -/
theorem getAt_takeKeyByte_kb (hlt : e.kcnt.toNat < 64) (i : Nat) :
    getAt (e.takeKeyByte b).kb i 0 = if i = e.kcnt.toNat then b else getAt e.kb i 0 := by
  have hkept : e.kcnt < 64 := by bv_omega
  rw [takeKeyByte_kb, if_pos hkept, getAt_setAt]
  simp [hlt]

/-- A key byte after the first 64 is not kept (R242). -/
theorem takeKeyByte_kb_of_le (hle : 64 ≤ e.kcnt.toNat) : (e.takeKeyByte b).kb = e.kb := by
  have hfull : ¬ e.kcnt < 64 := by bv_omega
  rw [takeKeyByte_kb, if_neg hfull]

end keyByte

/-- Settles O21: KBYTE in KEY is `takeKeyByte`; elsewhere it is out of sequence, or ignored. -/
theorem kbyteAbsorbsAndKeepsOneByte : Obligations.KbyteAbsorbsAndKeepsOneByte := by
  refine ⟨fun b => encode_toNat (.kbyte b), fun b s hkey => ?takes, fun b s => exec_of_wrong_state rfl,
    fun b s => exec_of_error (by simp)⟩
  exact ⟨_, exec_kbyte_of_key b hkey, ⟨rfl, rfl⟩, absorbedByte_takeKeyByte b s.eng, (takeKeyByte_state b s.eng).trans hkey,
    takeKeyByte_err b s.eng, takeKeyByte_hmac b s.eng, takeKeyByte_alg b s.eng, takeKeyByte_idb b s.eng,
    fun hlt i _ => getAt_takeKeyByte_kb b s.eng hlt i, takeKeyByte_kb_of_le b s.eng, takeKeyByte_kcnt_toNat b s.eng⟩

end Sys2Proof.Machine

/-! Proofs of 47_hmac.md: KDONE (R243). -/

namespace Sys2Proof.Machine

section block

variable {e : Engine} {bs : List Byte} (hpos : e.pos = 0) (hbs : bs.length = 64)

include hpos hbs

/-- The registers after a whole block is absorbed from an empty buffer: it is compressed, once (R142). -/
theorem absorbAll_block_h : (e.absorbAll bs).h = foldBlocks e.alg e.h [packWords e.alg.little bs] := by
  have hnil : fullBlocks e.alg [] = [] := fullBlocks_of_lt e.alg (by decide)
  have hblock : fullBlocks e.alg bs = [packWords e.alg.little bs] := by
    rw [← List.append_nil bs, fullBlocks_append e.alg [] hbs, hnil, List.append_nil]
  obtain ⟨hh, -⟩ := absorbAll_blocks_of_empty bs hpos
  rw [hh, hblock]

/-- The block stays in the buffer, and SV holds the registers before it (R25, R142): its last byte is the one that
compresses. -/
theorem absorbAll_block_buffer : (List.range 64).map (e.absorbAll bs).bufferByte = bs ∧ (e.absorbAll bs).j = 0 ∧
    ∀ i, i < e.alg.arity → getAt (e.absorbAll bs).sv i 0 = e.hAt i := by
  obtain rfl | ⟨cs, b, rfl⟩ := List.eq_nil_or_concat' bs
  · cases hbs
  have hcs : cs.length = 63 := by simpa using hbs
  obtain ⟨hh, hbytes⟩ := absorbAll_blocks_of_empty cs hpos
  rw [fullBlocks_of_lt _ (by omega)] at hh
  rw [openBytes_of_lt (by omega)] at hbytes
  have hfull : (e.absorbAll cs).pos = 63 := by rw [absorbAll_pos, hpos, hcs]; rfl
  have halg : (e.absorbAll cs).alg = e.alg := absorbAll_alg cs e
  rw [absorbAll_append, absorbAll_cons, absorbAll_nil]
  generalize e.absorbAll cs = f at *
  obtain ⟨-, hj, hsv⟩ := absorb_registers_of_full b hfull
  refine ⟨?buffer, hj, fun i hi => ?saved⟩
  case buffer =>
    have hput := map_bufferByte_putByte b f
    rw [hfull, hbytes] at hput
    rw [← hput]
    refine List.map_congr_left (fun q hq => ?_)
    rw [bufferByte_putByte, ← hfull]
    exact bufferByte_absorb b (List.mem_range.mp hq)
  case saved =>
    have hsaved := hsv i
    rw [halg, if_pos hi, Engine.hAt, hh] at hsaved
    exact hsaved

end block

/-- Bytes stored over zeros, through reads. -/
theorem getAt_storeFrom_zeros_eq_getD {n : Nat} (bs : List Byte) {i : Nat} (hi : i < n) :
    getAt (storeFrom (Vector.replicate n 0) 0 bs) i 0 = bs.getD i 0 := by
  by_cases hlt : i < bs.length
  · rw [getAt_storeFrom, if_pos (by omega), Nat.sub_zero]
  · rw [getAt_storeFrom_zeros _ _ (by omega), List.getD_eq_default _ _ (by omega)]

section endKey

variable (e : Engine)

/-- The block that starts the inner hash (R243). -/
theorem ipadBlock_eq : padBlock Config.ipadByte e.kb = xorAll 0x36 e.kb.toList := rfl

/-- A key of at most a block is left as it was stored (R243). -/
theorem normaliseKey_of_short (hshort : e.kcnt ≠ 65) : e.normaliseKey = e := if_neg hshort

/-- A key longer than a block is replaced by the digest of the running hash, then zeros (R243). -/
theorem getAt_normaliseKey_kb_of_long (hlong : e.kcnt = 65) {i : Nat} (hi : i < 64) :
    getAt e.normaliseKey.kb i 0 = (digestBytesOf e.alg (foldBlocks e.alg e.h e.tailBlocks)).getD i 0 := by
  rw [Engine.normaliseKey, if_pos hlong, keyFromDigest_kb, getAt_storeFrom_zeros_eq_getD _ hi, Engine.digestBytes, finish_alg,
    finish_h]

theorem normaliseKey_keepsUnwritten : keepsUnwritten e e.normaliseKey := by
  unfold Engine.normaliseKey
  split
  · refine (finish_keepsUnwritten e).trans (.of_eq (keyFromDigest_alg _) (keyFromDigest_sv _) (fun i _ => ?_))
    rw [Engine.wAt, keyFromDigest_w, Engine.wAt]
  · exact .refl e

theorem restartHash_keepsUnwritten : keepsUnwritten e e.restartHash :=
  .of_eq (restartHash_alg e) (restartHash_sv e) (fun i _ => by rw [Engine.wAt, restartHash_w, Engine.wAt])

theorem startInner_keepsUnwritten : keepsUnwritten e e.startInner :=
  (restartHash_keepsUnwritten e).trans (absorbAll_keepsUnwritten _ _)

/-- The inner hash is started by its ipad block, a whole one absorbed from the IV (R243). -/
theorem startInner_h : e.startInner.h =
    foldBlocks e.alg (hashState e.alg.iv) [packWords e.alg.little (xorAll 0x36 e.kb.toList)] := by
  rw [Engine.startInner, absorbAll_block_h (restartHash_pos e) (padBlock_length _ _), restartHash_alg, restartHash_h,
    ipadBlock_eq]

/-- The inner hash's first block stays in the buffer, and SV holds the IV before it (R25, R243). -/
theorem startInner_buffer : (List.range 64).map e.startInner.bufferByte = xorAll 0x36 e.kb.toList ∧ e.startInner.j = 0 ∧
    ∀ i, i < e.alg.arity → getAt e.startInner.sv i 0 = e.alg.iv.getD i 0 := by
  obtain ⟨hbuffer, hj, hsv⟩ := absorbAll_block_buffer (restartHash_pos e) (padBlock_length Config.ipadByte e.kb)
  rw [restartHash_alg] at hsv
  rw [Engine.startInner, ← ipadBlock_eq]
  refine ⟨hbuffer, hj, fun i hi => ?_⟩
  rw [hsv i hi, Engine.hAt, restartHash_h, getAt_hashState, if_pos (hi.trans_le (arity_le _))]

@[simp] theorem endKey_kb : e.endKey.kb = e.normaliseKey.kb := startInner_kb e.normaliseKey

end endKey

/-- Settles O22: KDONE in KEY after a key byte is `endKey`, the key normalised and then the inner hash started; else it raises
the error its check says, or is ignored. -/
theorem kdoneNormalisesTheKeyAndStartsTheInnerHash : Obligations.KdoneNormalisesTheKeyAndStartsTheInnerHash := by
  refine ⟨rfl, fun s hkey hcount => ?ends, fun s => exec_kdone_of_no_key, fun s => exec_of_wrong_state rfl,
    fun s => exec_of_error (by simp)⟩
  refine ⟨_, exec_kdone_of_key hkey hcount, ⟨rfl, rfl⟩, ?_⟩
  obtain ⟨-, hsv, hrest⟩ := (normaliseKey_keepsUnwritten s.eng).trans (startInner_keepsUnwritten _)
  obtain ⟨hbuffer, hj, hiv⟩ := startInner_buffer s.eng.normaliseKey
  have hh := startInner_h s.eng.normaliseKey
  rw [normaliseKey_alg] at hh hiv
  rw [mapEng_eng]
  refine ⟨endKey_state _, endKey_err _, endKey_hmac _, endKey_alg _, endKey_kcnt _, endKey_idb _, endKey_pos _, endKey_mlen _,
    hj, fun hshort => ?short, fun hlong i hi => ?long, ?buffer, ?registers, fun i hi => ?saved, hrest⟩
  case short => rw [endKey_kb, normaliseKey_of_short _ hshort]
  case long => rw [endKey_kb, getAt_normaliseKey_kb_of_long _ hlong hi]
  case buffer => rw [endKey_kb]; exact hbuffer
  case registers => rw [endKey_kb]; exact hh
  case saved =>
    split
    next hlt => exact hiv i hlt
    next hle => exact hsv i (by omega)

end Sys2Proof.Machine

/-! Proofs of 47_hmac.md: a key longer than a block, and an HMAC call as a whole (R246, R247). -/

namespace Sys2Proof.Machine

/-- A digest is a key of at least one byte. -/
theorem digest_ne_nil (a : Alg) (m : List Byte) : digest a m ≠ [] := by
  have hpos : 0 < (digest a m).length := by
    rw [digest_length]
    cases a <;> decide
  exact List.length_pos_iff.mp hpos

/-- A key longer than a block has the key block of its digest, which is at most a block itself (R245). -/
theorem blockKey_digest (a : Alg) {k : List Byte} (hlong : 64 < k.length) : blockKey a (digest a k) = blockKey a k := by
  have hshort : ¬ 64 < (digest a k).length := by
    rw [digest_length]
    have := digestBytes_le a
    omega
  rw [blockKey_eq, blockKey_eq, if_neg hshort, if_pos hlong]

/-- Settles O46: of the key the HMAC uses the key block only, and neither key is empty. -/
theorem longKeysActAsTheirDigest : Obligations.LongKeysActAsTheirDigest := by
  intro a k m hlong
  have hk : k ≠ [] := List.ne_nil_of_length_pos (by omega)
  rw [Machine.hmac, Machine.hmac, if_neg hk, if_neg (digest_ne_nil a k), blockKey_digest a hlong]

/-- Taking a key leaves ERR alone (R242). -/
@[simp] theorem takeKey_err (ks : List Byte) (e : Engine) : (e.takeKey ks).err = e.err :=
  takeKey_keeps (fun f => f.err = e.err) (by simp_all) ks e rfl

/-- Settles O44: the accesses of an HMAC call end in `afterHmacCall`, whose digest is the HMAC of the message. -/
theorem hmacCallComputesTheHmac : Obligations.HmacCallComputesTheHmac := by
  intro a k m s hrun hk
  refine ⟨_, performAll_hmacAccesses a m hk hrun, ⟨rfl, rfl⟩, ?_⟩
  rw [mapEng_eng]
  refine ⟨afterHmacCall_state a k m s.eng, afterHmacCall_alg a k m s.eng, by simp [Engine.afterHmacCall],
    by simp [Engine.afterHmacCall], ?digest, ?length⟩
  case digest => rw [Machine.hmac, if_neg hk, afterHmacCall_digestBytes]
  case length => rw [digestBytes_length, afterHmacCall_alg, Alg.digestBytes]

end Sys2Proof.Machine

/-! Proofs of 60_exceptions.md: entering ERROR, staying in it and leaving it (R262 to R268). -/

namespace Sys2Proof.Machine

section errors

variable {s t : State}

/-- A word that decodes to a command is executed by that command's meaning (R100). -/
theorem command_of_decode {w : Word} {i : Instr} (hw : decode w = .instr i) (s : State) : command w s = exec i s := by
  rw [command, hw]

/-- Outside ERROR the one way of a command into ERROR is to raise an error, and that writes ERR and STATE alone (R266): the
other ways end in a STATE of their own. -/
theorem exec_raises_of_error {i : Instr} (h : exec i s = .next t) (hrun : s.eng.state ≠ .error)
    (herr : t.eng.state = .error) : ∃ c, (c = .key ∨ c = .alg ∨ c = .seq) ∧ t = s.inError c := by
  obtain ⟨hx, -⟩ | ⟨-, hx⟩ | ⟨c, hx, -, hc⟩ | ⟨m, a, c, hx, -, hm⟩ | ⟨b, -, hk, hx⟩ | ⟨-, -, -, hx⟩ | ⟨b, -, hm, hx⟩ |
    ⟨-, -, hx⟩ := exec_cases i s
  · rw [hx] at h
    cases h
    exact absurd herr hrun
  · simp [eng_of_complete hx h] at herr
  · rw [hx] at h
    cases h
    exact ⟨c, hc, rfl⟩
  · obtain ⟨-, rfl⟩ | ⟨-, rfl⟩ := hm
    · simp [eng_of_complete hx h] at herr
    · simp [eng_of_complete hx h] at herr
  · simp [eng_of_complete hx h, hk] at herr
  · simp [eng_of_complete hx h] at herr
  · simp [eng_of_complete hx h, hm] at herr
  · simp [eng_of_complete hx h] at herr

/-- The same of a command word, which may be illegal as well (R265). -/
theorem command_raises_of_error {w : Word} (h : command w s = .next t) (hrun : s.eng.state ≠ .error)
    (herr : t.eng.state = .error) : ∃ c, c ≠ Err.none ∧ t = s.inError c := by
  obtain ⟨i, -, hx⟩ | ⟨-, he, -⟩ | ⟨-, -, hx⟩ := command_cases w s
  · rw [hx] at h
    obtain ⟨c, hc, ht⟩ := exec_raises_of_error h hrun herr
    exact ⟨c, by obtain rfl | rfl | rfl := hc <;> decide, ht⟩
  · exact absurd he hrun
  · rw [hx] at h
    cases h
    exact ⟨.cmd, by decide, rfl⟩

/-- In ERROR every word but a well-formed CLEAR is ignored (R267). -/
theorem command_of_error {w : Word} (herr : s.eng.state = .error) (hw : decode w ≠ .instr .clear) :
    command w s = .next s := by
  obtain ⟨i, hi, hx⟩ | ⟨-, -, hx⟩ | ⟨-, hrun, -⟩ := command_cases w s
  · rw [hx]
    refine exec_of_error ?_ herr
    rintro rfl
    exact hw hi
  · exact hx
  · exact absurd herr hrun

/-- An access that gives an engine in ERROR no reset and no CLEAR (R267). -/
def Access.keepsError (a : Access) : Prop :=
  a ≠ .reset ∧ ∀ addr n v, a = .write addr n v → decode v ≠ .instr .clear

/-- In ERROR an access without reset and CLEAR leaves the engine alone (R267). -/
theorem perform_of_error {a : Access} (ha : a.keepsError) (herr : s.eng.state = .error) (h : perform a s = .next t) :
    t.eng = s.eng := by
  obtain ⟨hreset, hclear⟩ := ha
  obtain heng | ⟨hr, -⟩ | ⟨addr, n, w, hw, hx⟩ := perform_cases a s t h
  · exact heng
  · exact absurd hr hreset
  · rw [command_of_error herr (hclear addr n w hw)] at hx
    cases hx
    rfl

/-- In ERROR accesses without reset and CLEAR leave the engine alone, one after the other (R267). -/
theorem performAll_of_error {xs : List Access} (hxs : ∀ a, a ∈ xs → a.keepsError) (herr : s.eng.state = .error)
    (h : performAll xs s = .next t) : t.eng = s.eng := by
  induction xs generalizing s with
  | nil =>
    cases h
    rfl
  | cons a xs ih =>
    cases ha : perform a s with
    | next u =>
      have heng : u.eng = s.eng := perform_of_error (hxs a List.mem_cons_self) herr ha
      rw [performAll_cons a xs s u ha] at h
      rw [← heng]
      exact ih (fun b hb => hxs b (List.mem_cons_of_mem _ hb)) (heng ▸ herr) h
    | fault r => simp [performAll, ha] at h
    | refused r => simp [performAll, ha] at h

end errors

/-- Settles O13: the one way into ERROR is to raise an error, and DOUT reads 0 outside DONE. -/
theorem errorsArePrecise : Obligations.ErrorsArePrecise := by
  refine ⟨fun i s t h hrun herr => ?_, fun w s t => command_raises_of_error, fun e i herr => dout_eq_zero (by simp [herr])⟩
  obtain ⟨c, rfl | rfl | rfl, ht⟩ := exec_raises_of_error h hrun herr
  · exact .inl ht
  · exact .inr (.inl ht)
  · exact .inr (.inr ht)

/-- Settles O14: in ERROR neither a word nor an access without CLEAR and reset does anything, and both exits give the reset
engine. -/
theorem errorIgnoresAllButClear : Obligations.ErrorIgnoresAllButClear := by
  refine ⟨fun w s => command_of_error, fun xs s t herr hxs => performAll_of_error hxs herr, fun w s hw => ⟨?clear, rfl⟩⟩
  rw [command_of_decode hw]
  rfl

/-- Settles O15: ERROR and the encoding are checked before the word is a command, the state before the command's own
check. -/
theorem errorPriority : Obligations.ErrorPriority := by
  refine fun w s => ⟨command_of_error, fun hrun hw => ?encoding, fun hrun hkey hw => ?keyState, fun hrun hmsg hw => ?msgState,
    fun a hrun ha hw => ?algorithm, fun hkey hcount hw => ?noKey⟩
  case encoding => rw [command_of_illegal hw, if_neg hrun]
  case keyState =>
    obtain ⟨b, hw⟩ | hw := hw
    · rw [command_of_decode hw, exec_of_wrong_state rfl hrun hkey]
    · rw [command_of_decode hw, exec_of_wrong_state rfl hrun hkey]
  case msgState =>
    obtain ⟨b, hw⟩ | hw := hw
    · rw [command_of_decode hw, exec_of_wrong_state rfl hrun hmsg]
    · rw [command_of_decode hw, exec_of_wrong_state rfl hrun hmsg]
  case algorithm =>
    obtain hw | hw := hw
    · rw [command_of_decode hw, exec_init_of_four_le hrun ha]
    · rw [command_of_decode hw, exec_kinit_of_four_le hrun ha]
  case noKey => rw [command_of_decode hw, exec_kdone_of_no_key hkey hcount]

end Sys2Proof.Machine

/-! Proofs of 70_reset_and_hazards.md: what the host can read (R297, R300). -/

namespace Sys2Proof.Machine

section reads

variable {e f : Engine}

/-- STATUS is made of the four control fields (R40). -/
theorem status_congr (hstate : e.state = f.state) (herr : e.err = f.err) (hmac : e.hmac = f.hmac) (halg : e.alg = f.alg) :
    e.status = f.status := by
  rw [Engine.status, Engine.status, hstate, herr, hmac, halg]

/-- DOUT is made of STATE and ALG, and in DONE of the registers of the digest (R111). -/
theorem dout_congr (hstate : e.state = f.state) (halg : e.alg = f.alg)
    (hregs : e.state = .done → ∀ i, i < e.alg.arity → e.hAt i = f.hAt i) (i : Nat) : e.dout i = f.dout i := by
  by_cases hread : e.state = .done ∧ i < e.alg.arity
  · obtain ⟨hdone, hi⟩ := hread
    rw [dout_eq_renderWord hdone hi, dout_eq_renderWord (hstate ▸ hdone) (halg ▸ hi), hregs hdone i hi, halg]
  · rw [dout_eq_zero hread, dout_eq_zero (by rwa [← hstate, ← halg])]

end reads

/-- Settles O55: a register that reads as anything but 0 is STATUS or a DOUT. -/
theorem keyAndIntermediateStateAreUnreadable : Obligations.KeyAndIntermediateStateAreUnreadable := by
  refine ⟨fun s addr halign hle => perform_read s addr 4 ((accessExists_iff addr 4).mpr ⟨rfl, halign, by omega⟩), ?_⟩
  intro e f hstate herr hmac halg hregs addr
  rw [Engine.readRegister, Engine.readRegister, status_congr hstate herr hmac halg, dout_congr hstate halg hregs]

end Sys2Proof.Machine
